-- ==== Sys2Proof/Word.lean ====
section
/-! DEFINITION. The plain word types of the operation stream and the registers. -/

namespace Sys2Proof

/-- One byte of a payload or of the frame buffer. -/
abbrev Byte := BitVec 8

/-- One 32-bit word of the operation stream (30_encoding.md R58). -/
abbrev Word := BitVec 32

/-- A 64-bit count of microseconds (60_exceptions.md R149). -/
abbrev Stamp := BitVec 64

end Sys2Proof
end

