-- ==== Sys2Proof/Config.lean ====
section
/-! DEFINITION. The parameters of the block (00_scope.md R8) and the values the spec assumes when
none is given. The spec leaves no instruction's result undefined, so there is no free value here. -/

namespace Sys2Proof

/-- The parameters of 00_scope.md R8. `N_PORTS` counts whole machines, so it is no field (assumption
log 12). -/
structure Config where
  /-- BUF_CAP, the frame buffer's size in bytes. -/
  bufCap : Nat
  /-- HEAD_BITS, the width of HEAD, a signed register. -/
  headBits : Nat
  /-- HEAD_MAX, the value at which receive increments of HEAD stop. -/
  headMax : Nat
  /-- TX_FIFO_CAP, the UART transmit FIFO's size in bytes. -/
  txFifoCap : Nat
  /-- RX_FIFO_CAP, the largest byte count of one RX drain. -/
  rxFifoCap : Nat
  /-- RESP_TIMEOUT_US, the response-start timeout. -/
  respTimeout : BitVec 32
  /-- SNIFFER_PRESENT, whether the edge-width unit exists. -/
  snifferPresent : Bool
  /-- SNIF_QDEPTH, the depth of the width queue. -/
  snifQDepth : Nat
  /-- CC_DISC, the discovery command class. -/
  ccDisc : Byte
  /-- CC_GET, the get command class. -/
  ccGet : Byte
  /-- CC_SET, the set command class. -/
  ccSet : Byte
  /-- PID_DUB, the parameter of DISC_UNIQUE_BRANCH. -/
  pidDub : BitVec 16
  /-- BREAK_MIN, in microseconds. -/
  breakMin : BitVec 32
  /-- BREAK_MAX, in microseconds. -/
  breakMax : BitVec 32
  /-- MAB_MIN, in microseconds. -/
  mabMin : BitVec 32
  /-- MAB_MAX, in microseconds. -/
  mabMax : BitVec 32
  /-- BAUD_MIN. -/
  baudMin : BitVec 32
  /-- BAUD_MAX. -/
  baudMax : BitVec 32
  deriving DecidableEq, Repr

/-- The values of R8's table. -/
def Config.default : Config where
  bufCap := 513
  headBits := 16
  headMax := 32767
  txFifoCap := 128
  rxFifoCap := 128
  respTimeout := 2800
  snifferPresent := true
  snifQDepth := 1
  ccDisc := 0x10
  ccGet := 0x20
  ccSet := 0x30
  pidDub := 0x0001
  breakMin := 92
  breakMax := 1000000
  mabMin := 12
  mabMax := 1000000
  baudMin := 245000
  baudMax := 255000

/-- The BREAK_LEN, MAB_LEN and BAUD that 70_reset_and_hazards.md R155 resets to. -/
def Config.resetBreakLen : BitVec 32 := 176
/-- See `Config.resetBreakLen`. -/
def Config.resetMabLen : BitVec 32 := 12
/-- See `Config.resetBreakLen`. -/
def Config.resetBaud : BitVec 32 := 250000

/-- The ranges R8 gives the parameters. DEDUCED (assumption log 1): HEAD, a signed register of
`headBits` bits that READ_REG returns in 64, holds HEAD_MAX and so counts every cell of the buffer;
PKT_SIZE, of 16 bits, holds the buffer's size; and each timing window holds the register's reset value
(R28). -/
abbrev Config.Valid (c : Config) : Prop :=
  (513 ≤ c.bufCap ∧ c.bufCap ≤ 65535 ∧ c.bufCap ≤ c.headMax) ∧
  (c.headMax < 2 ^ (c.headBits - 1) ∧ c.headBits ≤ 64) ∧
  (1 ≤ c.txFifoCap ∧ c.txFifoCap ≤ 65535) ∧
  (1 ≤ c.rxFifoCap ∧ c.rxFifoCap ≤ 255) ∧
  1 ≤ c.snifQDepth ∧
  (c.breakMin ≤ Config.resetBreakLen ∧ Config.resetBreakLen ≤ c.breakMax) ∧
  (c.mabMin ≤ Config.resetMabLen ∧ Config.resetMabLen ≤ c.mabMax) ∧
  (c.baudMin ≤ Config.resetBaud ∧ Config.resetBaud ≤ c.baudMax)

end Sys2Proof
end

