-- ==== Sys2Proof/Syntax.lean ====
section
/-! DEFINITION. The 28 operations of spec/opcode_table.json, the operation as it is delivered
(30_encoding.md R58) and the names of what R65 refuses. -/

namespace Sys2Proof

/-- What `WAIT` waits for (45_host.md R131): bit 0 is 0 for `rx` and 1 for `idle`. -/
inductive WaitCond where
  | rx
  | idle
  deriving DecidableEq, Repr

/-- The operations, one constructor per row of spec/opcode_table.json (30_encoding.md R62). The
payload of a byte-delivery event is the list `p`; its count `n` is `p.length`. -/
inductive Instr where
  | rxData (p : List Byte)
  | rxTimeout (p : List Byte)
  | rxBreak
  | rxFramingErr (p : List Byte)
  | rxOverflow
  | rxClash
  | txData (space : BitVec 16)
  | txDone
  | timerAlarm
  | gpioNegedge
  | gpioPosedge
  | enable
  | disable
  | setBreakLen (v : BitVec 32)
  | setMabLen (v : BitVec 32)
  | setBaud (v : BitVec 32)
  | bufWrite (addr : BitVec 16) (data : Byte)
  | bufRead (addr : BitVec 16)
  | txStart (n : BitVec 16)
  | rxArm
  | wait (c : WaitCond)
  | waitCancel
  | rxConsume
  | abort
  | setTn (v : Byte)
  | readReg (r : Byte)
  | snifferCtrl (b : Bool)
  | snifferPop
  deriving DecidableEq, Repr

/-- Whether the operation is a host command, which returns a response (30_encoding.md R59). -/
def Instr.isCommand : Instr → Bool
  | .rxData _ | .rxTimeout _ | .rxBreak | .rxFramingErr _ | .rxOverflow | .rxClash => false
  | .txData _ | .txDone | .timerAlarm | .gpioNegedge | .gpioPosedge => false
  | .enable | .disable | .setBreakLen _ | .setMabLen _ | .setBaud _ => true
  | .bufWrite _ _ | .bufRead _ | .txStart _ | .rxArm | .wait _ | .waitCancel => true
  | .rxConsume | .abort | .setTn _ | .readReg _ | .snifferCtrl _ | .snifferPop => true

/-- An operation as delivered (30_encoding.md R58), before it is decoded. `pad` holds the unused
bytes of the last payload word when the operation came in serial form (R63), else nothing. -/
structure RawOp where
  w : Word
  x : Option Word
  p : List Byte
  pad : List Byte
  deriving DecidableEq, Repr

/-- An operation with the timestamp it happens at (30_encoding.md R58, R64). -/
structure Arrival where
  now : Stamp
  op : RawOp
  deriving DecidableEq, Repr

/-- Why a word spells no operation (30_encoding.md R65, items 1 to 5). -/
inductive DecodeError where
  /-- Item 1: OPC is not in the table. -/
  | reservedOpcode
  /-- Item 2: a reserved bit of the format is not zero. -/
  | reservedBits
  /-- Item 3: format CX without an extension word. -/
  | missingExtension
  /-- Item 3: an extension word and the format is not CX. -/
  | strayExtension
  /-- Item 4: a payload and the format is not EB. -/
  | strayPayload
  /-- Item 4: the payload's length is not `n`. -/
  | payloadLength
  /-- Item 4: a padding byte of the serial form is not zero. -/
  | padding
  /-- Item 5: a field constraint of R62 fails. -/
  | fieldRange
  deriving DecidableEq, Repr

end Sys2Proof
end

