-- ==== Sys2Proof/WellFormed.lean ====
section
/-! DEFINITION. Which operations of `Instr` an encoding can spell: the field constraints of
30_encoding.md R62. -/

namespace Sys2Proof

/-- The field constraints of R62: the payload counts of the byte-delivery events and the FIFO room
of `TX_DATA`. Every other field is as wide as its place in the word. -/
def WellFormed (c : Config) : Instr → Bool
  | .rxData p => decide (1 ≤ p.length ∧ p.length ≤ c.rxFifoCap)
  | .rxTimeout p => decide (1 ≤ p.length ∧ p.length ≤ c.rxFifoCap)
  | .rxFramingErr p => decide (p.length ≤ c.rxFifoCap - 1)
  | .txData space => decide (1 ≤ space.toNat ∧ space.toNat ≤ c.txFifoCap)
  | .rxBreak | .rxOverflow | .rxClash | .txDone | .timerAlarm | .gpioNegedge | .gpioPosedge => true
  | .enable | .disable | .setBreakLen _ | .setMabLen _ | .setBaud _ => true
  | .bufWrite _ _ | .bufRead _ | .txStart _ | .rxArm | .wait _ | .waitCancel => true
  | .rxConsume | .abort | .setTn _ | .readReg _ | .snifferCtrl _ | .snifferPop => true

end Sys2Proof
end

