-- ==== Sys2Proof/Decode.lean ====
section
/-! DEFINITION. The operation word: fields and formats (30_encoding.md R59 to R61), the decoder with
the refusals of R65, the serial form (R63), and the encoder. -/

namespace Sys2Proof

/-! ### Fields of the word -/

/-- `OPC = W[31:24]` (R59). -/
def opcOf (w : Word) : BitVec 8 := w.extractLsb' 24 8

/-- `ARG = W[23:0]` (R59). -/
def argOf (w : Word) : BitVec 24 := w.extractLsb' 0 24

/-- The word whose OPC and ARG are given (R59). -/
def mkWord (opc : BitVec 8) (arg : BitVec 24) : Word := opc ++ arg

/-- `ARG[7:0]`: `n` of EB, `data` of CA, `v` of C8 (R60). -/
def argByte (w : Word) : Byte := (argOf w).extractLsb' 0 8

/-- `ARG[15:0]`: `space` of ES, `n` of CN (R60). -/
def argHalf (w : Word) : BitVec 16 := (argOf w).extractLsb' 0 16

/-- `ARG[23:8]`: `addr` of CA and CR (R60). -/
def argAddr (w : Word) : BitVec 16 := (argOf w).extractLsb' 8 16

/-! ### The formats of R60

Each reader checks, in the order of R65, the format's reserved bits, its extension word, its payload
and its field constraint, and then builds the operation. -/

/-- Items 3 and 4 of R65 for a format that has neither extension word nor payload. -/
def noExtra (op : RawOp) (i : Instr) : Except DecodeError Instr :=
  if op.x.isSome then .error .strayExtension
  else if op.p ≠ [] then .error .strayPayload
  else if op.pad.any (· ≠ 0) then .error .padding
  else .ok i

/-- Formats E0 and C0: ARG is zero. -/
def readBare (op : RawOp) (i : Instr) : Except DecodeError Instr :=
  if argOf op.w ≠ 0 then .error .reservedBits else noExtra op i

/-- Format EB: ARG[23:8] is zero, `n` is ARG[7:0], and the payload has `n` bytes, `lo ≤ n ≤ hi`. -/
def readBytes (op : RawOp) (lo hi : Nat) (mk : List Byte → Instr) : Except DecodeError Instr :=
  if argAddr op.w ≠ 0 then .error .reservedBits
  else if op.x.isSome then .error .strayExtension
  else if op.p.length ≠ (argByte op.w).toNat then .error .payloadLength
  else if op.pad.any (· ≠ 0) then .error .padding
  else if op.p.length < lo ∨ hi < op.p.length then .error .fieldRange
  else .ok (mk op.p)

/-- Format ES: ARG[23:16] is zero, `space` is ARG[15:0], `1 ≤ space ≤ hi`. -/
def readSpace (op : RawOp) (hi : Nat) : Except DecodeError Instr :=
  if (argOf op.w).extractLsb' 16 8 ≠ 0 then .error .reservedBits
  else
    match noExtra op (.txData (argHalf op.w)) with
    | .error e => .error e
    | .ok i =>
      if (argHalf op.w).toNat < 1 ∨ hi < (argHalf op.w).toNat then .error .fieldRange else .ok i

/-- Format CX: ARG is zero and the extension word is `v`. -/
def readExtended (op : RawOp) (mk : BitVec 32 → Instr) : Except DecodeError Instr :=
  if argOf op.w ≠ 0 then .error .reservedBits
  else
    match op.x with
    | none => .error .missingExtension
    | some v =>
      if op.p ≠ [] then .error .strayPayload
      else if op.pad.any (· ≠ 0) then .error .padding
      else .ok (mk v)

/-- Format CA: `addr` is ARG[23:8], `data` is ARG[7:0]. -/
def readAddrData (op : RawOp) : Except DecodeError Instr :=
  noExtra op (.bufWrite (argAddr op.w) (argByte op.w))

/-- Format CR: `addr` is ARG[23:8], ARG[7:0] is zero. -/
def readAddr (op : RawOp) : Except DecodeError Instr :=
  if argByte op.w ≠ 0 then .error .reservedBits else noExtra op (.bufRead (argAddr op.w))

/-- Format CN: ARG[23:16] is zero, `n` is ARG[15:0]. -/
def readCount (op : RawOp) : Except DecodeError Instr :=
  if (argOf op.w).extractLsb' 16 8 ≠ 0 then .error .reservedBits
  else noExtra op (.txStart (argHalf op.w))

/-- Format C8: ARG[23:8] is zero, `v` is ARG[7:0]. -/
def readByteArg (op : RawOp) (mk : Byte → Instr) : Except DecodeError Instr :=
  if argAddr op.w ≠ 0 then .error .reservedBits else noExtra op (mk (argByte op.w))

/-- Format C1: ARG[23:1] is zero, `b` is ARG[0]. -/
def readBitArg (op : RawOp) (mk : Bool → Instr) : Except DecodeError Instr :=
  if (argOf op.w).extractLsb' 1 23 ≠ 0 then .error .reservedBits
  else noExtra op (mk ((argOf op.w).getLsbD 0))

/-- `b` of `WAIT`: 0 = RX, 1 = IDLE (45_host.md R131). -/
def waitOfBit (b : Bool) : Instr := .wait (if b then .idle else .rx)

/-! ### The decoder -/

/-- The operation a delivered word spells (30_encoding.md R62), or why R65 refuses it. -/
def decode (c : Config) (op : RawOp) : Except DecodeError Instr :=
  match (opcOf op.w).toNat with
  | 0x10 => readBytes op 1 c.rxFifoCap .rxData
  | 0x11 => readBytes op 1 c.rxFifoCap .rxTimeout
  | 0x12 => readBare op .rxBreak
  | 0x13 => readBytes op 0 (c.rxFifoCap - 1) .rxFramingErr
  | 0x14 => readBare op .rxOverflow
  | 0x15 => readBare op .rxClash
  | 0x16 => readSpace op c.txFifoCap
  | 0x17 => readBare op .txDone
  | 0x20 => readBare op .timerAlarm
  | 0x30 => readBare op .gpioNegedge
  | 0x31 => readBare op .gpioPosedge
  | 0x80 => readBare op .enable
  | 0x81 => readBare op .disable
  | 0x82 => readExtended op .setBreakLen
  | 0x83 => readExtended op .setMabLen
  | 0x84 => readExtended op .setBaud
  | 0x85 => readAddrData op
  | 0x86 => readAddr op
  | 0x87 => readCount op
  | 0x88 => readBare op .rxArm
  | 0x89 => readBitArg op waitOfBit
  | 0x8A => readBare op .waitCancel
  | 0x8B => readBare op .rxConsume
  | 0x8C => readBare op .abort
  | 0x8D => readByteArg op .setTn
  | 0x8E => readByteArg op .readReg
  | 0x8F => readBitArg op .snifferCtrl
  | 0x90 => readBare op .snifferPop
  | _ => .error .reservedOpcode

/-! ### The serial form (R63) -/

/-- The four bytes of a payload word, byte `4j+k` at bits `[8k+7 : 8k]` (R63). -/
def wordBytes (w : Word) : List Byte :=
  [w.extractLsb' 0 8, w.extractLsb' 8 8, w.extractLsb' 16 8, w.extractLsb' 24 8]

/-- The payload word of four bytes, the first in the low bits (R63). -/
def packWord (b0 b1 b2 b3 : Byte) : Word := b3 ++ (b2 ++ (b1 ++ b0))

/-- A payload packed four bytes a word, the unused bytes of the last word zero (R63). -/
def packWords : List Byte → List Word
  | [] => []
  | [b0] => [packWord b0 0 0 0]
  | [b0, b1] => [packWord b0 b1 0 0]
  | [b0, b1, b2] => [packWord b0 b1 b2 0]
  | b0 :: b1 :: b2 :: b3 :: rest => packWord b0 b1 b2 b3 :: packWords rest

/-- All bytes of a list of payload words, in order (R63). -/
def unpackWords : List Word → List Byte
  | [] => []
  | w :: ws => wordBytes w ++ unpackWords ws

/-- How many words follow the operation word (R63): one for format CX, `⌈n/4⌉` for format EB, else
none. -/
def wordsAfter (w : Word) : Nat :=
  match (opcOf w).toNat with
  | 0x10 => ((argByte w).toNat + 3) / 4
  | 0x11 => ((argByte w).toNat + 3) / 4
  | 0x13 => ((argByte w).toNat + 3) / 4
  | 0x82 => 1
  | 0x83 => 1
  | 0x84 => 1
  | _ => 0

/-- Whether OPC has format CX (R62). -/
def isExtended (w : Word) : Bool :=
  (opcOf w).toNat == 0x82 || (opcOf w).toNat == 0x83 || (opcOf w).toNat == 0x84

/-- The first operation of a serial stream and the words after it (R63); `none` for an empty stream.
Where the stream ends early, the operation has what was there, and the decoder refuses it. -/
def frameWords : List Word → Option (RawOp × List Word)
  | [] => none
  | w :: rest =>
    if isExtended w then some (⟨w, rest.head?, [], []⟩, rest.tail)
    else
      some (⟨w, none, (unpackWords (rest.take (wordsAfter w))).take (argByte w).toNat,
          (unpackWords (rest.take (wordsAfter w))).drop (argByte w).toNat⟩,
        rest.drop (wordsAfter w))

/-! ### The encoder -/

/-- The operation record that spells an operation (30_encoding.md R60, R62), with no padding. -/
def encode : Instr → RawOp
  | .rxData p => ⟨mkWord 0x10 (0#16 ++ BitVec.ofNat 8 p.length), none, p, []⟩
  | .rxTimeout p => ⟨mkWord 0x11 (0#16 ++ BitVec.ofNat 8 p.length), none, p, []⟩
  | .rxBreak => ⟨mkWord 0x12 0, none, [], []⟩
  | .rxFramingErr p => ⟨mkWord 0x13 (0#16 ++ BitVec.ofNat 8 p.length), none, p, []⟩
  | .rxOverflow => ⟨mkWord 0x14 0, none, [], []⟩
  | .rxClash => ⟨mkWord 0x15 0, none, [], []⟩
  | .txData space => ⟨mkWord 0x16 (0#8 ++ space), none, [], []⟩
  | .txDone => ⟨mkWord 0x17 0, none, [], []⟩
  | .timerAlarm => ⟨mkWord 0x20 0, none, [], []⟩
  | .gpioNegedge => ⟨mkWord 0x30 0, none, [], []⟩
  | .gpioPosedge => ⟨mkWord 0x31 0, none, [], []⟩
  | .enable => ⟨mkWord 0x80 0, none, [], []⟩
  | .disable => ⟨mkWord 0x81 0, none, [], []⟩
  | .setBreakLen v => ⟨mkWord 0x82 0, some v, [], []⟩
  | .setMabLen v => ⟨mkWord 0x83 0, some v, [], []⟩
  | .setBaud v => ⟨mkWord 0x84 0, some v, [], []⟩
  | .bufWrite addr data => ⟨mkWord 0x85 (addr ++ data), none, [], []⟩
  | .bufRead addr => ⟨mkWord 0x86 (addr ++ 0#8), none, [], []⟩
  | .txStart n => ⟨mkWord 0x87 (0#8 ++ n), none, [], []⟩
  | .rxArm => ⟨mkWord 0x88 0, none, [], []⟩
  | .wait c => ⟨mkWord 0x89 (0#23 ++ BitVec.ofBool (decide (c = .idle))), none, [], []⟩
  | .waitCancel => ⟨mkWord 0x8A 0, none, [], []⟩
  | .rxConsume => ⟨mkWord 0x8B 0, none, [], []⟩
  | .abort => ⟨mkWord 0x8C 0, none, [], []⟩
  | .setTn v => ⟨mkWord 0x8D (0#16 ++ v), none, [], []⟩
  | .readReg r => ⟨mkWord 0x8E (0#16 ++ r), none, [], []⟩
  | .snifferCtrl b => ⟨mkWord 0x8F (0#23 ++ BitVec.ofBool b), none, [], []⟩
  | .snifferPop => ⟨mkWord 0x90 0, none, [], []⟩

/-- The words of an operation in a serial stream (R63). -/
def encodeWords (i : Instr) : List Word :=
  (encode i).w :: ((encode i).x.toList ++ packWords (encode i).p)

/-- The one operation a list of words spells under the parameters, if it spells one and no word is
left over. -/
def spelled (c : Config) (ws : List Word) : Option Instr :=
  match frameWords ws with
  | some (op, []) =>
    match decode c op with
    | .ok i => some i
    | .error _ => none
  | _ => none

/-! ### Reading a word numbered as spec/opcode_table.json numbers it -/

/-- The longest operation: one word and 64 payload words (`n` is at most 255, R60). -/
def maxWords : Nat := 65

/-- The first `k` 32-bit words of a number, the first word in its low bits. -/
def wordsOfNat : Nat → Nat → List Word
  | 0, _ => []
  | k + 1, w => BitVec.ofNat 32 w :: wordsOfNat k (w / 2 ^ 32)

/-- The operation whose words are the low `nbits` bits of `w`, every later bit zero, as R63 frames it
out of a serial stream. -/
def rawOfTableWord (nbits w : Nat) : RawOp :=
  match frameWords (wordsOfNat maxWords (w % 2 ^ nbits)) with
  | some (op, _) => op
  | none => ⟨0, none, [], []⟩

/-- What the decoder reads from those words, under the default parameters; `none` where it refuses. -/
def decodeTableWord (nbits w : Nat) : Option Instr :=
  match decode Config.default (rawOfTableWord nbits w) with
  | .ok i => some i
  | .error _ => none

end Sys2Proof
end

