-- ==== Sys2Proof/Machine/State.lean ====
section
/-! DEFINITION. Everything the spec gives one block instance (10_state.md R16, R17), the names its
registers take, what a step can stop with, and the state after reset (70_reset_and_hazards.md R155). -/

namespace Sys2Proof.Machine

/-! ### Names the registers take -/

/-- RX_STATE (10_state.md R23). -/
inductive RxState where
  | waitBreak
  | receiving
  | postPacket
  deriving DecidableEq, Repr

/-- TIMER_MODE (10_state.md R24): which use of the one hardware timer is armed. `brk` is BREAK. -/
inductive TimerMode where
  | off
  | brk
  | mab
  | resp
  deriving DecidableEq, Repr

/-- PKT_KIND (10_state.md R27). -/
inductive PktKind where
  | none
  | dmx
  | rdm
  | rdmDiscResp
  deriving DecidableEq, Repr

/-- The one code space of error tags and command statuses (60_exceptions.md R138). `ok` is code 0,
which the spec writes `OK` as a status and `NONE` as a tag. -/
inductive ErrCode where
  | ok
  | invalidArg
  | invalidState
  | noMem
  | timeout
  | invalidCrc
  | invalidResponse
  | dataOverflow
  | improperSlot
  | dataCollision
  | packetSize
  deriving DecidableEq, Repr

/-- The UART lines, in the bit order of IRQ_EN (10_state.md R31). -/
inductive UartLine where
  | rxData
  | rxTimeout
  | rxBreak
  | rxFramingErr
  | rxOverflow
  | rxClash
  | txData
  | txDone
  deriving DecidableEq, Repr

/-- The register numbers of READ_REG (10_state.md R16), 0x00 to 0x15 in this order. -/
inductive Reg where
  | flags
  | rxState
  | head
  | txSize
  | rxSize
  | breakLen
  | mabLen
  | baud
  | lastSlotTs
  | tn
  | pktSize
  | pktKind
  | pktErr
  | timerMode
  | irqEn
  | line
  | taskWaiting
  | snifCtrl
  | snifNegTs
  | snifPosTs
  | snifBreakW
  | snifQCount
  deriving DecidableEq, Repr

/-- FLAGS (10_state.md R19), bits 0 to 6 in this order. Bit 7 is reserved and reads 0. -/
structure Flags where
  enabled : Bool
  idle : Bool
  sending : Bool
  sentLast : Bool
  inBreak : Bool
  inMab : Bool
  hasData : Bool
  deriving DecidableEq, Repr

/-- LINE (10_state.md R32): bit 0 RTS_RX (1 is receive), bit 1 TX_INVERT. -/
structure Line where
  rtsRx : Bool
  txInvert : Bool
  deriving DecidableEq, Repr

/-- One measured pair of SNIF_Q (10_state.md R17). -/
structure SnifPair where
  breakW : BitVec 32
  mabW : BitVec 32
  deriving DecidableEq, Repr

/-- The direction of the RS-485 transceiver (45_host.md R124): `transmit` is 0, `receive` is 1. -/
inductive Direction where
  | transmit
  | receive
  deriving DecidableEq, Repr

/-- The output actions (45_host.md R124). -/
inductive Action where
  | irqMask (m : BitVec 8)
  | irqClear (m : BitVec 8)
  | rxFifoReset
  | txFifoReset
  | txFifoWrite (bytes : List Byte)
  | setRts (d : Direction)
  | setTxInvert (b : Bool)
  | setBaud (v : BitVec 32)
  | timerArm (t : BitVec 32)
  | timerPause
  | wake (h : Bool) (s : BitVec 16) (k : PktKind) (e : ErrCode)
  deriving DecidableEq, Repr

/-- The response of a host command (30_encoding.md R68). -/
structure Response where
  status : ErrCode
  value : BitVec 64
  deriving DecidableEq, Repr

/-! ### The state -/

/-- One block instance. `now`, the timestamp of the operation being stepped, is `lastNow`: the step
sets LAST_NOW to it before anything else (30_encoding.md R64). -/
structure State where
  /-- The parameters, which no step changes (10_state.md R15). -/
  cfg : Config
  flags : Flags
  rxState : RxState
  /-- HEAD, a signed count of `cfg.headBits` bits; -1 means waiting for BREAK (R25). -/
  head : Int
  txSize : BitVec 16
  rxSize : BitVec 16
  breakLen : BitVec 32
  mabLen : BitVec 32
  baud : BitVec 32
  lastSlotTs : Stamp
  tn : BitVec 8
  pktSize : BitVec 16
  pktKind : PktKind
  pktErr : ErrCode
  timerMode : TimerMode
  irqEn : BitVec 8
  line : Line
  taskWaiting : Bool
  snifCtrl : Bool
  snifNegTs : Stamp
  snifPosTs : Stamp
  snifBreakW : BitVec 32
  /-- SNIF_Q, oldest first (41_sniffer.md R94). -/
  snifQ : List SnifPair
  /-- BUF: the written cells, addresses strictly rising; a cell not listed is UNWRITTEN (R40). -/
  buf : List Host.Cell
  lastNow : Stamp
  /-- Model's own: the operations delivered and not yet stepped, the next one first. -/
  input : List Arrival
  /-- Model's own: the ordered output actions of the last step (R18). -/
  outputs : List Action
  /-- Model's own: the response of the last step, if it was a host command (R18). -/
  response : Option Response
  deriving DecidableEq, Repr

/-! ### What a step can stop with -/

/-- The faults. -/
inductive Fault where
  /-- `F_UNWRITTEN(a)`, a read of a buffer cell nothing has written (60_exceptions.md R141). Raised by
  BUF_READ and TX_START, and by other readers of the buffer only in states no run reaches. Safe: real
  hardware would return some byte. -/
  | unwritten (a : Nat)
  /-- An access to an address outside 0..BUF_CAP-1, which 20_memory.md R39 says no rule makes. Raised
  by the receive and transmit paths only in states no run reaches. Safe. -/
  | noSuchCell (a : Int)
  deriving DecidableEq, Repr

/-- The refusals. -/
inductive Refusal where
  /-- Raised by `exec` for an operation the model gives no meaning. Safe. -/
  | notModelled (mnemonic : String)
  /-- Raised by the step for an operation that spells nothing (30_encoding.md R65 items 1 to 5). Safe:
  the HAL and the API cannot produce it. -/
  | illegal (e : DecodeError)
  /-- Raised by the step for an operation whose `now` is below LAST_NOW (30_encoding.md R65 item 6).
  Safe: the timestamp is monotonic. -/
  | staleNow
  deriving DecidableEq, Repr

/-! ### Reset -/

/-- The actions reset emits, in order (70_reset_and_hazards.md R155). -/
def resetOutputs : List Action :=
  [.setBaud 250000, .setRts .receive, .setTxInvert false, .rxFifoReset, .txFifoReset, .timerPause,
    .irqClear 0xFF, .irqMask 0x3F]

/-- The state after reset of a block with the given parameters (70_reset_and_hazards.md R155), with
no operation delivered yet (assumption log 2). -/
def State.resetWith (c : Config) : State where
  cfg := c
  flags := { enabled := true, idle := true, sending := false, sentLast := false, inBreak := false,
             inMab := false, hasData := false }
  rxState := .waitBreak
  head := -1
  txSize := 0
  rxSize := BitVec.ofNat 16 (min 513 c.bufCap)
  breakLen := Config.resetBreakLen
  mabLen := Config.resetMabLen
  baud := Config.resetBaud
  lastSlotTs := 0
  tn := 0
  pktSize := 0
  pktKind := .none
  pktErr := .ok
  timerMode := .off
  irqEn := 0x3F
  line := { rtsRx := true, txInvert := false }
  taskWaiting := false
  snifCtrl := false
  snifNegTs := 0
  snifPosTs := 0
  snifBreakW := 0
  snifQ := []
  buf := []
  lastNow := 0
  input := []
  outputs := resetOutputs
  response := none

/-- The machine right after reset, under the parameter values R8 assumes when none is given. -/
def State.reset : State := State.resetWith Config.default

end Sys2Proof.Machine
end

