-- ==== Sys2Proof/Machine/Operands.lean ====
section
/-! DEFINITION. The numbers the rules compute with: byte order (20_memory.md R42), checksums
(44_classifier.md R121), the two-lane code of discovery responses (R119), clamping (00_scope.md R10),
HEAD's width and sign (10_state.md R25), and the codes of the named values (R16, R23, R24, R27, R138). -/

namespace Sys2Proof.Machine

/-! ### Protocol constants (00_scope.md R9) -/

/-- RDM_SC. -/
def rdmSc : Byte := 0xCC
/-- RDM_SUB_SC. -/
def rdmSubSc : Byte := 0x01
/-- RDM_PREAMBLE. -/
def rdmPreamble : Byte := 0xFE
/-- RDM_DELIMITER. -/
def rdmDelimiter : Byte := 0xAA

/-! ### Bytes and sums -/

/-- The value of a big-endian 16-bit field (20_memory.md R42). -/
def be16 (hi lo : Byte) : BitVec 16 := hi ++ lo

/-- The arithmetic sum of a byte sequence (00_scope.md R10). -/
def byteSum : List Byte → Nat
  | [] => 0
  | b :: bs => b.toNat + byteSum bs

/-- The sum modulo 2^16 (44_classifier.md R121). -/
def sum16 (bs : List Byte) : BitVec 16 := BitVec.ofNat 16 (byteSum bs)

/-! ### The two-lane code (44_classifier.md R119) -/

/-- `d = (lo AND 0x55) OR (hi AND 0xAA)`: the first byte of a pair gives the even bit lanes. -/
def laneDecode (lo hi : Byte) : Byte := (lo &&& 0x55) ||| (hi &&& 0xAA)

/-- The encoded pair of a byte, `(b OR 0xAA, b OR 0x55)` (20_memory.md R47). -/
def laneEncode (b : Byte) : List Byte := [b ||| 0xAA, b ||| 0x55]

/-- The bytes a sequence of encoded pairs decodes to. -/
def laneDecodeAll : List Byte → List Byte
  | lo :: hi :: rest => laneDecode lo hi :: laneDecodeAll rest
  | _ => []

/-- The encoded pairs of a byte sequence. -/
def laneEncodeAll : List Byte → List Byte
  | [] => []
  | b :: bs => laneEncode b ++ laneEncodeAll bs

/-! ### Clamping and saturation -/

/-- `clamp(v, lo, hi)` of 00_scope.md R10. -/
def clamp (v lo hi : BitVec 32) : BitVec 32 := if v < lo then lo else if hi < v then hi else v

/-- `min(t - t0, 2^32 - 1)` stored in a 32-bit register (41_sniffer.md R92, R93). -/
def width32 (t t0 : Stamp) : BitVec 32 :=
  BitVec.ofInt 32 (min ((t.toNat : Int) - (t0.toNat : Int)) (2 ^ 32 - 1))

/-! ### HEAD and the buffer's bounds as numbers -/

/-- A number as HEAD holds it: a write stores it modulo 2^HEAD_BITS (00_scope.md R8, R10), and HEAD is
signed (10_state.md R25). -/
def State.toHead (s : State) (v : Int) : Int := v.bmod (2 ^ s.cfg.headBits)

/-- HEAD's two's-complement pattern, zero-extended to 64 bits (10_state.md R25, 20_memory.md R44). -/
def State.headPattern (s : State) : BitVec 64 := BitVec.ofInt 64 (s.head % 2 ^ s.cfg.headBits)

/-- HEAD as a count, 0 where it is negative. -/
def State.headNat (s : State) : Nat := s.head.toNat

/-- `clamp(HEAD, 0, BUF_CAP)`, the size a finish records (40_receive.md R76). -/
def State.clampedHead (s : State) : BitVec 16 := BitVec.ofNat 16 (min s.headNat s.cfg.bufCap)

/-- `TX_SIZE - HEAD`, the bytes still to push (42_transmit.md R99). -/
def State.txLeft (s : State) : Nat := ((s.txSize.toNat : Int) - s.head).toNat

/-! ### Codes -/

/-- The value of RX_STATE (10_state.md R23). -/
def RxState.code : RxState → BitVec 2
  | .waitBreak => 0
  | .receiving => 1
  | .postPacket => 2

/-- The value of TIMER_MODE (10_state.md R24). -/
def TimerMode.code : TimerMode → BitVec 2
  | .off => 0
  | .brk => 1
  | .mab => 2
  | .resp => 3

/-- The value of PKT_KIND (10_state.md R27). -/
def PktKind.code : PktKind → BitVec 8
  | .none => 0
  | .dmx => 1
  | .rdm => 2
  | .rdmDiscResp => 3

/-- The value of an error code (60_exceptions.md R138). -/
def ErrCode.code : ErrCode → BitVec 8
  | .ok => 0
  | .invalidArg => 1
  | .invalidState => 2
  | .noMem => 3
  | .timeout => 4
  | .invalidCrc => 5
  | .invalidResponse => 6
  | .dataOverflow => 7
  | .improperSlot => 8
  | .dataCollision => 9
  | .packetSize => 10

/-- The register a READ_REG number names (10_state.md R16); numbers 0x16 to 0xFF are reserved. -/
def regOfNumber (r : BitVec 8) : Option Reg :=
  match r.toNat with
  | 0x00 => some .flags
  | 0x01 => some .rxState
  | 0x02 => some .head
  | 0x03 => some .txSize
  | 0x04 => some .rxSize
  | 0x05 => some .breakLen
  | 0x06 => some .mabLen
  | 0x07 => some .baud
  | 0x08 => some .lastSlotTs
  | 0x09 => some .tn
  | 0x0A => some .pktSize
  | 0x0B => some .pktKind
  | 0x0C => some .pktErr
  | 0x0D => some .timerMode
  | 0x0E => some .irqEn
  | 0x0F => some .line
  | 0x10 => some .taskWaiting
  | 0x11 => some .snifCtrl
  | 0x12 => some .snifNegTs
  | 0x13 => some .snifPosTs
  | 0x14 => some .snifBreakW
  | 0x15 => some .snifQCount
  | _ => none

end Sys2Proof.Machine
end

