-- ==== Sys2Proof/Machine/Flags.lean ====
section
/-! DEFINITION. The flag, line and mask registers as bit patterns (10_state.md R19, R31, R32), the
predicates the rules read of them (R21, 41_sniffer.md R91, 60_exceptions.md R143), and the flag
changes that several rules share. -/

namespace Sys2Proof.Machine

/-- FLAGS as READ_REG returns it: `ENABLED` is bit 0, `HAS_DATA` bit 6, bit 7 reads 0 (R19). -/
def Flags.bits (f : Flags) : BitVec 8 :=
  0#1 ++ (BitVec.ofBool f.hasData ++ (BitVec.ofBool f.inMab ++ (BitVec.ofBool f.inBreak ++
    (BitVec.ofBool f.sentLast ++ (BitVec.ofBool f.sending ++ (BitVec.ofBool f.idle ++
      BitVec.ofBool f.enabled))))))

/-- LINE as READ_REG returns it: `RTS_RX + 2·TX_INVERT` (R32, 45_host.md R135). -/
def Line.bits (l : Line) : BitVec 2 := BitVec.ofBool l.txInvert ++ BitVec.ofBool l.rtsRx

/-- The IRQ_EN bit of a UART line (10_state.md R31). -/
def UartLine.bit : UartLine → Nat
  | .rxData => 0
  | .rxTimeout => 1
  | .rxBreak => 2
  | .rxFramingErr => 3
  | .rxOverflow => 4
  | .rxClash => 5
  | .txData => 6
  | .txDone => 7

/-- RX_ALL, the six receive lines (10_state.md R31). -/
def rxAll : BitVec 8 := 0x3F

/-- TX_ALL, the two transmit lines (10_state.md R31). -/
def txAll : BitVec 8 := 0xC0

/-- Whether a UART line is enabled in IRQ_EN (60_exceptions.md R143). -/
def State.lineOn (s : State) (l : UartLine) : Bool := s.irqEn.getLsbD l.bit

/-- AWAITING_RESPONSE (10_state.md R21). -/
def State.awaiting (s : State) : Bool := s.flags.sending && s.flags.sentLast && s.line.rtsRx

/-- The block drives the bus: `FLAGS.SENDING = 1` and `LINE.RTS_RX = 0` (10_state.md R36). -/
def State.driving (s : State) : Bool := s.flags.sending && !s.line.rtsRx

/-- The edge is ignored (41_sniffer.md R91). -/
def State.edgeIgnored (s : State) : Bool :=
  !s.cfg.snifferPresent || !s.snifCtrl || !s.line.rtsRx

/-- `SENDING <- 0; SENT_LAST <- 0; IDLE <- 1`: the end of a transmission or transaction
(40_receive.md R75, 42_transmit.md R102, R104, R105). -/
def Flags.endTx (f : Flags) : Flags := { f with sending := false, sentLast := false, idle := true }

/-- `IN_BREAK <- b; IN_MAB <- m`. -/
def Flags.setBreakMab (f : Flags) (b m : Bool) : Flags := { f with inBreak := b, inMab := m }

/-- `HAS_DATA <- b`. -/
def Flags.setHasData (f : Flags) (b : Bool) : Flags := { f with hasData := b }

/-- The flags `TX_START` writes (42_transmit.md R101). -/
def Flags.startTx (f : Flags) : Flags :=
  { f with sending := true, idle := false, sentLast := true, hasData := false, inBreak := true,
           inMab := false }

end Sys2Proof.Machine
end

