-- ==== Sys2Proof/Machine/Ops.lean ====
section
/-! DEFINITION. The named operations every meaning is built from: the frame buffer (20_memory.md R39,
R40), output actions and responses (45_host.md R124, 30_encoding.md R68), the register writes that
come with an action, and taking an operation (30_encoding.md R64, 60_exceptions.md R145). The block
has no trap: taking an event saves nothing and enters no handler, and there is nothing to return from
(R145, R146). -/

namespace Sys2Proof.Machine

/-! ### The frame buffer

A list of written cells, addresses strictly rising. A cell that is not listed is UNWRITTEN, so no
listed entry can equal what an unlisted address reads as. -/

/-- The byte cell `a` holds, or `none` where it is UNWRITTEN. -/
def cellAt : List Host.Cell → Nat → Option Byte
  | [], _ => none
  | (k, v) :: rest, a => if k = a then some v else cellAt rest a

/-- The buffer after `v` is written to cell `a`. -/
def putCell : List Host.Cell → Nat → Byte → List Host.Cell
  | [], a, v => [(a, v)]
  | (k, w) :: rest, a, v =>
    if a < k then (a, v) :: (k, w) :: rest
    else if a = k then (a, v) :: rest
    else (k, w) :: putCell rest a v

/-- The addresses are strictly rising and each is at least `lo` and below `hi`. -/
def risingFrom (lo hi : Nat) : List Host.Cell → Bool
  | [] => true
  | (k, _) :: rest => decide (lo ≤ k) && decide (k < hi) && risingFrom (k + 1) hi rest

/-- The canonical form of a buffer of `cap` cells. -/
def Memory.wf (cap : Nat) (m : List Host.Cell) : Bool := risingFrom 0 cap m

/-- `MemRead(a, 1)` (20_memory.md R39, R40). -/
def memRead (s : State) (a : Nat) : Except Fault Byte :=
  if a < s.cfg.bufCap then
    match cellAt s.buf a with
    | some b => .ok b
    | none => .error (.unwritten a)
  else .error (.noSuchCell a)

/-- `buf[a], …, buf[a+k-1]`, read in order (00_scope.md R11). -/
def memReadMany (s : State) : Nat → Nat → Except Fault (List Byte)
  | _, 0 => .ok []
  | a, k + 1 =>
    match memRead s a with
    | .error f => .error f
    | .ok b =>
      match memReadMany s (a + 1) k with
      | .error f => .error f
      | .ok bs => .ok (b :: bs)

/-- `MemWrite(a, 1, v)` for an address the caller has checked (20_memory.md R39). -/
def State.store (s : State) (a : Nat) (v : Byte) : State := { s with buf := putCell s.buf a v }

/-! ### Output actions and responses -/

/-- `emit A` (00_scope.md R11). -/
def State.emit (s : State) (a : Action) : State := { s with outputs := s.outputs ++ [a] }

/-- A command's response (30_encoding.md R68). -/
def State.respond (s : State) (st : ErrCode) (v : BitVec 64) : State :=
  { s with response := some { status := st, value := v } }

/-- `return (OK, v)`. -/
def returnOk (s : State) (v : BitVec 64) : Host.Outcome State Fault Refusal := .next (s.respond .ok v)

/-- `raise S`: the status, value 0, and no other change (00_scope.md R11, 30_encoding.md R68). -/
def raise (s : State) (st : ErrCode) : Host.Outcome State Fault Refusal := .next (s.respond st 0)

/-- The outcome of a computation that may fault. -/
def outcomeOf : Except Fault State → Host.Outcome State Fault Refusal
  | .ok s => .next s
  | .error f => .fault f

/-! ### Register writes and the actions that come with them -/

/-- `FLAGS <- f`. -/
def State.setFlags (s : State) (f : Flags) : State := { s with flags := f }

/-- `HEAD <- h; RX_STATE <- r`, for an `h` HEAD can hold: 0, -1 or HEAD itself. -/
def State.setRx (s : State) (h : Int) (r : RxState) : State :=
  { s with head := h, rxState := r }

/-- `HEAD <- h`, as HEAD holds it. -/
def State.setHead (s : State) (h : Int) : State := { s with head := s.toHead h }

/-- `PKT_SIZE <- n; PKT_KIND <- k; PKT_ERR <- e`. -/
def State.setPkt (s : State) (n : BitVec 16) (k : PktKind) (e : ErrCode) : State :=
  { s with pktSize := n, pktKind := k, pktErr := e }

/-- `IRQ_EN <- m; emit IrqMask(m)`. -/
def State.setIrq (s : State) (m : BitVec 8) : State := State.emit { s with irqEn := m } (.irqMask m)

/-- `LINE.RTS_RX <- 1; emit SetRts(RECEIVE)` or `LINE.RTS_RX <- 0; emit SetRts(TRANSMIT)`. -/
def State.setRts (s : State) (d : Direction) : State :=
  State.emit { s with line := { s.line with rtsRx := decide (d = .receive) } } (.setRts d)

/-- `LINE.TX_INVERT <- b; emit SetTxInvert(b)`. -/
def State.setInvert (s : State) (b : Bool) : State :=
  State.emit { s with line := { s.line with txInvert := b } } (.setTxInvert b)

/-- `TIMER_MODE <- m; emit TimerArm(t)`. -/
def State.armTimer (s : State) (m : TimerMode) (t : BitVec 32) : State :=
  State.emit { s with timerMode := m } (.timerArm t)

/-- `TIMER_MODE <- OFF; emit TimerPause`. -/
def State.stopTimer (s : State) : State := State.emit { s with timerMode := .off } .timerPause

/-- `LAST_SLOT_TS <- now`. -/
def State.stampSlot (s : State) : State := { s with lastSlotTs := s.lastNow }

/-- `TASK_WAITING <- b`. -/
def State.setWaiting (s : State) (b : Bool) : State := { s with taskWaiting := b }

/-- The bus turned to receive with reception unmasked: `RTS_RX <- 1`, `RxFifoReset`,
`IrqClear(RX_ALL)`, `IRQ_EN <- IRQ_EN OR RX_ALL` (42_transmit.md R104, 45_host.md R130). -/
def State.turnToReceive (s : State) : State :=
  (((s.setRts .receive).emit .rxFifoReset).emit (.irqClear rxAll)).setIrq (s.irqEn ||| rxAll)

/-! ### Procedures that several rules share -/

/-- `CancelResp()` (40_receive.md R73). -/
def State.cancelResp (s : State) : State := if s.timerMode = .resp then s.stopTimer else s

/-- `WakeIf(h, s, k, e)` (40_receive.md R74). -/
def State.wakeIf (s : State) (h : Bool) (n : BitVec 16) (k : PktKind) (e : ErrCode) : State :=
  if s.taskWaiting then (s.setWaiting false).emit (.wake h n k e) else s

/-- `EndTransaction()` (40_receive.md R75). -/
def State.endTransaction (s : State) : State :=
  if s.awaiting then (s.setFlags s.flags.endTx).cancelResp else s

/-- `Finish(k, e)` (40_receive.md R76). -/
def State.finish (s : State) (k : PktKind) (e : ErrCode) : State :=
  let t := ((s.setPkt s.clampedHead k e).setFlags (s.flags.setHasData true)).setRx s.head .postPacket
  t.endTransaction.wakeIf true s.clampedHead k e

/-! ### Taking an operation -/

/-- The state an operation's rule starts in: `LAST_NOW <- now` before anything else, the operation
taken off the input, and nothing emitted or returned yet (30_encoding.md R64, 60_exceptions.md
R145). -/
def State.take (s : State) (now : Stamp) (rest : List Arrival) : State :=
  { s with lastNow := now, input := rest, outputs := [], response := none }

/-- The block waiting for its next operation: nothing is emitted or returned and no register changes
(70_reset_and_hazards.md R156; assumption log 3). -/
def State.waitForInput (s : State) : State := { s with outputs := [], response := none }

end Sys2Proof.Machine
end

