-- ==== Sys2Proof/Machine/HostCommands.lean ====
section
/-! DEFINITION. The host commands of 45_host.md (R126 to R135). -/

namespace Sys2Proof.Machine

/-- `ENABLE` on a disabled port (R126). -/
def State.enablePort (s : State) : State :=
  let t := s.setFlags ({ s.flags with enabled := true }.setHasData false)
  let u := if s.driving then t else t.setRx (-1) .waitBreak
  if s.line.rtsRx then (u.emit (.irqClear rxAll)).setIrq (s.irqEn ||| rxAll) else u

/-- `ENABLE` (R126). -/
def execEnable (s : State) : Host.Outcome State Fault Refusal :=
  if s.flags.enabled then returnOk s 0 else returnOk s.enablePort 0

/-- `DISABLE` (R127). -/
def execDisable (s : State) : Host.Outcome State Fault Refusal :=
  if s.flags.enabled then
    let t := (s.setFlags { s.flags with enabled := false }).setIrq (s.irqEn &&& ~~~ rxAll)
    returnOk (t.wakeIf false 0 .none .ok) 0
  else returnOk s 0

/-- `BUF_WRITE addr, data` (R128). -/
def execBufWrite (addr : BitVec 16) (data : Byte) (s : State) : Host.Outcome State Fault Refusal :=
  if s.cfg.bufCap ≤ addr.toNat then raise s .invalidArg
  else if s.flags.sending then raise s .invalidState
  else returnOk (s.store addr.toNat data) 0

/-- `BUF_READ addr` (R129). -/
def execBufRead (addr : BitVec 16) (s : State) : Host.Outcome State Fault Refusal :=
  if s.cfg.bufCap ≤ addr.toNat then raise s .invalidArg
  else
    match memRead s addr.toNat with
    | .error f => .fault f
    | .ok b => returnOk s (b.zeroExtend 64)

/-- `RX_ARM` (R130). -/
def execRxArm (s : State) : Host.Outcome State Fault Refusal :=
  if s.flags.enabled = false ∨ s.flags.sending = true then raise s .invalidState
  else if s.line.rtsRx then returnOk s 0
  else
    returnOk ((s.turnToReceive.setRx (-1) .waitBreak).setFlags (s.flags.setHasData false)) 0

/-- `WAIT c` (R131). -/
def execWait (c : WaitCond) (s : State) : Host.Outcome State Fault Refusal :=
  let t := s.setWaiting true
  match c with
  | .rx =>
    if s.flags.hasData then returnOk (t.wakeIf true s.pktSize s.pktKind s.pktErr) 0 else returnOk t 0
  | .idle => if s.flags.idle then returnOk (t.wakeIf false 0 .none .ok) 0 else returnOk t 0

/-- `WAIT_CANCEL` (R132). -/
def execWaitCancel (s : State) : Host.Outcome State Fault Refusal := returnOk (s.setWaiting false) 0

/-- The packet record: `HAS_DATA * 2^32 + PKT_ERR * 2^24 + PKT_KIND * 2^16 + PKT_SIZE` (R133). -/
def State.packetRecord (s : State) : BitVec 64 :=
  0#31 ++ (BitVec.ofBool s.flags.hasData ++ (s.pktErr.code ++ (s.pktKind.code ++ s.pktSize)))

/-- `RX_CONSUME` (R133). -/
def execRxConsume (s : State) : Host.Outcome State Fault Refusal :=
  returnOk (s.setFlags (s.flags.setHasData false)) s.packetRecord

/-- `SET_TN v` (R134). -/
def execSetTn (v : Byte) (s : State) : Host.Outcome State Fault Refusal :=
  returnOk { s with tn := v } 0

/-- A register's bit pattern, zero-extended to 64 bits (R135, 20_memory.md R44). -/
def State.regValue (s : State) : Reg → BitVec 64
  | .flags => s.flags.bits.zeroExtend 64
  | .rxState => s.rxState.code.zeroExtend 64
  | .head => s.headPattern
  | .txSize => s.txSize.zeroExtend 64
  | .rxSize => s.rxSize.zeroExtend 64
  | .breakLen => s.breakLen.zeroExtend 64
  | .mabLen => s.mabLen.zeroExtend 64
  | .baud => s.baud.zeroExtend 64
  | .lastSlotTs => s.lastSlotTs
  | .tn => s.tn.zeroExtend 64
  | .pktSize => s.pktSize.zeroExtend 64
  | .pktKind => s.pktKind.code.zeroExtend 64
  | .pktErr => s.pktErr.code.zeroExtend 64
  | .timerMode => s.timerMode.code.zeroExtend 64
  | .irqEn => s.irqEn.zeroExtend 64
  | .line => s.line.bits.zeroExtend 64
  | .taskWaiting => (BitVec.ofBool s.taskWaiting).zeroExtend 64
  | .snifCtrl => (BitVec.ofBool s.snifCtrl).zeroExtend 64
  | .snifNegTs => s.snifNegTs
  | .snifPosTs => s.snifPosTs
  | .snifBreakW => s.snifBreakW.zeroExtend 64
  | .snifQCount => (BitVec.ofNat 8 s.snifQ.length).zeroExtend 64

/-- `READ_REG r` (R135). -/
def execReadReg (r : Byte) (s : State) : Host.Outcome State Fault Refusal :=
  match regOfNumber r with
  | none => raise s .invalidArg
  | some reg => returnOk s (s.regValue reg)

end Sys2Proof.Machine
end

