-- ==== Sys2Proof/Machine/Classifier.lean ====
section
/-! DEFINITION. The RDM packet classifier (44_classifier.md R115 to R122) and the kind recogniser of
error finishes (40_receive.md R77). Both read the buffer and write nothing. -/

namespace Sys2Proof.Machine

/-- What the classifier answers (44_classifier.md R115). -/
inductive Verdict where
  | pending
  | complete (k : PktKind) (e : ErrCode)
  deriving DecidableEq, Repr

/-- The header length, the least RDM message length (44_classifier.md R117). -/
def rdmHeaderLen : Nat := 24

/-- Whether a checksum that should match does. -/
def checked (k : PktKind) (s cs : BitVec 16) : Verdict :=
  .complete k (if s = cs then .ok else .invalidCrc)

/-- `ClassifyDmx(h)` (R115, R120). -/
def classifyDmx (s : State) (h : Nat) : Verdict :=
  if h = s.rxSize.toNat then .complete .dmx .ok else .pending

/-- `ClassifyRdm(h)` (R115, R117). -/
def classifyRdm (s : State) (h : Nat) : Except Fault Verdict :=
  if h < 3 then .ok .pending
  else
    match memRead s 2 with
    | .error f => .error f
    | .ok len =>
      if len.toNat < rdmHeaderLen then .ok (.complete .rdm .packetSize)
      else if h < len.toNat + 2 then .ok .pending
      else
        match memReadMany s 0 len.toNat, memRead s len.toNat, memRead s (len.toNat + 1) with
        | .ok body, .ok hi, .ok lo => .ok (checked .rdm (sum16 body) (be16 hi lo))
        | .error f, _, _ => .error f
        | .ok _, .error f, _ => .error f
        | .ok _, .ok _, .error f => .error f

/-- The number of preamble bytes at the head of a sequence (R118). -/
def preambleLen : List Byte → Nat
  | [] => 0
  | b :: bs => if b = rdmPreamble then preambleLen bs + 1 else 0

/-- The checksum check over the 16 encoded bytes: the sum of the 12 bytes that encode the UID against
the decoded checksum, high byte first (R115, R118). -/
def checkDisc (e : List Byte) : Verdict :=
  checked .rdmDiscResp (sum16 (e.take 12))
    (be16 ((laneDecodeAll e).getD 6 0) ((laneDecodeAll e).getD 7 0))

/-- `ClassifyDisc(h)` (R115, R118). -/
def classifyDisc (s : State) (h : Nat) : Except Fault Verdict :=
  match memReadMany s 0 (min h 8) with
  | .error f => .error f
  | .ok bs =>
    match bs[preambleLen bs]? with
    | none => if h ≥ 8 then .ok (.complete .rdmDiscResp .invalidResponse) else .ok .pending
    | some d =>
      if d ≠ rdmDelimiter then .ok (.complete .rdmDiscResp .invalidResponse)
      else if h < preambleLen bs + 17 then .ok .pending
      else
        match memReadMany s (preambleLen bs + 1) 16 with
        | .error f => .error f
        | .ok e => .ok (checkDisc e)

/-- `Classify()` (R115, R116), called with HEAD at least 1. -/
def classify (s : State) : Except Fault Verdict :=
  match memRead s 0 with
  | .error f => .error f
  | .ok b0 =>
    if b0 = rdmSc then
      if s.headNat < 2 then .ok .pending
      else
        match memRead s 1 with
        | .error f => .error f
        | .ok b1 => if b1 = rdmSubSc then classifyRdm s s.headNat else .ok (classifyDmx s s.headNat)
    else if b0 = rdmPreamble ∨ b0 = rdmDelimiter then classifyDisc s s.headNat
    else .ok (classifyDmx s s.headNat)

/-- The kind the first byte decides where the RDM pair is not there (40_receive.md R77). -/
def kindOfFirst (b0 : Byte) : PktKind :=
  if b0 = rdmPreamble ∨ b0 = rdmDelimiter then .rdmDiscResp else .dmx

/-- `KindOf()` (40_receive.md R77). -/
def kindOf (s : State) : Except Fault PktKind :=
  if s.head < 1 then .ok .none
  else
    match memRead s 0 with
    | .error f => .error f
    | .ok b0 =>
      if b0 = rdmSc then
        if s.head < 2 then .ok .rdm
        else
          match memRead s 1 with
          | .error f => .error f
          | .ok b1 => if b1 = rdmSubSc then .ok .rdm else .ok (kindOfFirst b0)
      else .ok (kindOfFirst b0)

end Sys2Proof.Machine
end

