-- ==== Sys2Proof/Machine/Receive.lean ====
section
/-! DEFINITION. The receive path: one byte (40_receive.md R78), one drain (R79), and the six RX lines
(R80 to R86). -/

namespace Sys2Proof.Machine

/-! ### Shared procedures -/

/-- `if HEAD < BUF_CAP then MemWrite(HEAD, 1, b); HEAD <- min(HEAD + 1, HEAD_MAX)` for HEAD at least
0 (R78). -/
def State.takeByte (s : State) (b : Byte) : State :=
  (if s.headNat < s.cfg.bufCap then s.store s.headNat b else s).setHead
    (min (s.headNat + 1) s.cfg.headMax : Nat)

/-- The classification of a byte just stored in RECEIVING (R78): pending, or the packet's finish. -/
def settleByte (s : State) : Except Fault State :=
  match classify s with
  | .error f => .error f
  | .ok .pending => .ok s
  | .ok (.complete k e) => .ok (s.finish k e)

/-- `RxByte(b)` (R78). A negative HEAD outside WAIT_BREAK, which R36 item 7 rules out, addresses no
cell. -/
def rxByte (s : State) (b : Byte) : Except Fault State :=
  match s.rxState with
  | .waitBreak => .ok s
  | .receiving =>
    if s.head < 0 then .error (.noSuchCell s.head) else settleByte (s.takeByte b).cancelResp
  | .postPacket =>
    if s.head < 0 then .error (.noSuchCell s.head) else .ok (s.takeByte b)

/-- The bytes of a drain, one after another (R79). -/
def rxBytes (s : State) : List Byte → Except Fault State
  | [] => .ok s
  | b :: bs =>
    match rxByte s b with
    | .error f => .error f
    | .ok t => rxBytes t bs

/-- `Drain(P)` (R79). -/
def drain (s : State) (p : List Byte) : Except Fault State :=
  rxBytes (s.stampSlot.setFlags (s.flags.setBreakMab false false)) p

/-- `if RX_STATE = RECEIVING then Finish(KindOf(), e)` (R84, R85, R86). -/
def finishIfReceiving (s : State) (e : ErrCode) : Except Fault State :=
  if s.rxState = .receiving then
    match kindOf s with
    | .error f => .error f
    | .ok k => .ok (s.finish k e)
  else .ok s

/-! ### The RX operations -/

/-- `RX_DATA` (R80). -/
def execRxData (p : List Byte) (s : State) : Host.Outcome State Fault Refusal :=
  if s.lineOn .rxData then outcomeOf (drain s p) else .next s

/-- `RX_TIMEOUT` (R81). -/
def execRxTimeout (p : List Byte) (s : State) : Host.Outcome State Fault Refusal :=
  if s.lineOn .rxTimeout then outcomeOf (drain s p) else .next s

/-- The rolling estimate `RX_BREAK` learns (R82, R83). -/
def State.learnRxSize (s : State) : State :=
  if 1 ≤ s.head ∧ s.pktErr = .ok then { s with rxSize := s.clampedHead } else s

/-- `RX_BREAK` (R82). -/
def execRxBreak (s : State) : Host.Outcome State Fault Refusal :=
  if s.lineOn .rxBreak then
    let t := s.learnRxSize.setFlags ((s.flags.setBreakMab true false).setHasData false)
    .next ((t.setPkt 0 .none .ok).setRx 0 .receiving).cancelResp
  else .next s

/-- `RX_FRAMING_ERR` (R84). With no good byte the drain is skipped. -/
def execRxFramingErr (p : List Byte) (s : State) : Host.Outcome State Fault Refusal :=
  if s.lineOn .rxFramingErr then
    match (if p = [] then .ok s else drain s p) with
    | .error f => .fault f
    | .ok t => outcomeOf (finishIfReceiving (t.emit .rxFifoReset) .improperSlot)
  else .next s

/-- `RX_OVERFLOW` (R85). -/
def execRxOverflow (s : State) : Host.Outcome State Fault Refusal :=
  if s.lineOn .rxOverflow then outcomeOf (finishIfReceiving (s.emit .rxFifoReset) .dataOverflow)
  else .next s

/-- `RX_CLASH` (R86). -/
def execRxClash (s : State) : Host.Outcome State Fault Refusal :=
  if s.lineOn .rxClash then outcomeOf (finishIfReceiving s .dataCollision) else .next s

end Sys2Proof.Machine
end

