-- ==== Sys2Proof/Machine/Sniffer.lean ====
section
/-! DEFINITION. The BREAK/MAB edge-width unit (41_sniffer.md R91 to R96). -/

namespace Sys2Proof.Machine

/-- Appending to SNIF_Q, which first drops the oldest pair of a full queue (R93, R94). -/
def appendPair (depth : Nat) (q : List SnifPair) (p : SnifPair) : List SnifPair :=
  (if q.length = depth then q.tail else q) ++ [p]

/-- `GPIO_POSEDGE` (R92). -/
def execGpioPosedge (s : State) : Host.Outcome State Fault Refusal :=
  if s.edgeIgnored then .next s
  else if s.flags.inBreak then
    .next { s with
      snifBreakW := width32 s.lastNow s.snifNegTs
      flags := s.flags.setBreakMab false true
      snifPosTs := s.lastNow }
  else .next { s with snifPosTs := s.lastNow }

/-- `GPIO_NEGEDGE` (R93). -/
def execGpioNegedge (s : State) : Host.Outcome State Fault Refusal :=
  if s.edgeIgnored then .next s
  else if s.flags.inMab then
    .next { s with
      snifQ := appendPair s.cfg.snifQDepth s.snifQ
        { breakW := s.snifBreakW, mabW := width32 s.lastNow s.snifPosTs }
      flags := { s.flags with inMab := false }
      snifNegTs := s.lastNow }
  else .next { s with snifNegTs := s.lastNow }

/-- `SNIFFER_CTRL b` (R95). -/
def execSnifferCtrl (b : Bool) (s : State) : Host.Outcome State Fault Refusal :=
  if s.cfg.snifferPresent then returnOk { s with snifCtrl := b } 0 else raise s .invalidState

/-- `SNIFFER_POP` (R96): the value is `bw * 2^32 + mw`. -/
def execSnifferPop (s : State) : Host.Outcome State Fault Refusal :=
  if s.cfg.snifferPresent then
    match s.snifQ with
    | [] => raise s .timeout
    | p :: rest => returnOk { s with snifQ := rest } (p.breakW ++ p.mabW)
  else raise s .invalidState

end Sys2Proof.Machine
end

