-- ==== Sys2Proof/Machine/Timing.lean ====
section
/-! DEFINITION. The timing setters and their windows (43_timing_windows.md R108 to R112). -/

namespace Sys2Proof.Machine

/-- `SET_BREAK_LEN v` (R109). -/
def execSetBreakLen (v : BitVec 32) (s : State) : Host.Outcome State Fault Refusal :=
  let a := clamp v s.cfg.breakMin s.cfg.breakMax
  returnOk { s with breakLen := a } (a.zeroExtend 64)

/-- `SET_MAB_LEN v` (R110). -/
def execSetMabLen (v : BitVec 32) (s : State) : Host.Outcome State Fault Refusal :=
  let a := clamp v s.cfg.mabMin s.cfg.mabMax
  returnOk { s with mabLen := a } (a.zeroExtend 64)

/-- `SET_BAUD v` (R111). -/
def execSetBaud (v : BitVec 32) (s : State) : Host.Outcome State Fault Refusal :=
  let a := clamp v s.cfg.baudMin s.cfg.baudMax
  returnOk (State.emit { s with baud := a } (.setBaud a)) (a.zeroExtend 64)

end Sys2Proof.Machine
end

