-- ==== Sys2Proof/Machine/Transmit.lean ====
section
/-! DEFINITION. The transmit path and the timing arbiter (42_transmit.md R99 to R105). -/

namespace Sys2Proof.Machine

/-! ### Shared procedures -/

/-- `Push(k)` (R99). A negative HEAD addresses no cell. -/
def push (s : State) (k : Nat) : Except Fault State :=
  if s.head < 0 then .error (.noSuchCell s.head)
  else
    match memReadMany s s.headNat k with
    | .error f => .error f
    | .ok bs => .ok ((s.emit (.txFifoWrite bs)).setHead (s.head + k))

/-- `(resp, dub)` of an RDM packet from its device field (cells 5 to 8) and its command class and PID
(cells 20 to 22) (R100). -/
def expectsOf (c : Config) (device classPid : List Byte) : Bool × Bool :=
  if classPid.getD 0 0 = c.ccDisc then
    (true, decide (be16 (classPid.getD 1 0) (classPid.getD 2 0) = c.pidDub))
  else if (classPid.getD 0 0 = c.ccGet ∨ classPid.getD 0 0 = c.ccSet) ∧
      device ≠ [0xFF, 0xFF, 0xFF, 0xFF] then (true, false)
  else (false, false)

/-- `ExpectsResponse()` (R100). -/
def expectsResponse (s : State) : Except Fault (Bool × Bool) :=
  if s.txSize.toNat < 24 then .ok (false, false)
  else
    match memReadMany s 0 2 with
    | .error f => .error f
    | .ok start =>
      if start ≠ [rdmSc, rdmSubSc] then .ok (false, false)
      else
        match memReadMany s 5 4, memReadMany s 20 3 with
        | .ok device, .ok classPid => .ok (expectsOf s.cfg device classPid)
        | .error f, _ => .error f
        | .ok _, .error f => .error f

/-- The turnaround of `TX_DONE` (R104), once the transmit lines are masked. -/
def State.turnaround (s : State) (dub : Bool) : State :=
  let t := s.turnToReceive
  let u := if dub then t.setRx 0 .receiving else t.setRx (-1) .waitBreak
  (u.setFlags (u.flags.setHasData false)).armTimer .resp s.cfg.respTimeout

/-- The end of a transmission that expects no reply (R104). -/
def State.transmissionOver (s : State) : State :=
  ((s.setFlags s.flags.endTx).setRx (-1) .waitBreak).wakeIf false s.txSize .none .ok

/-- The response timeout of an awaited transaction (R102, case RESP), once the timer is stopped. -/
def State.responseTimedOut (s : State) : State :=
  let t := (s.setPkt 0 .none .timeout).setFlags (s.flags.endTx.setHasData false)
  (t.setRx (-1) .waitBreak).wakeIf false 0 .none .timeout

/-! ### Operations -/

/-- What `TX_START` does once its checks have passed (R101). -/
def State.startTx (s : State) (n : BitVec 16) : State :=
  let t := ({ s with txSize := n }.setRx 0 .waitBreak).setFlags s.flags.startTx
  let u := ((t.emit (.irqClear 0xFF)).setIrq 0).setRts .transmit
  ((u.emit .txFifoReset).setInvert true).armTimer .brk s.breakLen

/-- `TX_START n` (R101, checks in the order of 60_exceptions.md R140). -/
def execTxStart (n : BitVec 16) (s : State) : Host.Outcome State Fault Refusal :=
  if s.flags.enabled = false ∨ s.flags.sending = true then raise s .invalidState
  else if n.toNat < 1 ∨ s.cfg.bufCap < n.toNat then raise s .invalidArg
  else
    match memReadMany s 0 n.toNat with
    | .error f => .fault f
    | .ok _ => returnOk (s.startTx n) 0

/-- The end of the BREAK (R102, case BREAK). -/
def State.endBreak (s : State) : State :=
  ((s.setInvert false).setFlags (s.flags.setBreakMab false true)).armTimer .mab s.mabLen

/-- The end of the MAB (R102, case MAB), once the first bytes are pushed. -/
def State.endMab (s : State) : State :=
  (s.stopTimer.emit (.irqClear txAll)).setIrq (s.irqEn ||| txAll)

/-- `TIMER_ALARM` (R102). -/
def execTimerAlarm (s : State) : Host.Outcome State Fault Refusal :=
  match s.timerMode with
  | .off => .next s
  | .brk => .next s.endBreak
  | .mab =>
    match push (s.setFlags { s.flags with inMab := false }) (min s.cfg.txFifoCap s.txLeft) with
    | .error f => .fault f
    | .ok t => .next t.endMab
  | .resp =>
    if s.awaiting then .next s.stopTimer.responseTimedOut else .next s.stopTimer

/-- `if HEAD = TX_SIZE then IRQ_EN <- IRQ_EN AND NOT 0x40; emit IrqMask(IRQ_EN)` (R103). -/
def State.maskTxDataIfDone (s : State) : State :=
  if s.head = s.txSize.toNat then s.setIrq (s.irqEn &&& ~~~ (0x40#8)) else s

/-- `TX_DATA space` (R103). -/
def execTxData (space : BitVec 16) (s : State) : Host.Outcome State Fault Refusal :=
  if s.lineOn .txData then
    if 0 < min space.toNat s.txLeft then
      match push s (min space.toNat s.txLeft) with
      | .error f => .fault f
      | .ok t => .next t.maskTxDataIfDone
    else .next s.maskTxDataIfDone
  else .next s

/-- `TX_DONE` (R104). -/
def execTxDone (s : State) : Host.Outcome State Fault Refusal :=
  if s.lineOn .txDone then
    if s.head < s.txSize.toNat then .next s
    else
      match expectsResponse s with
      | .error f => .fault f
      | .ok (resp, dub) =>
        let t := s.stampSlot.setIrq (s.irqEn &&& ~~~ txAll)
        if resp && s.flags.enabled then .next (t.turnaround dub) else .next t.transmissionOver
  else .next s

/-- `ABORT` (R105). -/
def execAbort (s : State) : Host.Outcome State Fault Refusal :=
  if s.awaiting then returnOk (s.setFlags s.flags.endTx).cancelResp 0 else raise s .invalidState

end Sys2Proof.Machine
end

