-- ==== Sys2Proof/Machine/Dispatch.lean ====
section
/-! DEFINITION. The meaning of each operation of spec/opcode_table.json, one arm each. -/

namespace Sys2Proof.Machine

def exec (i : Instr) (s : State) : Host.Outcome State Fault Refusal :=
  match i with
  | .rxData p => Sys2Proof.Machine.execRxData p s
  | .rxTimeout p => Sys2Proof.Machine.execRxTimeout p s
  | .rxBreak => Sys2Proof.Machine.execRxBreak s
  | .rxFramingErr p => Sys2Proof.Machine.execRxFramingErr p s
  | .rxOverflow => Sys2Proof.Machine.execRxOverflow s
  | .rxClash => Sys2Proof.Machine.execRxClash s
  | .txData space => Sys2Proof.Machine.execTxData space s
  | .txDone => Sys2Proof.Machine.execTxDone s
  | .timerAlarm => Sys2Proof.Machine.execTimerAlarm s
  | .gpioNegedge => Sys2Proof.Machine.execGpioNegedge s
  | .gpioPosedge => Sys2Proof.Machine.execGpioPosedge s
  | .enable => Sys2Proof.Machine.execEnable s
  | .disable => Sys2Proof.Machine.execDisable s
  | .setBreakLen v => Sys2Proof.Machine.execSetBreakLen v s
  | .setMabLen v => Sys2Proof.Machine.execSetMabLen v s
  | .setBaud v => Sys2Proof.Machine.execSetBaud v s
  | .bufWrite addr data => Sys2Proof.Machine.execBufWrite addr data s
  | .bufRead addr => Sys2Proof.Machine.execBufRead addr s
  | .txStart n => Sys2Proof.Machine.execTxStart n s
  | .rxArm => Sys2Proof.Machine.execRxArm s
  | .wait c => Sys2Proof.Machine.execWait c s
  | .waitCancel => Sys2Proof.Machine.execWaitCancel s
  | .rxConsume => Sys2Proof.Machine.execRxConsume s
  | .abort => Sys2Proof.Machine.execAbort s
  | .setTn v => Sys2Proof.Machine.execSetTn v s
  | .readReg r => Sys2Proof.Machine.execReadReg r s
  | .snifferCtrl b => Sys2Proof.Machine.execSnifferCtrl b s
  | .snifferPop => Sys2Proof.Machine.execSnifferPop s

end Sys2Proof.Machine
end

