-- ==== Sys2Proof/Machine/Step.lean ====
section
/-! DEFINITION. One step: the next delivered operation is taken, checked and run (30_encoding.md R64,
R65; 60_exceptions.md R144, R145). -/

namespace Sys2Proof.Machine

/-- One step. With no operation delivered, the block waits (70_reset_and_hazards.md R156). -/
def step (s : State) : Host.Outcome State Fault Refusal :=
  match s.input with
  | [] => .next s.waitForInput
  | a :: rest =>
    if a.now < s.lastNow then .refused .staleNow
    else
      match decode s.cfg a.op with
      | .error e => .refused (.illegal e)
      | .ok i => exec i (s.take a.now rest)

/-- `s` with the operation whose words are the low `nbits` bits of `w` delivered as the next one, at
the time of the last operation stepped. -/
def State.withFetchWord (s : State) (nbits w : Nat) : State :=
  { s with input := { now := s.lastNow, op := rawOfTableWord nbits w } :: s.input }

end Sys2Proof.Machine
end

