-- ==== Sys2Proof/Safety.lean ====
section
/-! DEFINITION. The words the statements use: the invariants of 10_state.md R36, the wider invariant
every step keeps, what the buffer holds, what a step put out, and the rows of spec/opcode_table.json. -/

namespace Sys2Proof.Machine

/-! ### What the buffer holds -/

/-- Cells `0` to `n-1` have all been written. -/
abbrev AllWritten (s : State) (n : Nat) : Prop := ∀ a, a < n → (cellAt s.buf a).isSome = true

/-- The buffer holds the bytes `bs` from cell `a` on. -/
abbrev BytesAt (s : State) (a : Nat) (bs : List Byte) : Prop :=
  ∀ j, (h : j < bs.length) → cellAt s.buf (a + j) = some bs[j]

/-! ### What a step put out -/

/-- Whether an action is a Wake. -/
def Action.isWake : Action → Bool
  | .wake _ _ _ _ => true
  | .irqMask _ | .irqClear _ | .rxFifoReset | .txFifoReset | .txFifoWrite _ => false
  | .setRts _ | .setTxInvert _ | .setBaud _ | .timerArm _ | .timerPause => false

/-- How many Wakes a list of actions holds. -/
def wakeCount (as : List Action) : Nat := as.countP Action.isWake

/-- The bytes a list of actions appends to the TX FIFO, in order. -/
def fifoBytes : List Action → List Byte
  | [] => []
  | .txFifoWrite bs :: rest => bs ++ fifoBytes rest
  | _ :: rest => fifoBytes rest

/-- Several operations run one after another, their actions in one list. -/
def execAll : List Instr → State → Host.Outcome State Fault Refusal
  | [], s => .next s
  | i :: is, s =>
    match exec i s with
    | .next t => execAll is t
    | .fault f => .fault f
    | .refused r => .refused r

/-! ### The invariants -/

/-- The eleven items of 10_state.md R36, in its order. -/
structure SpecInvariant (s : State) : Prop where
  item1 : s.flags.sending ≠ s.flags.idle
  item2 : s.timerMode = .brk ∨ s.timerMode = .mab →
    s.flags.sending = true ∧ s.line.rtsRx = false ∧ s.irqEn.extractLsb' 0 6 = 0
  item3 : s.timerMode = .resp → s.awaiting = true
  item4 : s.flags.inBreak = true ∧ s.flags.sending = true →
    s.timerMode = .brk ∨ s.awaiting = true
  item5 : s.flags.sending = true ∧ s.line.rtsRx = false → s.irqEn.extractLsb' 0 6 = 0
  item6 : s.rxState = .waitBreak ∧ ¬ (s.flags.sending = true ∧ s.line.rtsRx = false) →
    s.head = -1
  item7 : s.rxState = .receiving ∨ s.rxState = .postPacket → 0 ≤ s.head
  item8 : s.flags.hasData = true → s.rxState = .postPacket
  item9 : 1 ≤ s.rxSize.toNat ∧ s.rxSize.toNat ≤ s.cfg.bufCap ∧ s.pktSize.toNat ≤ s.cfg.bufCap
  item10 : s.line.txInvert = true ↔ s.timerMode = .brk
  item11 : s.snifQ.length ≤ s.cfg.snifQDepth

/-- The timing registers lie in their windows (10_state.md R28). -/
abbrev WindowsHold (s : State) : Prop :=
  (s.cfg.breakMin ≤ s.breakLen ∧ s.breakLen ≤ s.cfg.breakMax) ∧
  (s.cfg.mabMin ≤ s.mabLen ∧ s.mabLen ≤ s.cfg.mabMax) ∧
  (s.cfg.baudMin ≤ s.baud ∧ s.baud ≤ s.cfg.baudMax)

/-- What holds in every state a run reaches and every step keeps: R36, and the facts it rests on. -/
structure Inv (s : State) : Prop extends SpecInvariant s where
  /-- The parameters are in the ranges of 00_scope.md R8 (assumption log 1). -/
  cfgValid : s.cfg.Valid
  /-- The buffer is in its canonical form. -/
  bufWf : Memory.wf s.cfg.bufCap s.buf = true
  /-- SENT_LAST and SENDING are set and cleared together (10_state.md R19). -/
  sentLast : s.flags.sentLast = s.flags.sending
  /-- No RX line is enabled while the transceiver is in transmit. -/
  rxMasked : s.line.rtsRx = false → s.irqEn.extractLsb' 0 6 = 0
  /-- A TX line is enabled only between the end of the MAB and TX_DONE. -/
  txLines : s.irqEn.extractLsb' 6 2 ≠ 0 →
    s.flags.sending = true ∧ s.line.rtsRx = false ∧ s.timerMode = .off
  /-- While the block drives the bus, HEAD counts pushed bytes of a packet that is all written. -/
  sendingPacket : s.flags.sending = true ∧ s.line.rtsRx = false →
    s.rxState = .waitBreak ∧ 0 ≤ s.head ∧ s.head ≤ s.txSize.toNat ∧ 1 ≤ s.txSize.toNat ∧
      s.txSize.toNat ≤ s.cfg.bufCap ∧ AllWritten s s.txSize.toNat
  /-- Outside WAIT_BREAK every cell HEAD has passed is written. -/
  received : s.rxState ≠ .waitBreak → AllWritten s (min s.headNat s.cfg.bufCap)
  /-- HEAD is -1 or a count that has not passed HEAD_MAX, so it fits its width. -/
  headRange : -1 ≤ s.head ∧ s.head ≤ s.cfg.headMax
  /-- The timing registers lie in their windows. -/
  windows : WindowsHold s
  /-- No recorded time is later than the last operation's. -/
  times : s.lastSlotTs ≤ s.lastNow ∧ s.snifNegTs ≤ s.lastNow ∧ s.snifPosTs ≤ s.lastNow

/-! ### Two states that differ only in what the sniffer uses -/

/-- `s` with the sniffer's registers, queue and the two flags IN_BREAK and IN_MAB of `u`. -/
def State.withSniffer (s u : State) : State :=
  { s with
    flags := { s.flags with inBreak := u.flags.inBreak, inMab := u.flags.inMab }
    snifCtrl := u.snifCtrl
    snifNegTs := u.snifNegTs
    snifPosTs := u.snifPosTs
    snifBreakW := u.snifBreakW
    snifQ := u.snifQ }

end Sys2Proof.Machine

namespace Sys2Proof

/-- The operations that the framing engine and the classifier serve: all but the sniffer's own and
READ_REG, which reads any register. -/
def Instr.isEngine : Instr → Bool
  | .gpioNegedge | .gpioPosedge | .snifferCtrl _ | .snifferPop | .readReg _ => false
  | .rxData _ | .rxTimeout _ | .rxBreak | .rxFramingErr _ | .rxOverflow | .rxClash => true
  | .txData _ | .txDone | .timerAlarm | .enable | .disable | .setBreakLen _ | .setMabLen _ => true
  | .setBaud _ | .bufWrite _ _ | .bufRead _ | .txStart _ | .rxArm | .wait _ | .waitCancel => true
  | .rxConsume | .abort | .setTn _ => true

end Sys2Proof

namespace Sys2Proof.Machine

/-! ### The numbers of the named values, as the spec's tables write them -/

/-- RX_STATE's values (10_state.md R23). -/
def rxStateNumbers : List (RxState × Nat) := [(.waitBreak, 0), (.receiving, 1), (.postPacket, 2)]

/-- TIMER_MODE's values (10_state.md R24). -/
def timerModeNumbers : List (TimerMode × Nat) := [(.off, 0), (.brk, 1), (.mab, 2), (.resp, 3)]

/-- PKT_KIND's values (10_state.md R27). -/
def pktKindNumbers : List (PktKind × Nat) := [(.none, 0), (.dmx, 1), (.rdm, 2), (.rdmDiscResp, 3)]

/-- The error codes (60_exceptions.md R138). -/
def errCodeNumbers : List (ErrCode × Nat) :=
  [(.ok, 0), (.invalidArg, 1), (.invalidState, 2), (.noMem, 3), (.timeout, 4), (.invalidCrc, 5),
    (.invalidResponse, 6), (.dataOverflow, 7), (.improperSlot, 8), (.dataCollision, 9),
    (.packetSize, 10)]

/-! ### The opcode table -/

/-- The extension word, payload and constraint a row of spec/opcode_table.json asks for. -/
inductive RowShape where
  /-- No extension word and no payload. -/
  | plain
  /-- One extension word and no payload (format CX). -/
  | extended
  /-- A payload of `W[7:0]` bytes, at least `lo` and at most `RX_FIFO_CAP - slack` (format EB). -/
  | bytes (lo slack : Nat)
  /-- No extension word, no payload, and `1 ≤ W[15:0] ≤ TX_FIFO_CAP` (format ES). -/
  | room
  deriving DecidableEq, Repr

/-- A row of spec/opcode_table.json. -/
structure OpcodeRow where
  value : Word
  mask : Word
  shape : RowShape
  deriving DecidableEq, Repr

/-- The rows of spec/opcode_table.json, in its order. -/
def opcodeRows : List OpcodeRow :=
  [⟨0x10000000, 0xFFFFFF00, .bytes 1 0⟩, ⟨0x11000000, 0xFFFFFF00, .bytes 1 0⟩,
   ⟨0x12000000, 0xFFFFFFFF, .plain⟩, ⟨0x13000000, 0xFFFFFF00, .bytes 0 1⟩,
   ⟨0x14000000, 0xFFFFFFFF, .plain⟩, ⟨0x15000000, 0xFFFFFFFF, .plain⟩,
   ⟨0x16000000, 0xFFFF0000, .room⟩, ⟨0x17000000, 0xFFFFFFFF, .plain⟩,
   ⟨0x20000000, 0xFFFFFFFF, .plain⟩, ⟨0x30000000, 0xFFFFFFFF, .plain⟩,
   ⟨0x31000000, 0xFFFFFFFF, .plain⟩, ⟨0x80000000, 0xFFFFFFFF, .plain⟩,
   ⟨0x81000000, 0xFFFFFFFF, .plain⟩, ⟨0x82000000, 0xFFFFFFFF, .extended⟩,
   ⟨0x83000000, 0xFFFFFFFF, .extended⟩, ⟨0x84000000, 0xFFFFFFFF, .extended⟩,
   ⟨0x85000000, 0xFF000000, .plain⟩, ⟨0x86000000, 0xFF0000FF, .plain⟩,
   ⟨0x87000000, 0xFFFF0000, .plain⟩, ⟨0x88000000, 0xFFFFFFFF, .plain⟩,
   ⟨0x89000000, 0xFFFFFFFE, .plain⟩, ⟨0x8A000000, 0xFFFFFFFF, .plain⟩,
   ⟨0x8B000000, 0xFFFFFFFF, .plain⟩, ⟨0x8C000000, 0xFFFFFFFF, .plain⟩,
   ⟨0x8D000000, 0xFFFFFF00, .plain⟩, ⟨0x8E000000, 0xFFFFFF00, .plain⟩,
   ⟨0x8F000000, 0xFFFFFFFE, .plain⟩, ⟨0x90000000, 0xFFFFFFFF, .plain⟩]

/-- Whether an operation's extension word, payload and field meet a row's shape. -/
abbrev RowShape.fits (c : Config) (op : RawOp) : RowShape → Prop
  | .plain => op.x = none ∧ op.p = []
  | .extended => op.x ≠ none ∧ op.p = []
  | .bytes lo slack => op.x = none ∧ op.p.length = (op.w &&& 0xFF).toNat ∧ lo ≤ op.p.length ∧
      op.p.length ≤ c.rxFifoCap - slack
  | .room => op.x = none ∧ op.p = [] ∧ 1 ≤ (op.w &&& 0xFFFF).toNat ∧
      (op.w &&& 0xFFFF).toNat ≤ c.txFifoCap

end Sys2Proof.Machine
end

