-- ==== Sys2Proof/Certificates/Slice0/Obligations.lean ====
section
/-! DEFINITION. The statements for the provers, each from the rules of spec/ its docstring names. -/

open Sys2Proof Sys2Proof.Machine

/-! ### The encoding -/

/-- R71: each of the rule's assembly examples encodes to the words beside it and those words spell it,
and each of the four words the rule lists as refused spells nothing. -/
def Obligations.SpecExampleWordsSpellTheirOperations : Prop :=
  (∀ x ∈ ([(.rxData [0x00, 0x10, 0x20, 0x30, 0x40], [0x10000005, 0x30201000, 0x00000040]),
      (.rxBreak, [0x12000000]), (.rxFramingErr [0x29, 0x2A], [0x13000002, 0x00002A29]),
      (.rxFramingErr [], [0x13000000]), (.txData 128, [0x16000080]), (.timerAlarm, [0x20000000]),
      (.gpioPosedge, [0x31000000]), (.setBaud 250000, [0x84000000, 0x0003D090]),
      (.setBreakLen 50, [0x82000000, 0x00000032]), (.bufWrite 2 0x18, [0x85000218]),
      (.bufWrite 512 0xFF, [0x850200FF]), (.bufRead 42, [0x86002A00]), (.txStart 26, [0x8700001A]),
      (.wait .idle, [0x89000001]), (.readReg 0x02, [0x8E000002]),
      (.snifferCtrl true, [0x8F000001])] : List (Instr × List Word)),
    encodeWords x.1 = x.2 ∧ spelled Config.default x.2 = some x.1) ∧
  (∀ ws ∈ ([[0x12000001], [0x10000000], [0x89000002], [0x21000000]] : List (List Word)),
    spelled Config.default ws = none)

/-- R60, R62: decoding the record that spells a well-formed operation gives it back, every operand at
every value its field admits. -/
def Obligations.DecodeInvertsEncode : Prop :=
  ∀ (c : Config) (i : Instr), c.Valid → WellFormed c i = true → decode c (encode i) = .ok i

/-- R63: the words of a well-formed operation, followed by any other words of a serial stream, frame
to an operation that decodes to it, and exactly the other words are left. -/
def Obligations.SerialStreamGivesOperationsBack : Prop :=
  ∀ (c : Config) (i : Instr) (rest : List Word), c.Valid → WellFormed c i = true →
    ∃ op, frameWords (encodeWords i ++ rest) = some (op, rest) ∧ decode c op = .ok i

/-- R62, R65, R67: an accepted operation is well-formed, and it was spelled in the one way the encoder
spells it, up to padding that is all zero. -/
def Obligations.AcceptedOperationHasOneSpelling : Prop :=
  ∀ (c : Config) (op : RawOp) (i : Instr), c.Valid → decode c op = .ok i →
    WellFormed c i = true ∧ encode i = { op with pad := [] } ∧ ∀ b ∈ op.pad, b = 0

/-- R62 and R65 items 1 to 5, over the match and mask rows of spec/opcode_table.json: an operation is
accepted exactly when some row's masked bits, extension word, payload and field constraint are met and
its padding is zero. -/
def Obligations.AcceptedExactlyByTheOpcodeTable : Prop :=
  ∀ (c : Config) (op : RawOp),
    (∃ i, decode c op = .ok i) ↔
      (∀ b ∈ op.pad, b = 0) ∧
        ∃ r ∈ opcodeRows, op.w &&& r.mask = r.value ∧ RowShape.fits c op r.shape

/-- R66: every OPC value of the reserved ranges is refused as such, whatever else the operation
holds. -/
def Obligations.ReservedOpcodesAreRefused : Prop :=
  ∀ (c : Config) (op : RawOp),
    ((opcOf op.w).toNat ≤ 0x0F ∨ (0x18 ≤ (opcOf op.w).toNat ∧ (opcOf op.w).toNat ≤ 0x1F) ∨
      (0x21 ≤ (opcOf op.w).toNat ∧ (opcOf op.w).toNat ≤ 0x2F) ∨
      (0x32 ≤ (opcOf op.w).toNat ∧ (opcOf op.w).toNat ≤ 0x7F) ∨ 0x91 ≤ (opcOf op.w).toNat) →
    decode c op = .error .reservedOpcode

/-! ### One step -/

/-- R58, R64: when the next delivered operation is not stale and decodes to `i`, the step is `exec i`
of the state in which LAST_NOW is the operation's `now`, the operation is off the input, and nothing
is emitted or returned yet. -/
def Obligations.StepRunsDecodedOperation : Prop :=
  ∀ (s : State) (a : Arrival) (rest : List Arrival) (i : Instr),
    s.input = a :: rest → s.lastNow ≤ a.now → decode s.cfg a.op = .ok i →
      step s = exec i { s with lastNow := a.now, input := rest, outputs := [], response := none }

/-- R65: an operation whose `now` is below LAST_NOW is refused, and one that spells nothing is
refused, before any rule runs. Which item is named where several fail is the model's choice (assumption
log 6): `now` below LAST_NOW before all others. -/
def Obligations.StepRefusesWhatSpellsNothing : Prop :=
  ∀ (s : State) (a : Arrival) (rest : List Arrival), s.input = a :: rest →
    (a.now < s.lastNow → step s = .refused .staleNow) ∧
    (∀ e, s.lastNow ≤ a.now → decode s.cfg a.op = .error e → step s = .refused (.illegal e))

/-- R64, R65, R15: an operation with `now` below LAST_NOW is refused (named so before any other item that
fails: the model's choice, assumption log 6); any step of an operation to a next state leaves LAST_NOW at
that operation's `now`; no step changes a parameter. -/
def Obligations.StepRecordsNowAndKeepsParameters : Prop :=
  (∀ (s : State) (a : Arrival) (rest : List Arrival), s.input = a :: rest →
    (a.now < s.lastNow → step s = .refused .staleNow) ∧
    (∀ t, step s = .next t → s.lastNow ≤ a.now ∧ t.lastNow = a.now ∧ t.input = rest)) ∧
  (∀ s t : State, step s = .next t → t.cfg = s.cfg)

/-- R156 (model's choice, assumption log 3): with no operation delivered the block waits: nothing is
emitted or returned, and every register keeps its value. -/
def Obligations.WaitingStepChangesNoRegister : Prop :=
  ∀ s : State, s.input = [] → step s = .next { s with outputs := [], response := none }

/-! ### Rules of the whole machine -/

/-- R36 with the facts it rests on (`Inv`): every step from a state that meets the invariant to a next
state gives a state that meets it. -/
def Obligations.StepKeepsInvariant : Prop :=
  ∀ s t : State, Inv s → step s = .next t → Inv t

/-- R155: the state after reset meets the invariant, for the default parameters and for any valid
ones (assumption log 1), whatever operations are then delivered. -/
def Obligations.ResetMeetsInvariant : Prop :=
  Inv State.reset ∧
    ∀ (c : Config) (ins : List Arrival), c.Valid → Inv { State.resetWith c with input := ins }

/-- R36, R28: in every state reachable from reset, for any valid parameters (assumption log 1) and any
operations delivered, the eleven items of R36 hold, and BREAK_LEN, MAB_LEN and BAUD lie in their windows;
for the default parameters those are the windows R28 writes out. -/
def Obligations.ReachableStatesMeetSpecInvariants : Prop :=
  (∀ (c : Config) (ins : List Arrival) (k : Nat) (t : State), c.Valid →
    Host.Core.run Sys2Proof.core k { State.resetWith c with input := ins } = .next t →
      SpecInvariant t ∧ WindowsHold t) ∧
  (∀ (ins : List Arrival) (k : Nat) (t : State),
    Host.Core.run Sys2Proof.core k { State.reset with input := ins } = .next t →
      (92 ≤ t.breakLen.toNat ∧ t.breakLen.toNat ≤ 1000000) ∧
      (12 ≤ t.mabLen.toNat ∧ t.mabLen.toNat ≤ 1000000) ∧
      (245000 ≤ t.baud.toNat ∧ t.baud.toNat ≤ 255000))

/-- R141: in a state that meets the invariant, `F_UNWRITTEN(a)` is the only fault, it is raised only
by `BUF_READ a` and by a `TX_START` of more than `a` bytes, and only where cell `a` was never written;
so no event faults. No operation is refused once it has decoded. -/
def Obligations.OnlyReadsOfUnwrittenCellsFault : Prop :=
  (∀ (i : Instr) (s : State) (f : Fault), Inv s → exec i s = .fault f →
    ∃ a, f = .unwritten a ∧ cellAt s.buf a = none ∧
      ((∃ addr : BitVec 16, i = .bufRead addr ∧ addr.toNat = a) ∨
       (∃ n : BitVec 16, i = .txStart n ∧ a < n.toNat))) ∧
  (∀ (i : Instr) (s : State), Inv s → i.isCommand = false → ∃ t, exec i s = .next t) ∧
  (∀ (i : Instr) (s : State) (r : Refusal), exec i s ≠ .refused r)

/-- R68, R59: every command that goes to a next state returns a response; where its status is not OK
its value is 0 and it changed nothing else and emitted nothing; and its value is 0 unless it is one of
the commands whose rule gives a value. An event returns none. -/
def Obligations.CommandsRespondAndFailuresChangeNothing : Prop :=
  ∀ (i : Instr) (s t : State), exec i s = .next t →
    (i.isCommand = true → ∃ r, t.response = some r ∧
      (r.status ≠ .ok → r.value = 0 ∧ t = { s with response := some r }) ∧
      (r.value ≠ 0 → (∃ v, i = .setBreakLen v ∨ i = .setMabLen v ∨ i = .setBaud v) ∨
        (∃ a, i = .bufRead a) ∨ (∃ n, i = .readReg n) ∨ i = .rxConsume ∨ i = .snifferPop)) ∧
    (i.isCommand = false → t.response = s.response)

/-- R11, R74, R88: an operation only appends to the actions put out; at most one of the appended ones
is a Wake, one is appended only if the token was set or the operation is WAIT, and it leaves
TASK_WAITING clear. -/
def Obligations.AtMostOneWakeAndItClearsTheToken : Prop :=
  ∀ (i : Instr) (s t : State), exec i s = .next t →
    ∃ acts, t.outputs = s.outputs ++ acts ∧ wakeCount acts ≤ 1 ∧
      (wakeCount acts = 1 →
        t.taskWaiting = false ∧ (s.taskWaiting = true ∨ ∃ c, i = .wait c))

/-- R89: a Wake that reports a packet carries the packet record the block holds afterwards, its error
tag with it; and RX_CONSUME returns that same tag, as R138 numbers it, in bits 31 to 24 of its value. -/
def Obligations.WakeCarriesTheRecordedPacket : Prop :=
  (∀ (i : Instr) (s t : State) (n : BitVec 16) (k : PktKind) (e : ErrCode) (acts : List Action),
    exec i s = .next t → t.outputs = s.outputs ++ acts → .wake true n k e ∈ acts →
      t.pktSize = n ∧ t.pktKind = k ∧ t.pktErr = e ∧ t.flags.hasData = true) ∧
  (∀ s : State, ∀ y ∈ errCodeNumbers, s.pktErr = y.1 →
    ∃ t r, exec .rxConsume s = .next t ∧ t.response = some r ∧ r.value.toNat / 2 ^ 24 % 2 ^ 8 = y.2)

/-- R16, the column "Written by": an operation that changes a register is one of those the table names
for it. -/
def Obligations.RegistersChangeOnlyByTheirWriters : Prop :=
  ∀ (i : Instr) (s t : State), exec i s = .next t →
    (t.flags ≠ s.flags → i.isCommand = false ∨ i = .enable ∨ i = .disable ∨ (∃ n, i = .txStart n) ∨
      i = .rxArm ∨ i = .rxConsume ∨ i = .abort) ∧
    (t.rxState ≠ s.rxState →
      (∃ p, i = .rxData p ∨ i = .rxTimeout p ∨ i = .rxFramingErr p) ∨ i = .rxBreak ∨
        i = .rxOverflow ∨ i = .rxClash ∨ (∃ n, i = .txStart n) ∨ i = .txDone ∨ i = .timerAlarm ∨
        i = .enable ∨ i = .rxArm) ∧
    (t.head ≠ s.head →
      (∃ p, i = .rxData p ∨ i = .rxTimeout p ∨ i = .rxFramingErr p) ∨ i = .rxBreak ∨
        (∃ n, i = .txStart n ∨ i = .txData n) ∨ i = .txDone ∨ i = .timerAlarm ∨ i = .enable ∨
        i = .rxArm) ∧
    (t.timerMode ≠ s.timerMode →
      (∃ p, i = .rxData p ∨ i = .rxTimeout p ∨ i = .rxFramingErr p) ∨ i = .rxBreak ∨
        i = .rxOverflow ∨ i = .rxClash ∨ (∃ n, i = .txStart n) ∨ i = .txDone ∨ i = .timerAlarm ∨
        i = .abort) ∧
    (t.taskWaiting ≠ s.taskWaiting → (∃ c, i = .wait c) ∨ i = .waitCancel ∨
      ∃ acts, t.outputs = s.outputs ++ acts ∧ wakeCount acts = 1) ∧
    (t.txSize ≠ s.txSize → ∃ n, i = .txStart n) ∧
    (t.rxSize ≠ s.rxSize → i = .rxBreak) ∧
    (t.breakLen ≠ s.breakLen → ∃ v, i = .setBreakLen v) ∧
    (t.mabLen ≠ s.mabLen → ∃ v, i = .setMabLen v) ∧
    (t.baud ≠ s.baud → ∃ v, i = .setBaud v) ∧
    (t.lastSlotTs ≠ s.lastSlotTs →
      (∃ p, i = .rxData p ∨ i = .rxTimeout p ∨ i = .rxFramingErr p) ∨ i = .txDone) ∧
    (t.tn ≠ s.tn → ∃ v, i = .setTn v) ∧
    (t.pktSize ≠ s.pktSize ∨ t.pktKind ≠ s.pktKind ∨ t.pktErr ≠ s.pktErr →
      (∃ p, i = .rxData p ∨ i = .rxTimeout p ∨ i = .rxFramingErr p) ∨ i = .rxBreak ∨
        i = .rxOverflow ∨ i = .rxClash ∨ i = .timerAlarm) ∧
    (t.line ≠ s.line → (∃ n, i = .txStart n) ∨ i = .timerAlarm ∨ i = .txDone ∨ i = .rxArm) ∧
    (t.irqEn ≠ s.irqEn → (∃ n, i = .txStart n) ∨ i = .timerAlarm ∨ (∃ n, i = .txData n) ∨
      i = .txDone ∨ i = .enable ∨ i = .disable ∨ i = .rxArm) ∧
    (t.snifCtrl ≠ s.snifCtrl → ∃ b, i = .snifferCtrl b) ∧
    (t.snifNegTs ≠ s.snifNegTs → i = .gpioNegedge) ∧
    (t.snifPosTs ≠ s.snifPosTs → i = .gpioPosedge) ∧
    (t.snifBreakW ≠ s.snifBreakW → i = .gpioPosedge) ∧
    (t.snifQ ≠ s.snifQ → i = .gpioNegedge ∨ i = .snifferPop)

/-- R83: RX_SIZE changes only at an RX_BREAK, only when HEAD is at least 1 and the packet that ends did
not end in an error, and it then takes HEAD limited to the buffer. -/
def Obligations.RollingEstimateIsLearntOnlyAtBreak : Prop :=
  ∀ (i : Instr) (s t : State), exec i s = .next t → t.rxSize ≠ s.rxSize →
    i = .rxBreak ∧ 1 ≤ s.head ∧ s.pktErr = .ok ∧
      t.rxSize = BitVec.ofNat 16 (min s.headNat s.cfg.bufCap)

/-- R40, R41: no operation makes a written cell UNWRITTEN, and only BUF_WRITE and the byte-delivery
events change the buffer. -/
def Obligations.CellsStayWrittenAndFewOperationsWrite : Prop :=
  ∀ (i : Instr) (s t : State), exec i s = .next t →
    (∀ a, (cellAt s.buf a).isSome = true → (cellAt t.buf a).isSome = true) ∧
    (t.buf ≠ s.buf → (∃ a v, i = .bufWrite a v) ∨
      ∃ p, i = .rxData p ∨ i = .rxTimeout p ∨ i = .rxFramingErr p)

/-- R54: in a state that meets the invariant, while the block drives the bus, no operation changes the
buffer or TX_SIZE, so the bytes pushed are the bytes TX_START checked. -/
def Obligations.PacketIsFrozenWhileItIsSent : Prop :=
  ∀ (i : Instr) (s t : State), Inv s → s.flags.sending = true → s.line.rtsRx = false →
    exec i s = .next t → t.buf = s.buf ∧ t.txSize = s.txSize

/-- R90: an engine operation behaves alike in two states that differ only in the sniffer's registers,
its queue and the flags IN_BREAK and IN_MAB: the same outcome, and next states that again differ only
there. -/
def Obligations.SnifferNeverAffectsTheEngine : Prop :=
  ∀ (i : Instr) (s u : State), i.isEngine = true →
    (∀ t, exec i s = .next t →
      ∃ t', exec i (s.withSniffer u) = .next t' ∧ t'.withSniffer t = t) ∧
    (∀ f, exec i s = .fault f → exec i (s.withSniffer u) = .fault f)

/-- R98: in a state that meets the invariant, an operation arms the timer only when TIMER_MODE is OFF
or it is the timer's own alarm. -/
def Obligations.TimerUsesNeverOverlap : Prop :=
  ∀ (i : Instr) (s t : State) (acts : List Action) (d : BitVec 32), Inv s →
    exec i s = .next t → t.outputs = s.outputs ++ acts → .timerArm d ∈ acts →
      s.timerMode = .off ∨ i = .timerAlarm

/-! ### The classifier -/

/-- R115: the classifier depends only on HEAD, RX_SIZE and the cells below HEAD and the buffer's
end. -/
def Obligations.ClassifierReadsOnlyBelowHead : Prop :=
  ∀ s s' : State, s.cfg.bufCap = s'.cfg.bufCap → s.head = s'.head → s.rxSize = s'.rxSize →
    1 ≤ s.head → (∀ a, a < min s.headNat s.cfg.bufCap → cellAt s.buf a = cellAt s'.buf a) →
      classify s = classify s'

/-- R117, R115, R121: a lone 0xCC is pending, whatever RX_SIZE is; a packet that begins 0xCC 0x01 is
pending until HEAD is 3; a message length `L` below 24 completes it with PACKET_SIZE; else it is pending
until HEAD reaches `L + 2`, and then completes with no error if the sum of cells 0 to L-1 modulo 2^16 is
the big-endian value of cells L and L+1, and with INVALID_CRC if not. -/
def Obligations.RdmPacketCompletesAtItsLength : Prop :=
  ∀ (s : State) (h : Nat) (bs : List Byte), 513 ≤ s.cfg.bufCap → s.head = h →
    bs.length = min h s.cfg.bufCap → BytesAt s 0 bs → 1 ≤ h → bs.getD 0 0 = 0xCC →
    (h = 1 → classify s = .ok .pending) ∧
    (2 ≤ h → bs.getD 1 0 = 0x01 →
      (h < 3 → classify s = .ok .pending) ∧
      (3 ≤ h → (bs.getD 2 0).toNat < 24 → classify s = .ok (.complete .rdm .packetSize)) ∧
      (3 ≤ h → 24 ≤ (bs.getD 2 0).toNat →
        (h < (bs.getD 2 0).toNat + 2 → classify s = .ok .pending) ∧
        ((bs.getD 2 0).toNat + 2 ≤ h →
          classify s = .ok (.complete .rdm
            (if ((bs.take (bs.getD 2 0).toNat).map (·.toNat)).sum % 2 ^ 16 =
                (bs.getD (bs.getD 2 0).toNat 0).toNat * 256 +
                  (bs.getD ((bs.getD 2 0).toNat + 1) 0).toNat
              then .ok else .invalidCrc)))))

/-- R118: `p` preamble bytes alone, `p` from 1 to 7, are pending; with the delimiter after `p` of them,
`p` from 0 to 7, a discovery response is pending until HEAD reaches `p + 17` and then completes, with no
error if the sum of the 12 encoded UID bytes is the decoded checksum, high byte first, and with
INVALID_CRC if not; eight preamble bytes, or a byte other than 0xFE and 0xAA before the delimiter,
complete it with INVALID_RESPONSE. The high byte first is what R118 marks as general knowledge, not the
source's (PRESUMED, assumption log 13). -/
def Obligations.DiscoveryResponseCompletesAtItsLength : Prop :=
  ∀ (s : State) (h p : Nat) (bs rest : List Byte), 513 ≤ s.cfg.bufCap → s.head = h →
    bs.length = min h s.cfg.bufCap → BytesAt s 0 bs →
    (bs = List.replicate p 0xFE → 1 ≤ p → p ≤ 7 → classify s = .ok .pending) ∧
    (bs = List.replicate p 0xFE ++ 0xAA :: rest → p ≤ 7 →
      (h < p + 17 → classify s = .ok .pending) ∧
      (p + 17 ≤ h →
        classify s = .ok (.complete .rdmDiscResp
          (if ((rest.take 12).map (·.toNat)).sum % 2 ^ 16 =
              ((rest.getD 12 0 &&& 0x55) ||| (rest.getD 13 0 &&& 0xAA)).toNat * 256 +
                ((rest.getD 14 0 &&& 0x55) ||| (rest.getD 15 0 &&& 0xAA)).toNat
            then .ok else .invalidCrc)))) ∧
    (bs = List.replicate 8 0xFE ++ rest →
      classify s = .ok (.complete .rdmDiscResp .invalidResponse)) ∧
    (∀ b, bs = List.replicate p 0xFE ++ b :: rest → 1 ≤ p → p ≤ 7 → b ≠ 0xFE → b ≠ 0xAA →
      classify s = .ok (.complete .rdmDiscResp .invalidResponse))

/-- R47, R118, R119: a discovery response built as R47 lays it out, for any 6-byte UID and any
preamble of 0 to 7 bytes, is pending at every shorter HEAD and accepted with no error at HEAD
`p + 17`. That its checksum's high byte comes first is what R47 marks as general knowledge, not the
source's (PRESUMED, assumption log 13). -/
def Obligations.EveryEncodedDiscoveryResponseIsAccepted : Prop :=
  ∀ (uid : List Byte) (p : Nat) (s : State) (h : Nat) (packet : List Byte),
    uid.length = 6 → p ≤ 7 → 513 ≤ s.cfg.bufCap →
    packet = List.replicate p 0xFE ++ 0xAA ::
      (laneEncodeAll uid ++
        laneEncodeAll [(sum16 (laneEncodeAll uid)).extractLsb' 8 8,
          (sum16 (laneEncodeAll uid)).extractLsb' 0 8]) →
    1 ≤ h → h ≤ p + 17 → s.head = h → BytesAt s 0 (packet.take h) →
      packet.length = p + 17 ∧
      (h < p + 17 → classify s = .ok .pending) ∧
      (h = p + 17 → classify s = .ok (.complete .rdmDiscResp .ok))

/-- R119: decoding the encoded pair `(b OR 0xAA, b OR 0x55)` of a byte returns the byte. -/
def Obligations.LaneDecodeInvertsLaneEncode : Prop :=
  ∀ b : Byte, laneDecode (b ||| 0xAA) (b ||| 0x55) = b

/-- R116, R120: a packet whose first byte is none of 0xCC, 0xFE and 0xAA, or whose first byte is 0xCC
and whose second is not 0x01, is complete as DMX with no error when HEAD is RX_SIZE, and else
pending. -/
def Obligations.PlainFrameCompletesAtRxSize : Prop :=
  ∀ (s : State) (h : Nat) (bs : List Byte), s.head = h → bs.length = min h s.cfg.bufCap →
    BytesAt s 0 bs →
    ((1 ≤ bs.length ∧ bs.getD 0 0 ≠ 0xCC ∧ bs.getD 0 0 ≠ 0xFE ∧ bs.getD 0 0 ≠ 0xAA) ∨
      (2 ≤ bs.length ∧ bs.getD 0 0 = 0xCC ∧ bs.getD 1 0 ≠ 0x01)) →
    classify s = .ok (if h = s.rxSize.toNat then .complete .dmx .ok else .pending)

/-- R77: the kind of an error finish: NONE for an empty packet; RDM when the first byte is 0xCC and
there is no second or it is 0x01; RDM_DISC_RESP when the first byte is 0xFE or 0xAA; else DMX. -/
def Obligations.ErrorFinishKindFollowsTheFirstBytes : Prop :=
  ∀ s : State, (s.head < 1 → kindOf s = .ok .none) ∧
    ∀ (h : Nat) (bs : List Byte), 513 ≤ s.cfg.bufCap → s.head = h → 1 ≤ h →
      bs.length = min h s.cfg.bufCap → BytesAt s 0 bs →
      kindOf s = .ok
        (if bs.getD 0 0 = 0xCC ∧ (h < 2 ∨ bs.getD 1 0 = 0x01) then .rdm
         else if bs.getD 0 0 = 0xFE ∨ bs.getD 0 0 = 0xAA then .rdmDiscResp
         else .dmx)

/-! ### Receiving -/

/-- R78, R79, R80, R81, R84: outside WAIT_BREAK a drain (RX_DATA, RX_TIMEOUT, or the good bytes of
RX_FRAMING_ERR) stores each byte at HEAD while there is room and counts every byte, stopping at HEAD_MAX;
every other cell is unchanged; LAST_SLOT_TS takes `now`; IN_BREAK and IN_MAB clear; and the registers
named here are the only ones that change. (That RX_TIMEOUT drains is assumption log 13.) -/
def Obligations.DrainStoresAndCountsEveryByte : Prop :=
  ∀ (s : State) (p : List Byte) (i : Instr), Inv s → s.rxState ≠ .waitBreak →
    ((i = .rxData p ∧ s.lineOn .rxData = true) ∨ (i = .rxTimeout p ∧ s.lineOn .rxTimeout = true) ∨
      (i = .rxFramingErr p ∧ p ≠ [] ∧ s.lineOn .rxFramingErr = true)) →
    ∃ t, exec i s = .next t ∧
      t.head = min (s.headNat + p.length) s.cfg.headMax ∧
      (∀ j, (h : j < p.length) → s.headNat + j < s.cfg.bufCap →
        cellAt t.buf (s.headNat + j) = some p[j]) ∧
      (∀ a, a < s.headNat ∨ min (s.headNat + p.length) s.cfg.bufCap ≤ a →
        cellAt t.buf a = cellAt s.buf a) ∧
      (t.rxState = .receiving ∨ t.rxState = .postPacket) ∧
      t.flags.enabled = s.flags.enabled ∧ t.flags.inBreak = false ∧ t.flags.inMab = false ∧
      t = { s with
        flags := t.flags, rxState := t.rxState, head := t.head, lastSlotTs := s.lastNow,
        pktSize := t.pktSize, pktKind := t.pktKind, pktErr := t.pktErr, timerMode := t.timerMode,
        taskWaiting := t.taskWaiting, buf := t.buf, outputs := t.outputs }

/-- R78, R80, R81, R84: in WAIT_BREAK every byte of a drain is discarded, and only LAST_SLOT_TS,
IN_BREAK and IN_MAB change; RX_FRAMING_ERR then resets the RX FIFO. (That RX_TIMEOUT drains is
assumption log 13.) -/
def Obligations.BytesBeforeBreakAreDiscarded : Prop :=
  ∀ (s u : State) (p : List Byte), s.rxState = .waitBreak →
    u = { s with
      lastSlotTs := s.lastNow, flags := { s.flags with inBreak := false, inMab := false } } →
    (s.lineOn .rxData = true → exec (.rxData p) s = .next u) ∧
    (s.lineOn .rxTimeout = true → exec (.rxTimeout p) s = .next u) ∧
    (s.lineOn .rxFramingErr = true → p ≠ [] →
      exec (.rxFramingErr p) s = .next { u with outputs := s.outputs ++ [.rxFifoReset] })

/-- R78, R139: in POST_PACKET a drain stores each byte at HEAD while there is room and counts every byte,
stopping at HEAD_MAX, and finishes nothing: every other cell, the packet record, the token, the timer and
the actions put out are unchanged. (That RX_TIMEOUT drains is assumption log 13.) -/
def Obligations.BytesAfterThePacketFinishNothing : Prop :=
  ∀ (s : State) (p : List Byte) (i : Instr), Inv s → s.rxState = .postPacket →
    ((i = .rxData p ∧ s.lineOn .rxData = true) ∨ (i = .rxTimeout p ∧ s.lineOn .rxTimeout = true)) →
    ∃ t, exec i s = .next t ∧
      (∀ j, (h : j < p.length) → s.headNat + j < s.cfg.bufCap →
        cellAt t.buf (s.headNat + j) = some p[j]) ∧
      (∀ a, a < s.headNat ∨ min (s.headNat + p.length) s.cfg.bufCap ≤ a →
        cellAt t.buf a = cellAt s.buf a) ∧
      t = { s with
        lastSlotTs := s.lastNow, flags := { s.flags with inBreak := false, inMab := false }
        head := min (s.headNat + p.length) s.cfg.headMax, buf := t.buf }

/-- R78, R79, R73: in RECEIVING a byte of RX_DATA or RX_TIMEOUT is stored and counted, the response timer
is cancelled, and the packet is classified: pending leaves it so, and complete finishes it with the
classifier's kind and error. A longer payload is taken byte by byte, in every state: its first byte does
all it does alone before the rest is taken. RX_TIMEOUT does what RX_DATA does when both lines are on (that
it drains is assumption log 13). -/
def Obligations.ReceivedByteIsStoredThenClassified : Prop :=
  (∀ (s u : State) (b : Byte) (i : Instr),
    ((i = .rxData [b] ∧ s.lineOn .rxData = true) ∨
      (i = .rxTimeout [b] ∧ s.lineOn .rxTimeout = true)) →
    s.rxState = .receiving → 0 ≤ s.head →
    u = { s with
      lastSlotTs := s.lastNow, flags := { s.flags with inBreak := false, inMab := false }
      buf := if s.headNat < s.cfg.bufCap then putCell s.buf s.headNat b else s.buf
      head := s.toHead (min (s.headNat + 1) s.cfg.headMax)
      timerMode := if s.timerMode = .resp then .off else s.timerMode
      outputs := s.outputs ++ (if s.timerMode = .resp then [.timerPause] else []) } →
    (classify u = .ok .pending → exec i s = .next u) ∧
    (∀ k e, classify u = .ok (.complete k e) → exec i s = .next (u.finish k e)) ∧
    (∀ f, classify u = .error f → exec i s = .fault f)) ∧
  (∀ (s : State) (b : Byte) (p : List Byte),
    (s.lineOn .rxData = true →
      (∀ u, exec (.rxData [b]) s = .next u → exec (.rxData (b :: p)) s = exec (.rxData p) u) ∧
      (∀ f, exec (.rxData [b]) s = .fault f → exec (.rxData (b :: p)) s = .fault f) ∧
      (Inv s → ∃ u, exec (.rxData [b]) s = .next u)) ∧
    (s.lineOn .rxTimeout = true →
      (∀ u, exec (.rxTimeout [b]) s = .next u →
        exec (.rxTimeout (b :: p)) s = exec (.rxTimeout p) u) ∧
      (∀ f, exec (.rxTimeout [b]) s = .fault f → exec (.rxTimeout (b :: p)) s = .fault f) ∧
      (Inv s → ∃ u, exec (.rxTimeout [b]) s = .next u)) ∧
    (s.lineOn .rxData = true → s.lineOn .rxTimeout = true →
      exec (.rxTimeout p) s = exec (.rxData p) s))

/-- R76, R75, R74: what finishing a packet does: the record takes HEAD limited to the buffer, the kind
and the error; HAS_DATA sets; POST_PACKET; an awaited transaction ends and its timer stops; a waiting
host is woken with that record and the token clears. -/
def Obligations.FinishRecordsThePacketAndWakes : Prop :=
  ∀ (s : State) (k : PktKind) (e : ErrCode),
    s.finish k e = { s with
      pktSize := BitVec.ofNat 16 (min s.headNat s.cfg.bufCap), pktKind := k, pktErr := e
      flags :=
        if s.flags.sending = true ∧ s.flags.sentLast = true ∧ s.line.rtsRx = true then
          { s.flags with hasData := true, sending := false, sentLast := false, idle := true }
        else { s.flags with hasData := true }
      rxState := .postPacket
      timerMode :=
        if s.awaiting = true ∧ s.timerMode = .resp then .off else s.timerMode
      taskWaiting := false
      outputs := s.outputs ++
        (if s.awaiting = true ∧ s.timerMode = .resp then [.timerPause] else []) ++
        (if s.taskWaiting = true then
          [.wake true (BitVec.ofNat 16 (min s.headNat s.cfg.bufCap)) k e] else []) }

/-- R120, R76: the byte that brings a plain DMX frame to RX_SIZE finishes it: the record is
(RX_SIZE, DMX, NONE), HAS_DATA sets, POST_PACKET, and a waiting host is woken with that record; so for
RX_DATA and RX_TIMEOUT of that byte (that RX_TIMEOUT drains is assumption log 13). -/
def Obligations.DmxFrameIsReportedAtRxSize : Prop :=
  ∀ (s : State) (b : Byte) (i : Instr), Inv s → s.rxState = .receiving →
    ((i = .rxData [b] ∧ s.lineOn .rxData = true) ∨
      (i = .rxTimeout [b] ∧ s.lineOn .rxTimeout = true)) →
    s.head + 1 = s.rxSize.toNat →
    ((s.head = 0 ∧ b ≠ 0xCC ∧ b ≠ 0xFE ∧ b ≠ 0xAA) ∨
      (1 ≤ s.head ∧ ∃ b0, cellAt s.buf 0 = some b0 ∧ b0 ≠ 0xCC ∧ b0 ≠ 0xFE ∧ b0 ≠ 0xAA) ∨
      (s.head = 1 ∧ cellAt s.buf 0 = some 0xCC ∧ b ≠ 0x01) ∨
      (2 ≤ s.head ∧ cellAt s.buf 0 = some 0xCC ∧ ∃ b1, cellAt s.buf 1 = some b1 ∧ b1 ≠ 0x01)) →
    ∃ t, exec i s = .next t ∧ t.head = s.rxSize.toNat ∧ t.pktSize = s.rxSize ∧
      t.pktKind = .dmx ∧ t.pktErr = .ok ∧ t.flags.hasData = true ∧ t.rxState = .postPacket ∧
      t.taskWaiting = false ∧ t.buf = putCell s.buf s.headNat b ∧
      (s.awaiting = true → t.flags.sending = false ∧ t.flags.idle = true ∧ t.timerMode = .off) ∧
      t.outputs = s.outputs ++ (if s.timerMode = .resp then [.timerPause] else []) ++
        (if s.taskWaiting = true then [.wake true s.rxSize .dmx .ok] else [])

/-- R82: RX_BREAK, enabled: the estimate is learnt, IN_BREAK sets, IN_MAB and HAS_DATA clear, the
packet record clears, HEAD is 0, RECEIVING, and the response timer is cancelled; masked: nothing. -/
def Obligations.RxBreakOpensAPacket : Prop :=
  ∀ s : State,
    (s.lineOn .rxBreak = false → exec .rxBreak s = .next s) ∧
    (s.lineOn .rxBreak = true → exec .rxBreak s = .next { s with
      rxSize :=
        if 1 ≤ s.head ∧ s.pktErr = .ok then BitVec.ofNat 16 (min s.headNat s.cfg.bufCap)
        else s.rxSize
      flags := { s.flags with inBreak := true, inMab := false, hasData := false }
      pktSize := 0, pktKind := .none, pktErr := .ok, head := 0, rxState := .receiving
      timerMode := if s.timerMode = .resp then .off else s.timerMode
      outputs := s.outputs ++ (if s.timerMode = .resp then [.timerPause] else []) })

/-- R84: RX_FRAMING_ERR, enabled: the good bytes, if there are any, have the effect of RX_DATA of those
bytes (with its own line on), the RX FIFO is reset, and if the packet is still being received it finishes
with its kind and IMPROPER_SLOT; masked: nothing. -/
def Obligations.FramingErrorFinishesThePacket : Prop :=
  ∀ (s : State) (p : List Byte),
    (s.lineOn .rxFramingErr = false → exec (.rxFramingErr p) s = .next s) ∧
    (s.lineOn .rxFramingErr = true → Inv s →
      ∃ u, u.irqEn = s.irqEn ∧ (p = [] → u = s) ∧
        (p ≠ [] → exec (.rxData p) { s with irqEn := 0x3F } = .next { u with irqEn := 0x3F }) ∧
        (u.rxState = .receiving → ∃ k, kindOf u = .ok k ∧
          exec (.rxFramingErr p) s = .next ((u.emit .rxFifoReset).finish k .improperSlot)) ∧
        (u.rxState ≠ .receiving → exec (.rxFramingErr p) s = .next (u.emit .rxFifoReset)))

/-- R85, R86: in RECEIVING, RX_OVERFLOW resets the RX FIFO and finishes the packet with DATA_OVERFLOW,
and RX_CLASH finishes it with DATA_COLLISION; elsewhere RX_OVERFLOW only resets the FIFO and RX_CLASH
does nothing; masked, neither does anything. -/
def Obligations.OverflowAndClashFinishThePacket : Prop :=
  ∀ s : State,
    (s.lineOn .rxOverflow = false → exec .rxOverflow s = .next s) ∧
    (s.lineOn .rxClash = false → exec .rxClash s = .next s) ∧
    (s.rxState ≠ .receiving →
      (s.lineOn .rxOverflow = true → exec .rxOverflow s = .next (s.emit .rxFifoReset)) ∧
      (s.lineOn .rxClash = true → exec .rxClash s = .next s)) ∧
    (s.rxState = .receiving → Inv s → ∃ k, kindOf s = .ok k ∧
      (s.lineOn .rxOverflow = true →
        exec .rxOverflow s = .next ((s.emit .rxFifoReset).finish k .dataOverflow)) ∧
      (s.lineOn .rxClash = true → exec .rxClash s = .next (s.finish k .dataCollision)))

/-- R143, R91: a UART event whose IRQ_EN bit is 0 changes no state and emits nothing (LAST_NOW is the
step's); an edge R91 names is ignored; an alarm with TIMER_MODE OFF is ignored, and no IRQ_EN bit gates
an alarm: under every mask it ends a BREAK. -/
def Obligations.MaskedEventsChangeNothing : Prop :=
  ∀ s : State,
    (∀ p, s.lineOn .rxData = false → exec (.rxData p) s = .next s) ∧
    (∀ p, s.lineOn .rxTimeout = false → exec (.rxTimeout p) s = .next s) ∧
    (s.lineOn .rxBreak = false → exec .rxBreak s = .next s) ∧
    (∀ p, s.lineOn .rxFramingErr = false → exec (.rxFramingErr p) s = .next s) ∧
    (s.lineOn .rxOverflow = false → exec .rxOverflow s = .next s) ∧
    (s.lineOn .rxClash = false → exec .rxClash s = .next s) ∧
    (∀ n, s.lineOn .txData = false → exec (.txData n) s = .next s) ∧
    (s.lineOn .txDone = false → exec .txDone s = .next s) ∧
    (s.timerMode = .off → exec .timerAlarm s = .next s) ∧
    (∀ m, s.timerMode = .brk → exec .timerAlarm { s with irqEn := m } = .next { s with
      irqEn := m
      line := { s.line with txInvert := false }
      flags := { s.flags with inBreak := false, inMab := true }
      timerMode := .mab
      outputs := s.outputs ++ [.setTxInvert false, .timerArm s.mabLen] }) ∧
    (s.cfg.snifferPresent = false ∨ s.snifCtrl = false ∨ s.line.rtsRx = false →
      exec .gpioPosedge s = .next s ∧ exec .gpioNegedge s = .next s)

/-! ### Transmitting -/

/-- R101, R140: TX_START's checks in their order (INVALID_STATE, INVALID_ARG, the fault on the first
unwritten cell), and, when they pass, the whole of what it writes and emits. -/
def Obligations.TxStartChecksThenStartsTheBreak : Prop :=
  ∀ (s : State) (n : BitVec 16),
    (s.flags.enabled = false ∨ s.flags.sending = true →
      exec (.txStart n) s = .next { s with response := some ⟨.invalidState, 0⟩ }) ∧
    (s.flags.enabled = true → s.flags.sending = false →
      (n.toNat < 1 ∨ s.cfg.bufCap < n.toNat →
        exec (.txStart n) s = .next { s with response := some ⟨.invalidArg, 0⟩ }) ∧
      (1 ≤ n.toNat → n.toNat ≤ s.cfg.bufCap →
        (∀ a, a < n.toNat → cellAt s.buf a = none → AllWritten s a →
          exec (.txStart n) s = .fault (.unwritten a)) ∧
        (AllWritten s n.toNat →
          exec (.txStart n) s = .next { s with
            txSize := n, head := 0, rxState := .waitBreak
            flags := { s.flags with
              sending := true, idle := false, sentLast := true, hasData := false,
              inBreak := true, inMab := false }
            irqEn := 0, line := ⟨false, true⟩, timerMode := .brk
            outputs := s.outputs ++ [.irqClear 0xFF, .irqMask 0, .setRts .transmit, .txFifoReset,
              .setTxInvert true, .timerArm s.breakLen]
            response := some ⟨.ok, 0⟩ })))

/-- R102: the four cases of TIMER_ALARM. OFF: ignored. BREAK: the BREAK ends and the MAB is timed. MAB:
as many bytes as fit the FIFO are pushed from HEAD, the timer stops and both TX lines are enabled.
In a state that meets the invariant the cells pushed are written. RESP: the timer stops, and an awaited
transaction ends with TIMEOUT. -/
def Obligations.TimerAlarmEndsWhatItTimed : Prop :=
  ∀ s : State,
    (s.timerMode = .off → exec .timerAlarm s = .next s) ∧
    (s.timerMode = .brk → exec .timerAlarm s = .next { s with
      line := { s.line with txInvert := false }
      flags := { s.flags with inBreak := false, inMab := true }
      timerMode := .mab
      outputs := s.outputs ++ [.setTxInvert false, .timerArm s.mabLen] }) ∧
    (s.timerMode = .mab → Inv s → ∃ bs,
      bs.length = min s.cfg.txFifoCap (s.txSize.toNat - s.headNat) ∧ BytesAt s s.headNat bs ∧
      exec .timerAlarm s = .next { s with
        flags := { s.flags with inMab := false }
        head := s.head + bs.length
        timerMode := .off
        irqEn := s.irqEn ||| 0xC0
        outputs := s.outputs ++ [.txFifoWrite bs, .timerPause, .irqClear 0xC0,
          .irqMask (s.irqEn ||| 0xC0)] }) ∧
    (s.timerMode = .resp → s.awaiting = false → exec .timerAlarm s = .next { s with
      timerMode := .off, outputs := s.outputs ++ [.timerPause] }) ∧
    (s.timerMode = .resp → s.awaiting = true → exec .timerAlarm s = .next { s with
      timerMode := .off
      pktSize := 0, pktKind := .none, pktErr := .timeout
      flags := { s.flags with hasData := false, sending := false, sentLast := false, idle := true }
      head := -1, rxState := .waitBreak, taskWaiting := false
      outputs := s.outputs ++ [.timerPause] ++
        (if s.taskWaiting = true then [.wake false 0 .none .timeout] else []) })

/-- R103: TX_DATA, enabled, pushes as many bytes from HEAD as there is room for and are left, and when
none are left then disables itself and keeps TX_DONE. -/
def Obligations.TxDataPushesUntilNoneAreLeft : Prop :=
  ∀ (s : State) (space : BitVec 16),
    (s.lineOn .txData = false → exec (.txData space) s = .next s) ∧
    (Inv s → s.lineOn .txData = true → ∃ bs,
      bs.length = min space.toNat (s.txSize.toNat - s.headNat) ∧ BytesAt s s.headNat bs ∧
      exec (.txData space) s = .next { s with
        head := s.head + bs.length
        irqEn := if s.headNat + bs.length = s.txSize.toNat then s.irqEn &&& 0xBF else s.irqEn
        outputs := s.outputs ++ (if bs = [] then [] else [.txFifoWrite bs]) ++
          (if s.headNat + bs.length = s.txSize.toNat then [.irqMask (s.irqEn &&& 0xBF)] else []) })

/-- R104: TX_DONE, enabled. Bytes left: ignored. A reply due on an enabled port: the turnaround. Else
the transmission is over and a waiting host is woken. -/
def Obligations.TxDoneTurnsRoundOrEnds : Prop :=
  ∀ s : State,
    (s.lineOn .txDone = false → exec .txDone s = .next s) ∧
    (s.lineOn .txDone = true → s.head < s.txSize.toNat → exec .txDone s = .next s) ∧
    (s.lineOn .txDone = true → (s.txSize.toNat : Int) ≤ s.head → Inv s →
      ∃ resp dub, expectsResponse s = .ok (resp, dub) ∧
        (resp = true ∧ s.flags.enabled = true →
          exec .txDone s = .next { s with
            lastSlotTs := s.lastNow
            irqEn := s.irqEn &&& 0x3F ||| 0x3F
            line := { s.line with rtsRx := true }
            head := if dub = true then 0 else -1
            rxState := if dub = true then .receiving else .waitBreak
            flags := { s.flags with hasData := false }
            timerMode := .resp
            outputs := s.outputs ++ [.irqMask (s.irqEn &&& 0x3F), .setRts .receive, .rxFifoReset,
              .irqClear 0x3F, .irqMask (s.irqEn &&& 0x3F ||| 0x3F), .timerArm s.cfg.respTimeout] }) ∧
        (¬ (resp = true ∧ s.flags.enabled = true) →
          exec .txDone s = .next { s with
            lastSlotTs := s.lastNow
            irqEn := s.irqEn &&& 0x3F
            flags := { s.flags with sending := false, sentLast := false, idle := true }
            head := -1, rxState := .waitBreak, taskWaiting := false
            outputs := s.outputs ++ [.irqMask (s.irqEn &&& 0x3F)] ++
              (if s.taskWaiting = true then [.wake false s.txSize .none .ok] else []) }))

/-- R100: which packets expect a reply: a discovery command, or a GET or SET whose destination's device
field is not all ones; the reply omits the BREAK exactly for DISC_UNIQUE_BRANCH. -/
def Obligations.RepliesAreExpectedByCommandAndDestination : Prop :=
  ∀ (s : State) (bs : List Byte), BytesAt s 0 bs → bs.length = s.txSize.toNat →
    bs.length ≤ s.cfg.bufCap →
    expectsResponse s = .ok
      (if bs.length < 24 ∨ bs.getD 0 0 ≠ 0xCC ∨ bs.getD 1 0 ≠ 0x01 then (false, false)
       else if bs.getD 20 0 = s.cfg.ccDisc then
         (true, decide ((bs.getD 21 0).toNat * 256 + (bs.getD 22 0).toNat = s.cfg.pidDub.toNat))
       else if (bs.getD 20 0 = s.cfg.ccGet ∨ bs.getD 20 0 = s.cfg.ccSet) ∧
           ¬ (bs.getD 5 0 = 0xFF ∧ bs.getD 6 0 = 0xFF ∧ bs.getD 7 0 = 0xFF ∧ bs.getD 8 0 = 0xFF) then
         (true, false)
       else (false, false))

/-- R105: ABORT ends an awaited transaction, stops its timer and wakes nobody; with no reply awaited it
returns INVALID_STATE. -/
def Obligations.AbortEndsAnAwaitedTransaction : Prop :=
  ∀ s : State,
    (¬ (s.flags.sending = true ∧ s.flags.sentLast = true ∧ s.line.rtsRx = true) →
      exec .abort s = .next { s with response := some ⟨.invalidState, 0⟩ }) ∧
    (s.flags.sending = true ∧ s.flags.sentLast = true ∧ s.line.rtsRx = true →
      exec .abort s = .next { s with
        flags := { s.flags with sending := false, sentLast := false, idle := true }
        timerMode := if s.timerMode = .resp then .off else s.timerMode
        outputs := s.outputs ++ (if s.timerMode = .resp then [.timerPause] else [])
        response := some ⟨.ok, 0⟩ })

/-- R97, R99, R102, R103: from the end of the MAB on, the bytes appended to the TX FIFO by the alarm
and any run of TX_DATA events are exactly the packet's bytes from cell 0 in order, none twice and none
left out, as many as the room given and the packet's size allow. -/
def Obligations.PacketGoesOutWholeAndInOrder : Prop :=
  ∀ (s : State) (spaces : List (BitVec 16)), Inv s → s.timerMode = .mab → s.head = 0 →
    ∃ t acts, execAll (.timerAlarm :: spaces.map .txData) s = .next t ∧
      t.outputs = s.outputs ++ acts ∧ BytesAt s 0 (fifoBytes acts) ∧
      (fifoBytes acts).length =
        min (s.cfg.txFifoCap + (spaces.map (·.toNat)).sum) s.txSize.toNat ∧
      t.head = (fifoBytes acts).length

/-! ### The sniffer -/

/-- R92, R91: GPIO_POSEDGE, not ignored: in a BREAK its width is recorded, saturated to 32 bits, and
IN_MAB replaces IN_BREAK; always the edge's time is recorded; and nothing else changes. -/
def Obligations.RisingEdgeMeasuresTheBreak : Prop :=
  ∀ s : State,
    (s.cfg.snifferPresent = false ∨ s.snifCtrl = false ∨ s.line.rtsRx = false →
      exec .gpioPosedge s = .next s) ∧
    (s.cfg.snifferPresent = true → s.snifCtrl = true → s.line.rtsRx = true →
      (s.flags.inBreak = false → exec .gpioPosedge s = .next { s with snifPosTs := s.lastNow }) ∧
      (s.flags.inBreak = true → s.snifNegTs ≤ s.lastNow →
        exec .gpioPosedge s = .next { s with
          snifBreakW :=
            BitVec.ofNat 32 (min (s.lastNow.toNat - s.snifNegTs.toNat) (2 ^ 32 - 1))
          flags := { s.flags with inBreak := false, inMab := true }
          snifPosTs := s.lastNow }))

/-- R93, R94, R91: GPIO_NEGEDGE, not ignored: in a MAB the pair of the BREAK width and the MAB width is
queued, the oldest pair dropped if the queue is full, and IN_MAB clears; always the edge's time is
recorded; and nothing else changes. -/
def Obligations.FallingEdgeQueuesThePair : Prop :=
  ∀ s : State,
    (s.cfg.snifferPresent = false ∨ s.snifCtrl = false ∨ s.line.rtsRx = false →
      exec .gpioNegedge s = .next s) ∧
    (s.cfg.snifferPresent = true → s.snifCtrl = true → s.line.rtsRx = true →
      (s.flags.inMab = false → exec .gpioNegedge s = .next { s with snifNegTs := s.lastNow }) ∧
      (s.flags.inMab = true → s.snifPosTs ≤ s.lastNow →
        exec .gpioNegedge s = .next { s with
          snifQ := (if s.snifQ.length = s.cfg.snifQDepth then s.snifQ.drop 1 else s.snifQ) ++
            [⟨s.snifBreakW,
              BitVec.ofNat 32 (min (s.lastNow.toNat - s.snifPosTs.toNat) (2 ^ 32 - 1))⟩]
          flags := { s.flags with inMab := false }
          snifNegTs := s.lastNow }))

/-- R95, R96: SNIFFER_CTRL sets SNIF_CTRL and keeps all else; SNIFFER_POP removes and returns the
oldest pair as `bw * 2^32 + mw`, or returns TIMEOUT when the queue is empty; with the unit absent both
return INVALID_STATE. -/
def Obligations.SnifferCommandsSwitchAndPop : Prop :=
  ∀ s : State,
    (s.cfg.snifferPresent = false →
      (∀ b, exec (.snifferCtrl b) s = .next { s with response := some ⟨.invalidState, 0⟩ }) ∧
      exec .snifferPop s = .next { s with response := some ⟨.invalidState, 0⟩ }) ∧
    (s.cfg.snifferPresent = true →
      (∀ b, exec (.snifferCtrl b) s =
        .next { s with snifCtrl := b, response := some ⟨.ok, 0⟩ }) ∧
      (s.snifQ = [] → exec .snifferPop s = .next { s with response := some ⟨.timeout, 0⟩ }) ∧
      (∀ p rest, s.snifQ = p :: rest → ∃ v : BitVec 64,
        v.toNat = p.breakW.toNat * 2 ^ 32 + p.mabW.toNat ∧
        exec .snifferPop s = .next { s with snifQ := rest, response := some ⟨.ok, v⟩ }))

/-! ### Timing windows and the host -/

/-- R109 to R112: in every state each setter stores the nearest value of its window (which is not
empty), returns the value it stored, and changes nothing else; SET_BAUD also emits it. -/
def Obligations.SettersClampAndReturnTheAppliedValue : Prop :=
  ∀ (s : State) (v : BitVec 32), s.cfg.breakMin ≤ s.cfg.breakMax → s.cfg.mabMin ≤ s.cfg.mabMax →
    s.cfg.baudMin ≤ s.cfg.baudMax → ∃ b m r : BitVec 32,
    b.toNat = max s.cfg.breakMin.toNat (min v.toNat s.cfg.breakMax.toNat) ∧
    m.toNat = max s.cfg.mabMin.toNat (min v.toNat s.cfg.mabMax.toNat) ∧
    r.toNat = max s.cfg.baudMin.toNat (min v.toNat s.cfg.baudMax.toNat) ∧
    exec (.setBreakLen v) s =
      .next { s with breakLen := b, response := some ⟨.ok, BitVec.ofNat 64 b.toNat⟩ } ∧
    exec (.setMabLen v) s =
      .next { s with mabLen := m, response := some ⟨.ok, BitVec.ofNat 64 m.toNat⟩ } ∧
    exec (.setBaud v) s =
      .next { s with
        baud := r, outputs := s.outputs ++ [.setBaud r]
        response := some ⟨.ok, BitVec.ofNat 64 r.toNat⟩ }

/-- R126: ENABLE on an enabled port changes nothing. On a disabled one it sets ENABLED and clears
HAS_DATA; unless the block drives the bus it waits for a fresh BREAK; and if the transceiver is in
receive it clears and unmasks the RX lines. -/
def Obligations.EnableRestoresReception : Prop :=
  ∀ s : State,
    (s.flags.enabled = true → exec .enable s = .next { s with response := some ⟨.ok, 0⟩ }) ∧
    (s.flags.enabled = false → exec .enable s = .next { s with
      flags := { s.flags with enabled := true, hasData := false }
      head := if s.flags.sending = true ∧ s.line.rtsRx = false then s.head else -1
      rxState := if s.flags.sending = true ∧ s.line.rtsRx = false then s.rxState else .waitBreak
      irqEn := if s.line.rtsRx = true then s.irqEn ||| 0x3F else s.irqEn
      outputs := s.outputs ++
        (if s.line.rtsRx = true then [.irqClear 0x3F, .irqMask (s.irqEn ||| 0x3F)] else [])
      response := some ⟨.ok, 0⟩ })

/-- R127, R107: DISABLE on a disabled port changes nothing. On an enabled one it clears ENABLED, masks
the RX lines and wakes a waiting host with no packet; the transmit lines, the timer, the packet record
and the buffer are kept. -/
def Obligations.DisableMasksReceptionOnly : Prop :=
  ∀ s : State,
    (s.flags.enabled = false → exec .disable s = .next { s with response := some ⟨.ok, 0⟩ }) ∧
    (s.flags.enabled = true → exec .disable s = .next { s with
      flags := { s.flags with enabled := false }
      irqEn := s.irqEn &&& 0xC0
      taskWaiting := false
      outputs := s.outputs ++ [.irqMask (s.irqEn &&& 0xC0)] ++
        (if s.taskWaiting = true then [.wake false 0 .none .ok] else [])
      response := some ⟨.ok, 0⟩ })

/-- R128, R140: BUF_WRITE's checks in their order, and, when they pass, the one cell it writes: the cell
reads as the byte, every other cell as before, and nothing else changes. -/
def Obligations.BufWriteStoresOneByte : Prop :=
  ∀ (s : State) (addr : BitVec 16) (data : Byte),
    (s.cfg.bufCap ≤ addr.toNat →
      exec (.bufWrite addr data) s = .next { s with response := some ⟨.invalidArg, 0⟩ }) ∧
    (addr.toNat < s.cfg.bufCap → s.flags.sending = true →
      exec (.bufWrite addr data) s = .next { s with response := some ⟨.invalidState, 0⟩ }) ∧
    (addr.toNat < s.cfg.bufCap → s.flags.sending = false →
      ∃ t, exec (.bufWrite addr data) s = .next t ∧
        cellAt t.buf addr.toNat = some data ∧
        (∀ a, a ≠ addr.toNat → cellAt t.buf a = cellAt s.buf a) ∧
        (Memory.wf s.cfg.bufCap s.buf = true → Memory.wf s.cfg.bufCap t.buf = true) ∧
        t = { s with buf := t.buf, response := some ⟨.ok, 0⟩ })

/-- R129, R40: BUF_READ returns the byte of a written cell, faults on an unwritten one, returns
INVALID_ARG past the buffer, and changes nothing else. -/
def Obligations.BufReadReturnsTheByteOrFaults : Prop :=
  ∀ (s : State) (addr : BitVec 16),
    (s.cfg.bufCap ≤ addr.toNat →
      exec (.bufRead addr) s = .next { s with response := some ⟨.invalidArg, 0⟩ }) ∧
    (addr.toNat < s.cfg.bufCap →
      (cellAt s.buf addr.toNat = none → exec (.bufRead addr) s = .fault (.unwritten addr.toNat)) ∧
      (∀ b, cellAt s.buf addr.toNat = some b →
        exec (.bufRead addr) s =
          .next { s with response := some ⟨.ok, BitVec.ofNat 64 b.toNat⟩ }))

/-- R130: RX_ARM returns INVALID_STATE on a disabled or sending port; changes nothing when the
transceiver is in receive; else turns it round, resets the RX FIFO, unmasks the RX lines and waits for
a BREAK. -/
def Obligations.RxArmTurnsTheTransceiver : Prop :=
  ∀ s : State,
    (s.flags.enabled = false ∨ s.flags.sending = true →
      exec .rxArm s = .next { s with response := some ⟨.invalidState, 0⟩ }) ∧
    (s.flags.enabled = true → s.flags.sending = false →
      (s.line.rtsRx = true → exec .rxArm s = .next { s with response := some ⟨.ok, 0⟩ }) ∧
      (s.line.rtsRx = false → exec .rxArm s = .next { s with
        line := { s.line with rtsRx := true }
        irqEn := s.irqEn ||| 0x3F
        head := -1, rxState := .waitBreak
        flags := { s.flags with hasData := false }
        outputs := s.outputs ++ [.setRts .receive, .rxFifoReset, .irqClear 0x3F,
          .irqMask (s.irqEn ||| 0x3F)]
        response := some ⟨.ok, 0⟩ }))

/-- R131, R132: WAIT sets the token, or wakes at once when its condition holds (a packet for RX, IDLE
for IDLE); WAIT_CANCEL clears the token and wakes nobody. -/
def Obligations.WaitSetsTheTokenOrWakesAtOnce : Prop :=
  ∀ s : State,
    (s.flags.hasData = true → exec (.wait .rx) s = .next { s with
      taskWaiting := false
      outputs := s.outputs ++ [.wake true s.pktSize s.pktKind s.pktErr]
      response := some ⟨.ok, 0⟩ }) ∧
    (s.flags.hasData = false →
      exec (.wait .rx) s = .next { s with taskWaiting := true, response := some ⟨.ok, 0⟩ }) ∧
    (s.flags.idle = true → exec (.wait .idle) s = .next { s with
      taskWaiting := false
      outputs := s.outputs ++ [.wake false 0 .none .ok]
      response := some ⟨.ok, 0⟩ }) ∧
    (s.flags.idle = false →
      exec (.wait .idle) s = .next { s with taskWaiting := true, response := some ⟨.ok, 0⟩ }) ∧
    exec .waitCancel s = .next { s with taskWaiting := false, response := some ⟨.ok, 0⟩ }

/-- R133, R134: RX_CONSUME returns `HAS_DATA * 2^32 + PKT_ERR * 2^24 + PKT_KIND * 2^16 + PKT_SIZE`, with
the numbers R138 and R27 give, and clears HAS_DATA; SET_TN stores any value; and nothing else changes. -/
def Obligations.ConsumeReturnsTheRecordAndSetTnStores : Prop :=
  ∀ s : State,
    (∀ x ∈ pktKindNumbers, ∀ y ∈ errCodeNumbers, s.pktKind = x.1 → s.pktErr = y.1 →
      ∃ v : BitVec 64,
        v.toNat = s.flags.hasData.toNat * 2 ^ 32 + y.2 * 2 ^ 24 + x.2 * 2 ^ 16 + s.pktSize.toNat ∧
        exec .rxConsume s = .next { s with
          flags := { s.flags with hasData := false }, response := some ⟨.ok, v⟩ }) ∧
    (∀ v, exec (.setTn v) s = .next { s with tn := v, response := some ⟨.ok, 0⟩ })

/-- R135, R16: READ_REG of each of the 22 register numbers returns that register's bit pattern as an
unsigned number (RX_STATE, TIMER_MODE, PKT_KIND and PKT_ERR as R23, R24, R27 and R138 number them; HEAD
modulo 2^HEAD_BITS; SNIF_QCOUNT, 8 bits wide, the length of a queue of up to 255 pairs), a number from
0x16 on returns INVALID_ARG, and nothing else changes. -/
def Obligations.ReadRegReturnsEachRegister : Prop :=
  ∀ s : State,
    (∀ x ∈ ([(0x00, s.flags.enabled.toNat + 2 * s.flags.idle.toNat + 4 * s.flags.sending.toNat +
          8 * s.flags.sentLast.toNat + 16 * s.flags.inBreak.toNat + 32 * s.flags.inMab.toNat +
          64 * s.flags.hasData.toNat),
        (0x02, (s.head % 2 ^ s.cfg.headBits).toNat), (0x03, s.txSize.toNat),
        (0x04, s.rxSize.toNat), (0x05, s.breakLen.toNat), (0x06, s.mabLen.toNat),
        (0x07, s.baud.toNat), (0x08, s.lastSlotTs.toNat), (0x09, s.tn.toNat),
        (0x0A, s.pktSize.toNat), (0x0E, s.irqEn.toNat),
        (0x0F, s.line.rtsRx.toNat + 2 * s.line.txInvert.toNat), (0x10, s.taskWaiting.toNat),
        (0x11, s.snifCtrl.toNat), (0x12, s.snifNegTs.toNat), (0x13, s.snifPosTs.toNat),
        (0x14, s.snifBreakW.toNat)] : List (Byte × Nat)),
      exec (.readReg x.1) s =
        .next { s with response := some ⟨.ok, BitVec.ofNat 64 x.2⟩ }) ∧
    (∀ x ∈ rxStateNumbers, s.rxState = x.1 →
      exec (.readReg 0x01) s = .next { s with response := some ⟨.ok, BitVec.ofNat 64 x.2⟩ }) ∧
    (∀ x ∈ pktKindNumbers, s.pktKind = x.1 →
      exec (.readReg 0x0B) s = .next { s with response := some ⟨.ok, BitVec.ofNat 64 x.2⟩ }) ∧
    (∀ x ∈ errCodeNumbers, s.pktErr = x.1 →
      exec (.readReg 0x0C) s = .next { s with response := some ⟨.ok, BitVec.ofNat 64 x.2⟩ }) ∧
    (∀ x ∈ timerModeNumbers, s.timerMode = x.1 →
      exec (.readReg 0x0D) s = .next { s with response := some ⟨.ok, BitVec.ofNat 64 x.2⟩ }) ∧
    (s.snifQ.length < 256 → exec (.readReg 0x15) s =
      .next { s with response := some ⟨.ok, BitVec.ofNat 64 s.snifQ.length⟩ }) ∧
    (∀ r : Byte, 0x16 ≤ r.toNat →
      exec (.readReg r) s = .next { s with response := some ⟨.invalidArg, 0⟩ })

/-- R155: every value the rule's table gives, under the default parameters, and the eight actions in
their order. BREAK_LEN 176 and MAB_LEN 12 are what R155 marks as general knowledge, not the source's
(PRESUMED, assumption log 13). -/
def Obligations.ResetLeavesTheStatedValues : Prop :=
  State.reset.flags.bits = 0x03 ∧ State.reset.rxState = .waitBreak ∧ State.reset.head = -1 ∧
  State.reset.txSize = 0 ∧ State.reset.rxSize = 513 ∧ State.reset.breakLen = 176 ∧
  State.reset.mabLen = 12 ∧ State.reset.baud = 250000 ∧ State.reset.lastSlotTs = 0 ∧
  State.reset.tn = 0 ∧ State.reset.pktSize = 0 ∧ State.reset.pktKind = .none ∧
  State.reset.pktErr = .ok ∧ State.reset.timerMode = .off ∧ State.reset.irqEn = 0x3F ∧
  State.reset.line.bits = 0x1 ∧ State.reset.taskWaiting = false ∧ State.reset.snifCtrl = false ∧
  State.reset.snifNegTs = 0 ∧ State.reset.snifPosTs = 0 ∧ State.reset.snifBreakW = 0 ∧
  State.reset.snifQ = [] ∧ (∀ a, cellAt State.reset.buf a = none) ∧ State.reset.lastNow = 0 ∧
  State.reset.outputs = [.setBaud 250000, .setRts .receive, .setTxInvert false, .rxFifoReset,
    .txFifoReset, .timerPause, .irqClear 0xFF, .irqMask 0x3F]
end

