-- ==== Sys2Proof/Laws/State.lean ====
section
/-! SUPPORT. What each named register update leaves in each field of the state: one lemma per field per
update. -/

namespace Sys2Proof.Machine

variable (s : State)

/-! ### emit -/

@[simp] theorem State.emit_cfg (a : Action) : (s.emit a).cfg = s.cfg := rfl
@[simp] theorem State.emit_flags (a : Action) : (s.emit a).flags = s.flags := rfl
@[simp] theorem State.emit_rxState (a : Action) : (s.emit a).rxState = s.rxState := rfl
@[simp] theorem State.emit_head (a : Action) : (s.emit a).head = s.head := rfl
@[simp] theorem State.emit_txSize (a : Action) : (s.emit a).txSize = s.txSize := rfl
@[simp] theorem State.emit_rxSize (a : Action) : (s.emit a).rxSize = s.rxSize := rfl
@[simp] theorem State.emit_breakLen (a : Action) : (s.emit a).breakLen = s.breakLen := rfl
@[simp] theorem State.emit_mabLen (a : Action) : (s.emit a).mabLen = s.mabLen := rfl
@[simp] theorem State.emit_baud (a : Action) : (s.emit a).baud = s.baud := rfl
@[simp] theorem State.emit_lastSlotTs (a : Action) : (s.emit a).lastSlotTs = s.lastSlotTs := rfl
@[simp] theorem State.emit_tn (a : Action) : (s.emit a).tn = s.tn := rfl
@[simp] theorem State.emit_pktSize (a : Action) : (s.emit a).pktSize = s.pktSize := rfl
@[simp] theorem State.emit_pktKind (a : Action) : (s.emit a).pktKind = s.pktKind := rfl
@[simp] theorem State.emit_pktErr (a : Action) : (s.emit a).pktErr = s.pktErr := rfl
@[simp] theorem State.emit_timerMode (a : Action) : (s.emit a).timerMode = s.timerMode := rfl
@[simp] theorem State.emit_irqEn (a : Action) : (s.emit a).irqEn = s.irqEn := rfl
@[simp] theorem State.emit_line (a : Action) : (s.emit a).line = s.line := rfl
@[simp] theorem State.emit_taskWaiting (a : Action) : (s.emit a).taskWaiting = s.taskWaiting := rfl
@[simp] theorem State.emit_snifCtrl (a : Action) : (s.emit a).snifCtrl = s.snifCtrl := rfl
@[simp] theorem State.emit_snifNegTs (a : Action) : (s.emit a).snifNegTs = s.snifNegTs := rfl
@[simp] theorem State.emit_snifPosTs (a : Action) : (s.emit a).snifPosTs = s.snifPosTs := rfl
@[simp] theorem State.emit_snifBreakW (a : Action) : (s.emit a).snifBreakW = s.snifBreakW := rfl
@[simp] theorem State.emit_snifQ (a : Action) : (s.emit a).snifQ = s.snifQ := rfl
@[simp] theorem State.emit_buf (a : Action) : (s.emit a).buf = s.buf := rfl
@[simp] theorem State.emit_lastNow (a : Action) : (s.emit a).lastNow = s.lastNow := rfl
@[simp] theorem State.emit_input (a : Action) : (s.emit a).input = s.input := rfl
@[simp] theorem State.emit_outputs (a : Action) : (s.emit a).outputs = s.outputs ++ [a] := rfl
@[simp] theorem State.emit_response (a : Action) : (s.emit a).response = s.response := rfl

/-! ### respond -/

@[simp] theorem State.respond_cfg (st : ErrCode) (v : BitVec 64) :
    (s.respond st v).cfg = s.cfg := rfl
@[simp] theorem State.respond_flags (st : ErrCode) (v : BitVec 64) :
    (s.respond st v).flags = s.flags := rfl
@[simp] theorem State.respond_rxState (st : ErrCode) (v : BitVec 64) :
    (s.respond st v).rxState = s.rxState := rfl
@[simp] theorem State.respond_head (st : ErrCode) (v : BitVec 64) :
    (s.respond st v).head = s.head := rfl
@[simp] theorem State.respond_txSize (st : ErrCode) (v : BitVec 64) :
    (s.respond st v).txSize = s.txSize := rfl
@[simp] theorem State.respond_rxSize (st : ErrCode) (v : BitVec 64) :
    (s.respond st v).rxSize = s.rxSize := rfl
@[simp] theorem State.respond_breakLen (st : ErrCode) (v : BitVec 64) :
    (s.respond st v).breakLen = s.breakLen := rfl
@[simp] theorem State.respond_mabLen (st : ErrCode) (v : BitVec 64) :
    (s.respond st v).mabLen = s.mabLen := rfl
@[simp] theorem State.respond_baud (st : ErrCode) (v : BitVec 64) :
    (s.respond st v).baud = s.baud := rfl
@[simp] theorem State.respond_lastSlotTs (st : ErrCode) (v : BitVec 64) :
    (s.respond st v).lastSlotTs = s.lastSlotTs := rfl
@[simp] theorem State.respond_tn (st : ErrCode) (v : BitVec 64) : (s.respond st v).tn = s.tn := rfl
@[simp] theorem State.respond_pktSize (st : ErrCode) (v : BitVec 64) :
    (s.respond st v).pktSize = s.pktSize := rfl
@[simp] theorem State.respond_pktKind (st : ErrCode) (v : BitVec 64) :
    (s.respond st v).pktKind = s.pktKind := rfl
@[simp] theorem State.respond_pktErr (st : ErrCode) (v : BitVec 64) :
    (s.respond st v).pktErr = s.pktErr := rfl
@[simp] theorem State.respond_timerMode (st : ErrCode) (v : BitVec 64) :
    (s.respond st v).timerMode = s.timerMode := rfl
@[simp] theorem State.respond_irqEn (st : ErrCode) (v : BitVec 64) :
    (s.respond st v).irqEn = s.irqEn := rfl
@[simp] theorem State.respond_line (st : ErrCode) (v : BitVec 64) :
    (s.respond st v).line = s.line := rfl
@[simp] theorem State.respond_taskWaiting (st : ErrCode) (v : BitVec 64) :
    (s.respond st v).taskWaiting = s.taskWaiting := rfl
@[simp] theorem State.respond_snifCtrl (st : ErrCode) (v : BitVec 64) :
    (s.respond st v).snifCtrl = s.snifCtrl := rfl
@[simp] theorem State.respond_snifNegTs (st : ErrCode) (v : BitVec 64) :
    (s.respond st v).snifNegTs = s.snifNegTs := rfl
@[simp] theorem State.respond_snifPosTs (st : ErrCode) (v : BitVec 64) :
    (s.respond st v).snifPosTs = s.snifPosTs := rfl
@[simp] theorem State.respond_snifBreakW (st : ErrCode) (v : BitVec 64) :
    (s.respond st v).snifBreakW = s.snifBreakW := rfl
@[simp] theorem State.respond_snifQ (st : ErrCode) (v : BitVec 64) :
    (s.respond st v).snifQ = s.snifQ := rfl
@[simp] theorem State.respond_buf (st : ErrCode) (v : BitVec 64) :
    (s.respond st v).buf = s.buf := rfl
@[simp] theorem State.respond_lastNow (st : ErrCode) (v : BitVec 64) :
    (s.respond st v).lastNow = s.lastNow := rfl
@[simp] theorem State.respond_input (st : ErrCode) (v : BitVec 64) :
    (s.respond st v).input = s.input := rfl
@[simp] theorem State.respond_outputs (st : ErrCode) (v : BitVec 64) :
    (s.respond st v).outputs = s.outputs := rfl
@[simp] theorem State.respond_response (st : ErrCode) (v : BitVec 64) :
    (s.respond st v).response = some { status := st, value := v } := rfl

/-! ### store -/

@[simp] theorem State.store_cfg (a : Nat) (v : Byte) : (s.store a v).cfg = s.cfg := rfl
@[simp] theorem State.store_flags (a : Nat) (v : Byte) : (s.store a v).flags = s.flags := rfl
@[simp] theorem State.store_rxState (a : Nat) (v : Byte) : (s.store a v).rxState = s.rxState := rfl
@[simp] theorem State.store_head (a : Nat) (v : Byte) : (s.store a v).head = s.head := rfl
@[simp] theorem State.store_txSize (a : Nat) (v : Byte) : (s.store a v).txSize = s.txSize := rfl
@[simp] theorem State.store_rxSize (a : Nat) (v : Byte) : (s.store a v).rxSize = s.rxSize := rfl
@[simp] theorem State.store_breakLen (a : Nat) (v : Byte) :
    (s.store a v).breakLen = s.breakLen := rfl
@[simp] theorem State.store_mabLen (a : Nat) (v : Byte) : (s.store a v).mabLen = s.mabLen := rfl
@[simp] theorem State.store_baud (a : Nat) (v : Byte) : (s.store a v).baud = s.baud := rfl
@[simp] theorem State.store_lastSlotTs (a : Nat) (v : Byte) :
    (s.store a v).lastSlotTs = s.lastSlotTs := rfl
@[simp] theorem State.store_tn (a : Nat) (v : Byte) : (s.store a v).tn = s.tn := rfl
@[simp] theorem State.store_pktSize (a : Nat) (v : Byte) : (s.store a v).pktSize = s.pktSize := rfl
@[simp] theorem State.store_pktKind (a : Nat) (v : Byte) : (s.store a v).pktKind = s.pktKind := rfl
@[simp] theorem State.store_pktErr (a : Nat) (v : Byte) : (s.store a v).pktErr = s.pktErr := rfl
@[simp] theorem State.store_timerMode (a : Nat) (v : Byte) :
    (s.store a v).timerMode = s.timerMode := rfl
@[simp] theorem State.store_irqEn (a : Nat) (v : Byte) : (s.store a v).irqEn = s.irqEn := rfl
@[simp] theorem State.store_line (a : Nat) (v : Byte) : (s.store a v).line = s.line := rfl
@[simp] theorem State.store_taskWaiting (a : Nat) (v : Byte) :
    (s.store a v).taskWaiting = s.taskWaiting := rfl
@[simp] theorem State.store_snifCtrl (a : Nat) (v : Byte) :
    (s.store a v).snifCtrl = s.snifCtrl := rfl
@[simp] theorem State.store_snifNegTs (a : Nat) (v : Byte) :
    (s.store a v).snifNegTs = s.snifNegTs := rfl
@[simp] theorem State.store_snifPosTs (a : Nat) (v : Byte) :
    (s.store a v).snifPosTs = s.snifPosTs := rfl
@[simp] theorem State.store_snifBreakW (a : Nat) (v : Byte) :
    (s.store a v).snifBreakW = s.snifBreakW := rfl
@[simp] theorem State.store_snifQ (a : Nat) (v : Byte) : (s.store a v).snifQ = s.snifQ := rfl
@[simp] theorem State.store_buf (a : Nat) (v : Byte) : (s.store a v).buf = putCell s.buf a v := rfl
@[simp] theorem State.store_lastNow (a : Nat) (v : Byte) : (s.store a v).lastNow = s.lastNow := rfl
@[simp] theorem State.store_input (a : Nat) (v : Byte) : (s.store a v).input = s.input := rfl
@[simp] theorem State.store_outputs (a : Nat) (v : Byte) : (s.store a v).outputs = s.outputs := rfl
@[simp] theorem State.store_response (a : Nat) (v : Byte) :
    (s.store a v).response = s.response := rfl

/-! ### setFlags -/

@[simp] theorem State.setFlags_cfg (f : Flags) : (s.setFlags f).cfg = s.cfg := rfl
@[simp] theorem State.setFlags_flags (f : Flags) : (s.setFlags f).flags = f := rfl
@[simp] theorem State.setFlags_rxState (f : Flags) : (s.setFlags f).rxState = s.rxState := rfl
@[simp] theorem State.setFlags_head (f : Flags) : (s.setFlags f).head = s.head := rfl
@[simp] theorem State.setFlags_txSize (f : Flags) : (s.setFlags f).txSize = s.txSize := rfl
@[simp] theorem State.setFlags_rxSize (f : Flags) : (s.setFlags f).rxSize = s.rxSize := rfl
@[simp] theorem State.setFlags_breakLen (f : Flags) : (s.setFlags f).breakLen = s.breakLen := rfl
@[simp] theorem State.setFlags_mabLen (f : Flags) : (s.setFlags f).mabLen = s.mabLen := rfl
@[simp] theorem State.setFlags_baud (f : Flags) : (s.setFlags f).baud = s.baud := rfl
@[simp] theorem State.setFlags_lastSlotTs (f : Flags) :
    (s.setFlags f).lastSlotTs = s.lastSlotTs := rfl
@[simp] theorem State.setFlags_tn (f : Flags) : (s.setFlags f).tn = s.tn := rfl
@[simp] theorem State.setFlags_pktSize (f : Flags) : (s.setFlags f).pktSize = s.pktSize := rfl
@[simp] theorem State.setFlags_pktKind (f : Flags) : (s.setFlags f).pktKind = s.pktKind := rfl
@[simp] theorem State.setFlags_pktErr (f : Flags) : (s.setFlags f).pktErr = s.pktErr := rfl
@[simp] theorem State.setFlags_timerMode (f : Flags) : (s.setFlags f).timerMode = s.timerMode := rfl
@[simp] theorem State.setFlags_irqEn (f : Flags) : (s.setFlags f).irqEn = s.irqEn := rfl
@[simp] theorem State.setFlags_line (f : Flags) : (s.setFlags f).line = s.line := rfl
@[simp] theorem State.setFlags_taskWaiting (f : Flags) :
    (s.setFlags f).taskWaiting = s.taskWaiting := rfl
@[simp] theorem State.setFlags_snifCtrl (f : Flags) : (s.setFlags f).snifCtrl = s.snifCtrl := rfl
@[simp] theorem State.setFlags_snifNegTs (f : Flags) : (s.setFlags f).snifNegTs = s.snifNegTs := rfl
@[simp] theorem State.setFlags_snifPosTs (f : Flags) : (s.setFlags f).snifPosTs = s.snifPosTs := rfl
@[simp] theorem State.setFlags_snifBreakW (f : Flags) :
    (s.setFlags f).snifBreakW = s.snifBreakW := rfl
@[simp] theorem State.setFlags_snifQ (f : Flags) : (s.setFlags f).snifQ = s.snifQ := rfl
@[simp] theorem State.setFlags_buf (f : Flags) : (s.setFlags f).buf = s.buf := rfl
@[simp] theorem State.setFlags_lastNow (f : Flags) : (s.setFlags f).lastNow = s.lastNow := rfl
@[simp] theorem State.setFlags_input (f : Flags) : (s.setFlags f).input = s.input := rfl
@[simp] theorem State.setFlags_outputs (f : Flags) : (s.setFlags f).outputs = s.outputs := rfl
@[simp] theorem State.setFlags_response (f : Flags) : (s.setFlags f).response = s.response := rfl

/-! ### setRx -/

@[simp] theorem State.setRx_cfg (h : Int) (r : RxState) : (s.setRx h r).cfg = s.cfg := rfl
@[simp] theorem State.setRx_flags (h : Int) (r : RxState) : (s.setRx h r).flags = s.flags := rfl
@[simp] theorem State.setRx_rxState (h : Int) (r : RxState) : (s.setRx h r).rxState = r := rfl
@[simp] theorem State.setRx_head (h : Int) (r : RxState) : (s.setRx h r).head = h := rfl
@[simp] theorem State.setRx_txSize (h : Int) (r : RxState) : (s.setRx h r).txSize = s.txSize := rfl
@[simp] theorem State.setRx_rxSize (h : Int) (r : RxState) : (s.setRx h r).rxSize = s.rxSize := rfl
@[simp] theorem State.setRx_breakLen (h : Int) (r : RxState) :
    (s.setRx h r).breakLen = s.breakLen := rfl
@[simp] theorem State.setRx_mabLen (h : Int) (r : RxState) : (s.setRx h r).mabLen = s.mabLen := rfl
@[simp] theorem State.setRx_baud (h : Int) (r : RxState) : (s.setRx h r).baud = s.baud := rfl
@[simp] theorem State.setRx_lastSlotTs (h : Int) (r : RxState) :
    (s.setRx h r).lastSlotTs = s.lastSlotTs := rfl
@[simp] theorem State.setRx_tn (h : Int) (r : RxState) : (s.setRx h r).tn = s.tn := rfl
@[simp] theorem State.setRx_pktSize (h : Int) (r : RxState) :
    (s.setRx h r).pktSize = s.pktSize := rfl
@[simp] theorem State.setRx_pktKind (h : Int) (r : RxState) :
    (s.setRx h r).pktKind = s.pktKind := rfl
@[simp] theorem State.setRx_pktErr (h : Int) (r : RxState) : (s.setRx h r).pktErr = s.pktErr := rfl
@[simp] theorem State.setRx_timerMode (h : Int) (r : RxState) :
    (s.setRx h r).timerMode = s.timerMode := rfl
@[simp] theorem State.setRx_irqEn (h : Int) (r : RxState) : (s.setRx h r).irqEn = s.irqEn := rfl
@[simp] theorem State.setRx_line (h : Int) (r : RxState) : (s.setRx h r).line = s.line := rfl
@[simp] theorem State.setRx_taskWaiting (h : Int) (r : RxState) :
    (s.setRx h r).taskWaiting = s.taskWaiting := rfl
@[simp] theorem State.setRx_snifCtrl (h : Int) (r : RxState) :
    (s.setRx h r).snifCtrl = s.snifCtrl := rfl
@[simp] theorem State.setRx_snifNegTs (h : Int) (r : RxState) :
    (s.setRx h r).snifNegTs = s.snifNegTs := rfl
@[simp] theorem State.setRx_snifPosTs (h : Int) (r : RxState) :
    (s.setRx h r).snifPosTs = s.snifPosTs := rfl
@[simp] theorem State.setRx_snifBreakW (h : Int) (r : RxState) :
    (s.setRx h r).snifBreakW = s.snifBreakW := rfl
@[simp] theorem State.setRx_snifQ (h : Int) (r : RxState) : (s.setRx h r).snifQ = s.snifQ := rfl
@[simp] theorem State.setRx_buf (h : Int) (r : RxState) : (s.setRx h r).buf = s.buf := rfl
@[simp] theorem State.setRx_lastNow (h : Int) (r : RxState) :
    (s.setRx h r).lastNow = s.lastNow := rfl
@[simp] theorem State.setRx_input (h : Int) (r : RxState) : (s.setRx h r).input = s.input := rfl
@[simp] theorem State.setRx_outputs (h : Int) (r : RxState) :
    (s.setRx h r).outputs = s.outputs := rfl
@[simp] theorem State.setRx_response (h : Int) (r : RxState) :
    (s.setRx h r).response = s.response := rfl

/-! ### setHead -/

@[simp] theorem State.setHead_cfg (h : Int) : (s.setHead h).cfg = s.cfg := rfl
@[simp] theorem State.setHead_flags (h : Int) : (s.setHead h).flags = s.flags := rfl
@[simp] theorem State.setHead_rxState (h : Int) : (s.setHead h).rxState = s.rxState := rfl
@[simp] theorem State.setHead_head (h : Int) : (s.setHead h).head = s.toHead h := rfl
@[simp] theorem State.setHead_txSize (h : Int) : (s.setHead h).txSize = s.txSize := rfl
@[simp] theorem State.setHead_rxSize (h : Int) : (s.setHead h).rxSize = s.rxSize := rfl
@[simp] theorem State.setHead_breakLen (h : Int) : (s.setHead h).breakLen = s.breakLen := rfl
@[simp] theorem State.setHead_mabLen (h : Int) : (s.setHead h).mabLen = s.mabLen := rfl
@[simp] theorem State.setHead_baud (h : Int) : (s.setHead h).baud = s.baud := rfl
@[simp] theorem State.setHead_lastSlotTs (h : Int) : (s.setHead h).lastSlotTs = s.lastSlotTs := rfl
@[simp] theorem State.setHead_tn (h : Int) : (s.setHead h).tn = s.tn := rfl
@[simp] theorem State.setHead_pktSize (h : Int) : (s.setHead h).pktSize = s.pktSize := rfl
@[simp] theorem State.setHead_pktKind (h : Int) : (s.setHead h).pktKind = s.pktKind := rfl
@[simp] theorem State.setHead_pktErr (h : Int) : (s.setHead h).pktErr = s.pktErr := rfl
@[simp] theorem State.setHead_timerMode (h : Int) : (s.setHead h).timerMode = s.timerMode := rfl
@[simp] theorem State.setHead_irqEn (h : Int) : (s.setHead h).irqEn = s.irqEn := rfl
@[simp] theorem State.setHead_line (h : Int) : (s.setHead h).line = s.line := rfl
@[simp] theorem State.setHead_taskWaiting (h : Int) :
    (s.setHead h).taskWaiting = s.taskWaiting := rfl
@[simp] theorem State.setHead_snifCtrl (h : Int) : (s.setHead h).snifCtrl = s.snifCtrl := rfl
@[simp] theorem State.setHead_snifNegTs (h : Int) : (s.setHead h).snifNegTs = s.snifNegTs := rfl
@[simp] theorem State.setHead_snifPosTs (h : Int) : (s.setHead h).snifPosTs = s.snifPosTs := rfl
@[simp] theorem State.setHead_snifBreakW (h : Int) : (s.setHead h).snifBreakW = s.snifBreakW := rfl
@[simp] theorem State.setHead_snifQ (h : Int) : (s.setHead h).snifQ = s.snifQ := rfl
@[simp] theorem State.setHead_buf (h : Int) : (s.setHead h).buf = s.buf := rfl
@[simp] theorem State.setHead_lastNow (h : Int) : (s.setHead h).lastNow = s.lastNow := rfl
@[simp] theorem State.setHead_input (h : Int) : (s.setHead h).input = s.input := rfl
@[simp] theorem State.setHead_outputs (h : Int) : (s.setHead h).outputs = s.outputs := rfl
@[simp] theorem State.setHead_response (h : Int) : (s.setHead h).response = s.response := rfl

/-! ### setPkt -/

@[simp] theorem State.setPkt_cfg (n : BitVec 16) (k : PktKind) (e : ErrCode) :
    (s.setPkt n k e).cfg = s.cfg := rfl
@[simp] theorem State.setPkt_flags (n : BitVec 16) (k : PktKind) (e : ErrCode) :
    (s.setPkt n k e).flags = s.flags := rfl
@[simp] theorem State.setPkt_rxState (n : BitVec 16) (k : PktKind) (e : ErrCode) :
    (s.setPkt n k e).rxState = s.rxState := rfl
@[simp] theorem State.setPkt_head (n : BitVec 16) (k : PktKind) (e : ErrCode) :
    (s.setPkt n k e).head = s.head := rfl
@[simp] theorem State.setPkt_txSize (n : BitVec 16) (k : PktKind) (e : ErrCode) :
    (s.setPkt n k e).txSize = s.txSize := rfl
@[simp] theorem State.setPkt_rxSize (n : BitVec 16) (k : PktKind) (e : ErrCode) :
    (s.setPkt n k e).rxSize = s.rxSize := rfl
@[simp] theorem State.setPkt_breakLen (n : BitVec 16) (k : PktKind) (e : ErrCode) :
    (s.setPkt n k e).breakLen = s.breakLen := rfl
@[simp] theorem State.setPkt_mabLen (n : BitVec 16) (k : PktKind) (e : ErrCode) :
    (s.setPkt n k e).mabLen = s.mabLen := rfl
@[simp] theorem State.setPkt_baud (n : BitVec 16) (k : PktKind) (e : ErrCode) :
    (s.setPkt n k e).baud = s.baud := rfl
@[simp] theorem State.setPkt_lastSlotTs (n : BitVec 16) (k : PktKind) (e : ErrCode) :
    (s.setPkt n k e).lastSlotTs = s.lastSlotTs := rfl
@[simp] theorem State.setPkt_tn (n : BitVec 16) (k : PktKind) (e : ErrCode) :
    (s.setPkt n k e).tn = s.tn := rfl
@[simp] theorem State.setPkt_pktSize (n : BitVec 16) (k : PktKind) (e : ErrCode) :
    (s.setPkt n k e).pktSize = n := rfl
@[simp] theorem State.setPkt_pktKind (n : BitVec 16) (k : PktKind) (e : ErrCode) :
    (s.setPkt n k e).pktKind = k := rfl
@[simp] theorem State.setPkt_pktErr (n : BitVec 16) (k : PktKind) (e : ErrCode) :
    (s.setPkt n k e).pktErr = e := rfl
@[simp] theorem State.setPkt_timerMode (n : BitVec 16) (k : PktKind) (e : ErrCode) :
    (s.setPkt n k e).timerMode = s.timerMode := rfl
@[simp] theorem State.setPkt_irqEn (n : BitVec 16) (k : PktKind) (e : ErrCode) :
    (s.setPkt n k e).irqEn = s.irqEn := rfl
@[simp] theorem State.setPkt_line (n : BitVec 16) (k : PktKind) (e : ErrCode) :
    (s.setPkt n k e).line = s.line := rfl
@[simp] theorem State.setPkt_taskWaiting (n : BitVec 16) (k : PktKind) (e : ErrCode) :
    (s.setPkt n k e).taskWaiting = s.taskWaiting := rfl
@[simp] theorem State.setPkt_snifCtrl (n : BitVec 16) (k : PktKind) (e : ErrCode) :
    (s.setPkt n k e).snifCtrl = s.snifCtrl := rfl
@[simp] theorem State.setPkt_snifNegTs (n : BitVec 16) (k : PktKind) (e : ErrCode) :
    (s.setPkt n k e).snifNegTs = s.snifNegTs := rfl
@[simp] theorem State.setPkt_snifPosTs (n : BitVec 16) (k : PktKind) (e : ErrCode) :
    (s.setPkt n k e).snifPosTs = s.snifPosTs := rfl
@[simp] theorem State.setPkt_snifBreakW (n : BitVec 16) (k : PktKind) (e : ErrCode) :
    (s.setPkt n k e).snifBreakW = s.snifBreakW := rfl
@[simp] theorem State.setPkt_snifQ (n : BitVec 16) (k : PktKind) (e : ErrCode) :
    (s.setPkt n k e).snifQ = s.snifQ := rfl
@[simp] theorem State.setPkt_buf (n : BitVec 16) (k : PktKind) (e : ErrCode) :
    (s.setPkt n k e).buf = s.buf := rfl
@[simp] theorem State.setPkt_lastNow (n : BitVec 16) (k : PktKind) (e : ErrCode) :
    (s.setPkt n k e).lastNow = s.lastNow := rfl
@[simp] theorem State.setPkt_input (n : BitVec 16) (k : PktKind) (e : ErrCode) :
    (s.setPkt n k e).input = s.input := rfl
@[simp] theorem State.setPkt_outputs (n : BitVec 16) (k : PktKind) (e : ErrCode) :
    (s.setPkt n k e).outputs = s.outputs := rfl
@[simp] theorem State.setPkt_response (n : BitVec 16) (k : PktKind) (e : ErrCode) :
    (s.setPkt n k e).response = s.response := rfl

/-! ### setIrq -/

@[simp] theorem State.setIrq_cfg (m : BitVec 8) : (s.setIrq m).cfg = s.cfg := rfl
@[simp] theorem State.setIrq_flags (m : BitVec 8) : (s.setIrq m).flags = s.flags := rfl
@[simp] theorem State.setIrq_rxState (m : BitVec 8) : (s.setIrq m).rxState = s.rxState := rfl
@[simp] theorem State.setIrq_head (m : BitVec 8) : (s.setIrq m).head = s.head := rfl
@[simp] theorem State.setIrq_txSize (m : BitVec 8) : (s.setIrq m).txSize = s.txSize := rfl
@[simp] theorem State.setIrq_rxSize (m : BitVec 8) : (s.setIrq m).rxSize = s.rxSize := rfl
@[simp] theorem State.setIrq_breakLen (m : BitVec 8) : (s.setIrq m).breakLen = s.breakLen := rfl
@[simp] theorem State.setIrq_mabLen (m : BitVec 8) : (s.setIrq m).mabLen = s.mabLen := rfl
@[simp] theorem State.setIrq_baud (m : BitVec 8) : (s.setIrq m).baud = s.baud := rfl
@[simp] theorem State.setIrq_lastSlotTs (m : BitVec 8) :
    (s.setIrq m).lastSlotTs = s.lastSlotTs := rfl
@[simp] theorem State.setIrq_tn (m : BitVec 8) : (s.setIrq m).tn = s.tn := rfl
@[simp] theorem State.setIrq_pktSize (m : BitVec 8) : (s.setIrq m).pktSize = s.pktSize := rfl
@[simp] theorem State.setIrq_pktKind (m : BitVec 8) : (s.setIrq m).pktKind = s.pktKind := rfl
@[simp] theorem State.setIrq_pktErr (m : BitVec 8) : (s.setIrq m).pktErr = s.pktErr := rfl
@[simp] theorem State.setIrq_timerMode (m : BitVec 8) : (s.setIrq m).timerMode = s.timerMode := rfl
@[simp] theorem State.setIrq_irqEn (m : BitVec 8) : (s.setIrq m).irqEn = m := rfl
@[simp] theorem State.setIrq_line (m : BitVec 8) : (s.setIrq m).line = s.line := rfl
@[simp] theorem State.setIrq_taskWaiting (m : BitVec 8) :
    (s.setIrq m).taskWaiting = s.taskWaiting := rfl
@[simp] theorem State.setIrq_snifCtrl (m : BitVec 8) : (s.setIrq m).snifCtrl = s.snifCtrl := rfl
@[simp] theorem State.setIrq_snifNegTs (m : BitVec 8) : (s.setIrq m).snifNegTs = s.snifNegTs := rfl
@[simp] theorem State.setIrq_snifPosTs (m : BitVec 8) : (s.setIrq m).snifPosTs = s.snifPosTs := rfl
@[simp] theorem State.setIrq_snifBreakW (m : BitVec 8) :
    (s.setIrq m).snifBreakW = s.snifBreakW := rfl
@[simp] theorem State.setIrq_snifQ (m : BitVec 8) : (s.setIrq m).snifQ = s.snifQ := rfl
@[simp] theorem State.setIrq_buf (m : BitVec 8) : (s.setIrq m).buf = s.buf := rfl
@[simp] theorem State.setIrq_lastNow (m : BitVec 8) : (s.setIrq m).lastNow = s.lastNow := rfl
@[simp] theorem State.setIrq_input (m : BitVec 8) : (s.setIrq m).input = s.input := rfl
@[simp] theorem State.setIrq_outputs (m : BitVec 8) :
    (s.setIrq m).outputs = s.outputs ++ [.irqMask m] := rfl
@[simp] theorem State.setIrq_response (m : BitVec 8) : (s.setIrq m).response = s.response := rfl

/-! ### setRts -/

@[simp] theorem State.setRts_cfg (d : Direction) : (s.setRts d).cfg = s.cfg := rfl
@[simp] theorem State.setRts_flags (d : Direction) : (s.setRts d).flags = s.flags := rfl
@[simp] theorem State.setRts_rxState (d : Direction) : (s.setRts d).rxState = s.rxState := rfl
@[simp] theorem State.setRts_head (d : Direction) : (s.setRts d).head = s.head := rfl
@[simp] theorem State.setRts_txSize (d : Direction) : (s.setRts d).txSize = s.txSize := rfl
@[simp] theorem State.setRts_rxSize (d : Direction) : (s.setRts d).rxSize = s.rxSize := rfl
@[simp] theorem State.setRts_breakLen (d : Direction) : (s.setRts d).breakLen = s.breakLen := rfl
@[simp] theorem State.setRts_mabLen (d : Direction) : (s.setRts d).mabLen = s.mabLen := rfl
@[simp] theorem State.setRts_baud (d : Direction) : (s.setRts d).baud = s.baud := rfl
@[simp] theorem State.setRts_lastSlotTs (d : Direction) :
    (s.setRts d).lastSlotTs = s.lastSlotTs := rfl
@[simp] theorem State.setRts_tn (d : Direction) : (s.setRts d).tn = s.tn := rfl
@[simp] theorem State.setRts_pktSize (d : Direction) : (s.setRts d).pktSize = s.pktSize := rfl
@[simp] theorem State.setRts_pktKind (d : Direction) : (s.setRts d).pktKind = s.pktKind := rfl
@[simp] theorem State.setRts_pktErr (d : Direction) : (s.setRts d).pktErr = s.pktErr := rfl
@[simp] theorem State.setRts_timerMode (d : Direction) : (s.setRts d).timerMode = s.timerMode := rfl
@[simp] theorem State.setRts_irqEn (d : Direction) : (s.setRts d).irqEn = s.irqEn := rfl
@[simp] theorem State.setRts_line (d : Direction) :
    (s.setRts d).line = { s.line with rtsRx := decide (d = .receive) } := rfl
@[simp] theorem State.setRts_taskWaiting (d : Direction) :
    (s.setRts d).taskWaiting = s.taskWaiting := rfl
@[simp] theorem State.setRts_snifCtrl (d : Direction) : (s.setRts d).snifCtrl = s.snifCtrl := rfl
@[simp] theorem State.setRts_snifNegTs (d : Direction) : (s.setRts d).snifNegTs = s.snifNegTs := rfl
@[simp] theorem State.setRts_snifPosTs (d : Direction) : (s.setRts d).snifPosTs = s.snifPosTs := rfl
@[simp] theorem State.setRts_snifBreakW (d : Direction) :
    (s.setRts d).snifBreakW = s.snifBreakW := rfl
@[simp] theorem State.setRts_snifQ (d : Direction) : (s.setRts d).snifQ = s.snifQ := rfl
@[simp] theorem State.setRts_buf (d : Direction) : (s.setRts d).buf = s.buf := rfl
@[simp] theorem State.setRts_lastNow (d : Direction) : (s.setRts d).lastNow = s.lastNow := rfl
@[simp] theorem State.setRts_input (d : Direction) : (s.setRts d).input = s.input := rfl
@[simp] theorem State.setRts_outputs (d : Direction) :
    (s.setRts d).outputs = s.outputs ++ [.setRts d] := rfl
@[simp] theorem State.setRts_response (d : Direction) : (s.setRts d).response = s.response := rfl

/-! ### setInvert -/

@[simp] theorem State.setInvert_cfg (b : Bool) : (s.setInvert b).cfg = s.cfg := rfl
@[simp] theorem State.setInvert_flags (b : Bool) : (s.setInvert b).flags = s.flags := rfl
@[simp] theorem State.setInvert_rxState (b : Bool) : (s.setInvert b).rxState = s.rxState := rfl
@[simp] theorem State.setInvert_head (b : Bool) : (s.setInvert b).head = s.head := rfl
@[simp] theorem State.setInvert_txSize (b : Bool) : (s.setInvert b).txSize = s.txSize := rfl
@[simp] theorem State.setInvert_rxSize (b : Bool) : (s.setInvert b).rxSize = s.rxSize := rfl
@[simp] theorem State.setInvert_breakLen (b : Bool) : (s.setInvert b).breakLen = s.breakLen := rfl
@[simp] theorem State.setInvert_mabLen (b : Bool) : (s.setInvert b).mabLen = s.mabLen := rfl
@[simp] theorem State.setInvert_baud (b : Bool) : (s.setInvert b).baud = s.baud := rfl
@[simp] theorem State.setInvert_lastSlotTs (b : Bool) :
    (s.setInvert b).lastSlotTs = s.lastSlotTs := rfl
@[simp] theorem State.setInvert_tn (b : Bool) : (s.setInvert b).tn = s.tn := rfl
@[simp] theorem State.setInvert_pktSize (b : Bool) : (s.setInvert b).pktSize = s.pktSize := rfl
@[simp] theorem State.setInvert_pktKind (b : Bool) : (s.setInvert b).pktKind = s.pktKind := rfl
@[simp] theorem State.setInvert_pktErr (b : Bool) : (s.setInvert b).pktErr = s.pktErr := rfl
@[simp] theorem State.setInvert_timerMode (b : Bool) :
    (s.setInvert b).timerMode = s.timerMode := rfl
@[simp] theorem State.setInvert_irqEn (b : Bool) : (s.setInvert b).irqEn = s.irqEn := rfl
@[simp] theorem State.setInvert_line (b : Bool) :
    (s.setInvert b).line = { s.line with txInvert := b } := rfl
@[simp] theorem State.setInvert_taskWaiting (b : Bool) :
    (s.setInvert b).taskWaiting = s.taskWaiting := rfl
@[simp] theorem State.setInvert_snifCtrl (b : Bool) : (s.setInvert b).snifCtrl = s.snifCtrl := rfl
@[simp] theorem State.setInvert_snifNegTs (b : Bool) :
    (s.setInvert b).snifNegTs = s.snifNegTs := rfl
@[simp] theorem State.setInvert_snifPosTs (b : Bool) :
    (s.setInvert b).snifPosTs = s.snifPosTs := rfl
@[simp] theorem State.setInvert_snifBreakW (b : Bool) :
    (s.setInvert b).snifBreakW = s.snifBreakW := rfl
@[simp] theorem State.setInvert_snifQ (b : Bool) : (s.setInvert b).snifQ = s.snifQ := rfl
@[simp] theorem State.setInvert_buf (b : Bool) : (s.setInvert b).buf = s.buf := rfl
@[simp] theorem State.setInvert_lastNow (b : Bool) : (s.setInvert b).lastNow = s.lastNow := rfl
@[simp] theorem State.setInvert_input (b : Bool) : (s.setInvert b).input = s.input := rfl
@[simp] theorem State.setInvert_outputs (b : Bool) :
    (s.setInvert b).outputs = s.outputs ++ [.setTxInvert b] := rfl
@[simp] theorem State.setInvert_response (b : Bool) : (s.setInvert b).response = s.response := rfl

/-! ### armTimer -/

@[simp] theorem State.armTimer_cfg (m : TimerMode) (t : BitVec 32) :
    (s.armTimer m t).cfg = s.cfg := rfl
@[simp] theorem State.armTimer_flags (m : TimerMode) (t : BitVec 32) :
    (s.armTimer m t).flags = s.flags := rfl
@[simp] theorem State.armTimer_rxState (m : TimerMode) (t : BitVec 32) :
    (s.armTimer m t).rxState = s.rxState := rfl
@[simp] theorem State.armTimer_head (m : TimerMode) (t : BitVec 32) :
    (s.armTimer m t).head = s.head := rfl
@[simp] theorem State.armTimer_txSize (m : TimerMode) (t : BitVec 32) :
    (s.armTimer m t).txSize = s.txSize := rfl
@[simp] theorem State.armTimer_rxSize (m : TimerMode) (t : BitVec 32) :
    (s.armTimer m t).rxSize = s.rxSize := rfl
@[simp] theorem State.armTimer_breakLen (m : TimerMode) (t : BitVec 32) :
    (s.armTimer m t).breakLen = s.breakLen := rfl
@[simp] theorem State.armTimer_mabLen (m : TimerMode) (t : BitVec 32) :
    (s.armTimer m t).mabLen = s.mabLen := rfl
@[simp] theorem State.armTimer_baud (m : TimerMode) (t : BitVec 32) :
    (s.armTimer m t).baud = s.baud := rfl
@[simp] theorem State.armTimer_lastSlotTs (m : TimerMode) (t : BitVec 32) :
    (s.armTimer m t).lastSlotTs = s.lastSlotTs := rfl
@[simp] theorem State.armTimer_tn (m : TimerMode) (t : BitVec 32) :
    (s.armTimer m t).tn = s.tn := rfl
@[simp] theorem State.armTimer_pktSize (m : TimerMode) (t : BitVec 32) :
    (s.armTimer m t).pktSize = s.pktSize := rfl
@[simp] theorem State.armTimer_pktKind (m : TimerMode) (t : BitVec 32) :
    (s.armTimer m t).pktKind = s.pktKind := rfl
@[simp] theorem State.armTimer_pktErr (m : TimerMode) (t : BitVec 32) :
    (s.armTimer m t).pktErr = s.pktErr := rfl
@[simp] theorem State.armTimer_timerMode (m : TimerMode) (t : BitVec 32) :
    (s.armTimer m t).timerMode = m := rfl
@[simp] theorem State.armTimer_irqEn (m : TimerMode) (t : BitVec 32) :
    (s.armTimer m t).irqEn = s.irqEn := rfl
@[simp] theorem State.armTimer_line (m : TimerMode) (t : BitVec 32) :
    (s.armTimer m t).line = s.line := rfl
@[simp] theorem State.armTimer_taskWaiting (m : TimerMode) (t : BitVec 32) :
    (s.armTimer m t).taskWaiting = s.taskWaiting := rfl
@[simp] theorem State.armTimer_snifCtrl (m : TimerMode) (t : BitVec 32) :
    (s.armTimer m t).snifCtrl = s.snifCtrl := rfl
@[simp] theorem State.armTimer_snifNegTs (m : TimerMode) (t : BitVec 32) :
    (s.armTimer m t).snifNegTs = s.snifNegTs := rfl
@[simp] theorem State.armTimer_snifPosTs (m : TimerMode) (t : BitVec 32) :
    (s.armTimer m t).snifPosTs = s.snifPosTs := rfl
@[simp] theorem State.armTimer_snifBreakW (m : TimerMode) (t : BitVec 32) :
    (s.armTimer m t).snifBreakW = s.snifBreakW := rfl
@[simp] theorem State.armTimer_snifQ (m : TimerMode) (t : BitVec 32) :
    (s.armTimer m t).snifQ = s.snifQ := rfl
@[simp] theorem State.armTimer_buf (m : TimerMode) (t : BitVec 32) :
    (s.armTimer m t).buf = s.buf := rfl
@[simp] theorem State.armTimer_lastNow (m : TimerMode) (t : BitVec 32) :
    (s.armTimer m t).lastNow = s.lastNow := rfl
@[simp] theorem State.armTimer_input (m : TimerMode) (t : BitVec 32) :
    (s.armTimer m t).input = s.input := rfl
@[simp] theorem State.armTimer_outputs (m : TimerMode) (t : BitVec 32) :
    (s.armTimer m t).outputs = s.outputs ++ [.timerArm t] := rfl
@[simp] theorem State.armTimer_response (m : TimerMode) (t : BitVec 32) :
    (s.armTimer m t).response = s.response := rfl

/-! ### stopTimer -/

@[simp] theorem State.stopTimer_cfg : (s.stopTimer).cfg = s.cfg := rfl
@[simp] theorem State.stopTimer_flags : (s.stopTimer).flags = s.flags := rfl
@[simp] theorem State.stopTimer_rxState : (s.stopTimer).rxState = s.rxState := rfl
@[simp] theorem State.stopTimer_head : (s.stopTimer).head = s.head := rfl
@[simp] theorem State.stopTimer_txSize : (s.stopTimer).txSize = s.txSize := rfl
@[simp] theorem State.stopTimer_rxSize : (s.stopTimer).rxSize = s.rxSize := rfl
@[simp] theorem State.stopTimer_breakLen : (s.stopTimer).breakLen = s.breakLen := rfl
@[simp] theorem State.stopTimer_mabLen : (s.stopTimer).mabLen = s.mabLen := rfl
@[simp] theorem State.stopTimer_baud : (s.stopTimer).baud = s.baud := rfl
@[simp] theorem State.stopTimer_lastSlotTs : (s.stopTimer).lastSlotTs = s.lastSlotTs := rfl
@[simp] theorem State.stopTimer_tn : (s.stopTimer).tn = s.tn := rfl
@[simp] theorem State.stopTimer_pktSize : (s.stopTimer).pktSize = s.pktSize := rfl
@[simp] theorem State.stopTimer_pktKind : (s.stopTimer).pktKind = s.pktKind := rfl
@[simp] theorem State.stopTimer_pktErr : (s.stopTimer).pktErr = s.pktErr := rfl
@[simp] theorem State.stopTimer_timerMode : (s.stopTimer).timerMode = .off := rfl
@[simp] theorem State.stopTimer_irqEn : (s.stopTimer).irqEn = s.irqEn := rfl
@[simp] theorem State.stopTimer_line : (s.stopTimer).line = s.line := rfl
@[simp] theorem State.stopTimer_taskWaiting : (s.stopTimer).taskWaiting = s.taskWaiting := rfl
@[simp] theorem State.stopTimer_snifCtrl : (s.stopTimer).snifCtrl = s.snifCtrl := rfl
@[simp] theorem State.stopTimer_snifNegTs : (s.stopTimer).snifNegTs = s.snifNegTs := rfl
@[simp] theorem State.stopTimer_snifPosTs : (s.stopTimer).snifPosTs = s.snifPosTs := rfl
@[simp] theorem State.stopTimer_snifBreakW : (s.stopTimer).snifBreakW = s.snifBreakW := rfl
@[simp] theorem State.stopTimer_snifQ : (s.stopTimer).snifQ = s.snifQ := rfl
@[simp] theorem State.stopTimer_buf : (s.stopTimer).buf = s.buf := rfl
@[simp] theorem State.stopTimer_lastNow : (s.stopTimer).lastNow = s.lastNow := rfl
@[simp] theorem State.stopTimer_input : (s.stopTimer).input = s.input := rfl
@[simp] theorem State.stopTimer_outputs : (s.stopTimer).outputs = s.outputs ++ [.timerPause] := rfl
@[simp] theorem State.stopTimer_response : (s.stopTimer).response = s.response := rfl

/-! ### stampSlot -/

@[simp] theorem State.stampSlot_cfg : (s.stampSlot).cfg = s.cfg := rfl
@[simp] theorem State.stampSlot_flags : (s.stampSlot).flags = s.flags := rfl
@[simp] theorem State.stampSlot_rxState : (s.stampSlot).rxState = s.rxState := rfl
@[simp] theorem State.stampSlot_head : (s.stampSlot).head = s.head := rfl
@[simp] theorem State.stampSlot_txSize : (s.stampSlot).txSize = s.txSize := rfl
@[simp] theorem State.stampSlot_rxSize : (s.stampSlot).rxSize = s.rxSize := rfl
@[simp] theorem State.stampSlot_breakLen : (s.stampSlot).breakLen = s.breakLen := rfl
@[simp] theorem State.stampSlot_mabLen : (s.stampSlot).mabLen = s.mabLen := rfl
@[simp] theorem State.stampSlot_baud : (s.stampSlot).baud = s.baud := rfl
@[simp] theorem State.stampSlot_lastSlotTs : (s.stampSlot).lastSlotTs = s.lastNow := rfl
@[simp] theorem State.stampSlot_tn : (s.stampSlot).tn = s.tn := rfl
@[simp] theorem State.stampSlot_pktSize : (s.stampSlot).pktSize = s.pktSize := rfl
@[simp] theorem State.stampSlot_pktKind : (s.stampSlot).pktKind = s.pktKind := rfl
@[simp] theorem State.stampSlot_pktErr : (s.stampSlot).pktErr = s.pktErr := rfl
@[simp] theorem State.stampSlot_timerMode : (s.stampSlot).timerMode = s.timerMode := rfl
@[simp] theorem State.stampSlot_irqEn : (s.stampSlot).irqEn = s.irqEn := rfl
@[simp] theorem State.stampSlot_line : (s.stampSlot).line = s.line := rfl
@[simp] theorem State.stampSlot_taskWaiting : (s.stampSlot).taskWaiting = s.taskWaiting := rfl
@[simp] theorem State.stampSlot_snifCtrl : (s.stampSlot).snifCtrl = s.snifCtrl := rfl
@[simp] theorem State.stampSlot_snifNegTs : (s.stampSlot).snifNegTs = s.snifNegTs := rfl
@[simp] theorem State.stampSlot_snifPosTs : (s.stampSlot).snifPosTs = s.snifPosTs := rfl
@[simp] theorem State.stampSlot_snifBreakW : (s.stampSlot).snifBreakW = s.snifBreakW := rfl
@[simp] theorem State.stampSlot_snifQ : (s.stampSlot).snifQ = s.snifQ := rfl
@[simp] theorem State.stampSlot_buf : (s.stampSlot).buf = s.buf := rfl
@[simp] theorem State.stampSlot_lastNow : (s.stampSlot).lastNow = s.lastNow := rfl
@[simp] theorem State.stampSlot_input : (s.stampSlot).input = s.input := rfl
@[simp] theorem State.stampSlot_outputs : (s.stampSlot).outputs = s.outputs := rfl
@[simp] theorem State.stampSlot_response : (s.stampSlot).response = s.response := rfl

/-! ### setWaiting -/

@[simp] theorem State.setWaiting_cfg (b : Bool) : (s.setWaiting b).cfg = s.cfg := rfl
@[simp] theorem State.setWaiting_flags (b : Bool) : (s.setWaiting b).flags = s.flags := rfl
@[simp] theorem State.setWaiting_rxState (b : Bool) : (s.setWaiting b).rxState = s.rxState := rfl
@[simp] theorem State.setWaiting_head (b : Bool) : (s.setWaiting b).head = s.head := rfl
@[simp] theorem State.setWaiting_txSize (b : Bool) : (s.setWaiting b).txSize = s.txSize := rfl
@[simp] theorem State.setWaiting_rxSize (b : Bool) : (s.setWaiting b).rxSize = s.rxSize := rfl
@[simp] theorem State.setWaiting_breakLen (b : Bool) : (s.setWaiting b).breakLen = s.breakLen := rfl
@[simp] theorem State.setWaiting_mabLen (b : Bool) : (s.setWaiting b).mabLen = s.mabLen := rfl
@[simp] theorem State.setWaiting_baud (b : Bool) : (s.setWaiting b).baud = s.baud := rfl
@[simp] theorem State.setWaiting_lastSlotTs (b : Bool) :
    (s.setWaiting b).lastSlotTs = s.lastSlotTs := rfl
@[simp] theorem State.setWaiting_tn (b : Bool) : (s.setWaiting b).tn = s.tn := rfl
@[simp] theorem State.setWaiting_pktSize (b : Bool) : (s.setWaiting b).pktSize = s.pktSize := rfl
@[simp] theorem State.setWaiting_pktKind (b : Bool) : (s.setWaiting b).pktKind = s.pktKind := rfl
@[simp] theorem State.setWaiting_pktErr (b : Bool) : (s.setWaiting b).pktErr = s.pktErr := rfl
@[simp] theorem State.setWaiting_timerMode (b : Bool) :
    (s.setWaiting b).timerMode = s.timerMode := rfl
@[simp] theorem State.setWaiting_irqEn (b : Bool) : (s.setWaiting b).irqEn = s.irqEn := rfl
@[simp] theorem State.setWaiting_line (b : Bool) : (s.setWaiting b).line = s.line := rfl
@[simp] theorem State.setWaiting_taskWaiting (b : Bool) : (s.setWaiting b).taskWaiting = b := rfl
@[simp] theorem State.setWaiting_snifCtrl (b : Bool) : (s.setWaiting b).snifCtrl = s.snifCtrl := rfl
@[simp] theorem State.setWaiting_snifNegTs (b : Bool) :
    (s.setWaiting b).snifNegTs = s.snifNegTs := rfl
@[simp] theorem State.setWaiting_snifPosTs (b : Bool) :
    (s.setWaiting b).snifPosTs = s.snifPosTs := rfl
@[simp] theorem State.setWaiting_snifBreakW (b : Bool) :
    (s.setWaiting b).snifBreakW = s.snifBreakW := rfl
@[simp] theorem State.setWaiting_snifQ (b : Bool) : (s.setWaiting b).snifQ = s.snifQ := rfl
@[simp] theorem State.setWaiting_buf (b : Bool) : (s.setWaiting b).buf = s.buf := rfl
@[simp] theorem State.setWaiting_lastNow (b : Bool) : (s.setWaiting b).lastNow = s.lastNow := rfl
@[simp] theorem State.setWaiting_input (b : Bool) : (s.setWaiting b).input = s.input := rfl
@[simp] theorem State.setWaiting_outputs (b : Bool) : (s.setWaiting b).outputs = s.outputs := rfl
@[simp] theorem State.setWaiting_response (b : Bool) : (s.setWaiting b).response = s.response := rfl

/-! ### take -/

@[simp] theorem State.take_cfg (now : Stamp) (rest : List Arrival) :
    (s.take now rest).cfg = s.cfg := rfl
@[simp] theorem State.take_flags (now : Stamp) (rest : List Arrival) :
    (s.take now rest).flags = s.flags := rfl
@[simp] theorem State.take_rxState (now : Stamp) (rest : List Arrival) :
    (s.take now rest).rxState = s.rxState := rfl
@[simp] theorem State.take_head (now : Stamp) (rest : List Arrival) :
    (s.take now rest).head = s.head := rfl
@[simp] theorem State.take_txSize (now : Stamp) (rest : List Arrival) :
    (s.take now rest).txSize = s.txSize := rfl
@[simp] theorem State.take_rxSize (now : Stamp) (rest : List Arrival) :
    (s.take now rest).rxSize = s.rxSize := rfl
@[simp] theorem State.take_breakLen (now : Stamp) (rest : List Arrival) :
    (s.take now rest).breakLen = s.breakLen := rfl
@[simp] theorem State.take_mabLen (now : Stamp) (rest : List Arrival) :
    (s.take now rest).mabLen = s.mabLen := rfl
@[simp] theorem State.take_baud (now : Stamp) (rest : List Arrival) :
    (s.take now rest).baud = s.baud := rfl
@[simp] theorem State.take_lastSlotTs (now : Stamp) (rest : List Arrival) :
    (s.take now rest).lastSlotTs = s.lastSlotTs := rfl
@[simp] theorem State.take_tn (now : Stamp) (rest : List Arrival) :
    (s.take now rest).tn = s.tn := rfl
@[simp] theorem State.take_pktSize (now : Stamp) (rest : List Arrival) :
    (s.take now rest).pktSize = s.pktSize := rfl
@[simp] theorem State.take_pktKind (now : Stamp) (rest : List Arrival) :
    (s.take now rest).pktKind = s.pktKind := rfl
@[simp] theorem State.take_pktErr (now : Stamp) (rest : List Arrival) :
    (s.take now rest).pktErr = s.pktErr := rfl
@[simp] theorem State.take_timerMode (now : Stamp) (rest : List Arrival) :
    (s.take now rest).timerMode = s.timerMode := rfl
@[simp] theorem State.take_irqEn (now : Stamp) (rest : List Arrival) :
    (s.take now rest).irqEn = s.irqEn := rfl
@[simp] theorem State.take_line (now : Stamp) (rest : List Arrival) :
    (s.take now rest).line = s.line := rfl
@[simp] theorem State.take_taskWaiting (now : Stamp) (rest : List Arrival) :
    (s.take now rest).taskWaiting = s.taskWaiting := rfl
@[simp] theorem State.take_snifCtrl (now : Stamp) (rest : List Arrival) :
    (s.take now rest).snifCtrl = s.snifCtrl := rfl
@[simp] theorem State.take_snifNegTs (now : Stamp) (rest : List Arrival) :
    (s.take now rest).snifNegTs = s.snifNegTs := rfl
@[simp] theorem State.take_snifPosTs (now : Stamp) (rest : List Arrival) :
    (s.take now rest).snifPosTs = s.snifPosTs := rfl
@[simp] theorem State.take_snifBreakW (now : Stamp) (rest : List Arrival) :
    (s.take now rest).snifBreakW = s.snifBreakW := rfl
@[simp] theorem State.take_snifQ (now : Stamp) (rest : List Arrival) :
    (s.take now rest).snifQ = s.snifQ := rfl
@[simp] theorem State.take_buf (now : Stamp) (rest : List Arrival) :
    (s.take now rest).buf = s.buf := rfl
@[simp] theorem State.take_lastNow (now : Stamp) (rest : List Arrival) :
    (s.take now rest).lastNow = now := rfl
@[simp] theorem State.take_input (now : Stamp) (rest : List Arrival) :
    (s.take now rest).input = rest := rfl
@[simp] theorem State.take_outputs (now : Stamp) (rest : List Arrival) :
    (s.take now rest).outputs = [] := rfl
@[simp] theorem State.take_response (now : Stamp) (rest : List Arrival) :
    (s.take now rest).response = none := rfl

/-! ### waitForInput -/

@[simp] theorem State.waitForInput_cfg : (s.waitForInput).cfg = s.cfg := rfl
@[simp] theorem State.waitForInput_flags : (s.waitForInput).flags = s.flags := rfl
@[simp] theorem State.waitForInput_rxState : (s.waitForInput).rxState = s.rxState := rfl
@[simp] theorem State.waitForInput_head : (s.waitForInput).head = s.head := rfl
@[simp] theorem State.waitForInput_txSize : (s.waitForInput).txSize = s.txSize := rfl
@[simp] theorem State.waitForInput_rxSize : (s.waitForInput).rxSize = s.rxSize := rfl
@[simp] theorem State.waitForInput_breakLen : (s.waitForInput).breakLen = s.breakLen := rfl
@[simp] theorem State.waitForInput_mabLen : (s.waitForInput).mabLen = s.mabLen := rfl
@[simp] theorem State.waitForInput_baud : (s.waitForInput).baud = s.baud := rfl
@[simp] theorem State.waitForInput_lastSlotTs : (s.waitForInput).lastSlotTs = s.lastSlotTs := rfl
@[simp] theorem State.waitForInput_tn : (s.waitForInput).tn = s.tn := rfl
@[simp] theorem State.waitForInput_pktSize : (s.waitForInput).pktSize = s.pktSize := rfl
@[simp] theorem State.waitForInput_pktKind : (s.waitForInput).pktKind = s.pktKind := rfl
@[simp] theorem State.waitForInput_pktErr : (s.waitForInput).pktErr = s.pktErr := rfl
@[simp] theorem State.waitForInput_timerMode : (s.waitForInput).timerMode = s.timerMode := rfl
@[simp] theorem State.waitForInput_irqEn : (s.waitForInput).irqEn = s.irqEn := rfl
@[simp] theorem State.waitForInput_line : (s.waitForInput).line = s.line := rfl
@[simp] theorem State.waitForInput_taskWaiting : (s.waitForInput).taskWaiting = s.taskWaiting := rfl
@[simp] theorem State.waitForInput_snifCtrl : (s.waitForInput).snifCtrl = s.snifCtrl := rfl
@[simp] theorem State.waitForInput_snifNegTs : (s.waitForInput).snifNegTs = s.snifNegTs := rfl
@[simp] theorem State.waitForInput_snifPosTs : (s.waitForInput).snifPosTs = s.snifPosTs := rfl
@[simp] theorem State.waitForInput_snifBreakW : (s.waitForInput).snifBreakW = s.snifBreakW := rfl
@[simp] theorem State.waitForInput_snifQ : (s.waitForInput).snifQ = s.snifQ := rfl
@[simp] theorem State.waitForInput_buf : (s.waitForInput).buf = s.buf := rfl
@[simp] theorem State.waitForInput_lastNow : (s.waitForInput).lastNow = s.lastNow := rfl
@[simp] theorem State.waitForInput_input : (s.waitForInput).input = s.input := rfl
@[simp] theorem State.waitForInput_outputs : (s.waitForInput).outputs = [] := rfl
@[simp] theorem State.waitForInput_response : (s.waitForInput).response = none := rfl

/-! ### cancelResp: the fields it leaves alone -/

@[simp] theorem State.cancelResp_cfg :
    (s.cancelResp).cfg = s.cfg := by unfold State.cancelResp; split <;> rfl
@[simp] theorem State.cancelResp_flags :
    (s.cancelResp).flags = s.flags := by unfold State.cancelResp; split <;> rfl
@[simp] theorem State.cancelResp_rxState :
    (s.cancelResp).rxState = s.rxState := by unfold State.cancelResp; split <;> rfl
@[simp] theorem State.cancelResp_head :
    (s.cancelResp).head = s.head := by unfold State.cancelResp; split <;> rfl
@[simp] theorem State.cancelResp_txSize :
    (s.cancelResp).txSize = s.txSize := by unfold State.cancelResp; split <;> rfl
@[simp] theorem State.cancelResp_rxSize :
    (s.cancelResp).rxSize = s.rxSize := by unfold State.cancelResp; split <;> rfl
@[simp] theorem State.cancelResp_breakLen :
    (s.cancelResp).breakLen = s.breakLen := by unfold State.cancelResp; split <;> rfl
@[simp] theorem State.cancelResp_mabLen :
    (s.cancelResp).mabLen = s.mabLen := by unfold State.cancelResp; split <;> rfl
@[simp] theorem State.cancelResp_baud :
    (s.cancelResp).baud = s.baud := by unfold State.cancelResp; split <;> rfl
@[simp] theorem State.cancelResp_lastSlotTs :
    (s.cancelResp).lastSlotTs = s.lastSlotTs := by unfold State.cancelResp; split <;> rfl
@[simp] theorem State.cancelResp_tn :
    (s.cancelResp).tn = s.tn := by unfold State.cancelResp; split <;> rfl
@[simp] theorem State.cancelResp_pktSize :
    (s.cancelResp).pktSize = s.pktSize := by unfold State.cancelResp; split <;> rfl
@[simp] theorem State.cancelResp_pktKind :
    (s.cancelResp).pktKind = s.pktKind := by unfold State.cancelResp; split <;> rfl
@[simp] theorem State.cancelResp_pktErr :
    (s.cancelResp).pktErr = s.pktErr := by unfold State.cancelResp; split <;> rfl
@[simp] theorem State.cancelResp_irqEn :
    (s.cancelResp).irqEn = s.irqEn := by unfold State.cancelResp; split <;> rfl
@[simp] theorem State.cancelResp_line :
    (s.cancelResp).line = s.line := by unfold State.cancelResp; split <;> rfl
@[simp] theorem State.cancelResp_taskWaiting :
    (s.cancelResp).taskWaiting = s.taskWaiting := by unfold State.cancelResp; split <;> rfl
@[simp] theorem State.cancelResp_snifCtrl :
    (s.cancelResp).snifCtrl = s.snifCtrl := by unfold State.cancelResp; split <;> rfl
@[simp] theorem State.cancelResp_snifNegTs :
    (s.cancelResp).snifNegTs = s.snifNegTs := by unfold State.cancelResp; split <;> rfl
@[simp] theorem State.cancelResp_snifPosTs :
    (s.cancelResp).snifPosTs = s.snifPosTs := by unfold State.cancelResp; split <;> rfl
@[simp] theorem State.cancelResp_snifBreakW :
    (s.cancelResp).snifBreakW = s.snifBreakW := by unfold State.cancelResp; split <;> rfl
@[simp] theorem State.cancelResp_snifQ :
    (s.cancelResp).snifQ = s.snifQ := by unfold State.cancelResp; split <;> rfl
@[simp] theorem State.cancelResp_buf :
    (s.cancelResp).buf = s.buf := by unfold State.cancelResp; split <;> rfl
@[simp] theorem State.cancelResp_lastNow :
    (s.cancelResp).lastNow = s.lastNow := by unfold State.cancelResp; split <;> rfl
@[simp] theorem State.cancelResp_input :
    (s.cancelResp).input = s.input := by unfold State.cancelResp; split <;> rfl
@[simp] theorem State.cancelResp_response :
    (s.cancelResp).response = s.response := by unfold State.cancelResp; split <;> rfl

/-! ### wakeIf: the fields it leaves alone -/

@[simp] theorem State.wakeIf_cfg (h : Bool) (n : BitVec 16) (k : PktKind) (e : ErrCode) :
    (s.wakeIf h n k e).cfg = s.cfg := by unfold State.wakeIf; split <;> rfl
@[simp] theorem State.wakeIf_flags (h : Bool) (n : BitVec 16) (k : PktKind) (e : ErrCode) :
    (s.wakeIf h n k e).flags = s.flags := by unfold State.wakeIf; split <;> rfl
@[simp] theorem State.wakeIf_rxState (h : Bool) (n : BitVec 16) (k : PktKind) (e : ErrCode) :
    (s.wakeIf h n k e).rxState = s.rxState := by unfold State.wakeIf; split <;> rfl
@[simp] theorem State.wakeIf_head (h : Bool) (n : BitVec 16) (k : PktKind) (e : ErrCode) :
    (s.wakeIf h n k e).head = s.head := by unfold State.wakeIf; split <;> rfl
@[simp] theorem State.wakeIf_txSize (h : Bool) (n : BitVec 16) (k : PktKind) (e : ErrCode) :
    (s.wakeIf h n k e).txSize = s.txSize := by unfold State.wakeIf; split <;> rfl
@[simp] theorem State.wakeIf_rxSize (h : Bool) (n : BitVec 16) (k : PktKind) (e : ErrCode) :
    (s.wakeIf h n k e).rxSize = s.rxSize := by unfold State.wakeIf; split <;> rfl
@[simp] theorem State.wakeIf_breakLen (h : Bool) (n : BitVec 16) (k : PktKind) (e : ErrCode) :
    (s.wakeIf h n k e).breakLen = s.breakLen := by unfold State.wakeIf; split <;> rfl
@[simp] theorem State.wakeIf_mabLen (h : Bool) (n : BitVec 16) (k : PktKind) (e : ErrCode) :
    (s.wakeIf h n k e).mabLen = s.mabLen := by unfold State.wakeIf; split <;> rfl
@[simp] theorem State.wakeIf_baud (h : Bool) (n : BitVec 16) (k : PktKind) (e : ErrCode) :
    (s.wakeIf h n k e).baud = s.baud := by unfold State.wakeIf; split <;> rfl
@[simp] theorem State.wakeIf_lastSlotTs (h : Bool) (n : BitVec 16) (k : PktKind) (e : ErrCode) :
    (s.wakeIf h n k e).lastSlotTs = s.lastSlotTs := by unfold State.wakeIf; split <;> rfl
@[simp] theorem State.wakeIf_tn (h : Bool) (n : BitVec 16) (k : PktKind) (e : ErrCode) :
    (s.wakeIf h n k e).tn = s.tn := by unfold State.wakeIf; split <;> rfl
@[simp] theorem State.wakeIf_pktSize (h : Bool) (n : BitVec 16) (k : PktKind) (e : ErrCode) :
    (s.wakeIf h n k e).pktSize = s.pktSize := by unfold State.wakeIf; split <;> rfl
@[simp] theorem State.wakeIf_pktKind (h : Bool) (n : BitVec 16) (k : PktKind) (e : ErrCode) :
    (s.wakeIf h n k e).pktKind = s.pktKind := by unfold State.wakeIf; split <;> rfl
@[simp] theorem State.wakeIf_pktErr (h : Bool) (n : BitVec 16) (k : PktKind) (e : ErrCode) :
    (s.wakeIf h n k e).pktErr = s.pktErr := by unfold State.wakeIf; split <;> rfl
@[simp] theorem State.wakeIf_timerMode (h : Bool) (n : BitVec 16) (k : PktKind) (e : ErrCode) :
    (s.wakeIf h n k e).timerMode = s.timerMode := by unfold State.wakeIf; split <;> rfl
@[simp] theorem State.wakeIf_irqEn (h : Bool) (n : BitVec 16) (k : PktKind) (e : ErrCode) :
    (s.wakeIf h n k e).irqEn = s.irqEn := by unfold State.wakeIf; split <;> rfl
@[simp] theorem State.wakeIf_line (h : Bool) (n : BitVec 16) (k : PktKind) (e : ErrCode) :
    (s.wakeIf h n k e).line = s.line := by unfold State.wakeIf; split <;> rfl
@[simp] theorem State.wakeIf_snifCtrl (h : Bool) (n : BitVec 16) (k : PktKind) (e : ErrCode) :
    (s.wakeIf h n k e).snifCtrl = s.snifCtrl := by unfold State.wakeIf; split <;> rfl
@[simp] theorem State.wakeIf_snifNegTs (h : Bool) (n : BitVec 16) (k : PktKind) (e : ErrCode) :
    (s.wakeIf h n k e).snifNegTs = s.snifNegTs := by unfold State.wakeIf; split <;> rfl
@[simp] theorem State.wakeIf_snifPosTs (h : Bool) (n : BitVec 16) (k : PktKind) (e : ErrCode) :
    (s.wakeIf h n k e).snifPosTs = s.snifPosTs := by unfold State.wakeIf; split <;> rfl
@[simp] theorem State.wakeIf_snifBreakW (h : Bool) (n : BitVec 16) (k : PktKind) (e : ErrCode) :
    (s.wakeIf h n k e).snifBreakW = s.snifBreakW := by unfold State.wakeIf; split <;> rfl
@[simp] theorem State.wakeIf_snifQ (h : Bool) (n : BitVec 16) (k : PktKind) (e : ErrCode) :
    (s.wakeIf h n k e).snifQ = s.snifQ := by unfold State.wakeIf; split <;> rfl
@[simp] theorem State.wakeIf_buf (h : Bool) (n : BitVec 16) (k : PktKind) (e : ErrCode) :
    (s.wakeIf h n k e).buf = s.buf := by unfold State.wakeIf; split <;> rfl
@[simp] theorem State.wakeIf_lastNow (h : Bool) (n : BitVec 16) (k : PktKind) (e : ErrCode) :
    (s.wakeIf h n k e).lastNow = s.lastNow := by unfold State.wakeIf; split <;> rfl
@[simp] theorem State.wakeIf_input (h : Bool) (n : BitVec 16) (k : PktKind) (e : ErrCode) :
    (s.wakeIf h n k e).input = s.input := by unfold State.wakeIf; split <;> rfl
@[simp] theorem State.wakeIf_response (h : Bool) (n : BitVec 16) (k : PktKind) (e : ErrCode) :
    (s.wakeIf h n k e).response = s.response := by unfold State.wakeIf; split <;> rfl

/-! ### endTransaction: the fields it leaves alone -/

@[simp] theorem State.endTransaction_cfg :
    (s.endTransaction).cfg = s.cfg := by unfold State.endTransaction; split <;> simp
@[simp] theorem State.endTransaction_rxState :
    (s.endTransaction).rxState = s.rxState := by unfold State.endTransaction; split <;> simp
@[simp] theorem State.endTransaction_head :
    (s.endTransaction).head = s.head := by unfold State.endTransaction; split <;> simp
@[simp] theorem State.endTransaction_txSize :
    (s.endTransaction).txSize = s.txSize := by unfold State.endTransaction; split <;> simp
@[simp] theorem State.endTransaction_rxSize :
    (s.endTransaction).rxSize = s.rxSize := by unfold State.endTransaction; split <;> simp
@[simp] theorem State.endTransaction_breakLen :
    (s.endTransaction).breakLen = s.breakLen := by unfold State.endTransaction; split <;> simp
@[simp] theorem State.endTransaction_mabLen :
    (s.endTransaction).mabLen = s.mabLen := by unfold State.endTransaction; split <;> simp
@[simp] theorem State.endTransaction_baud :
    (s.endTransaction).baud = s.baud := by unfold State.endTransaction; split <;> simp
@[simp] theorem State.endTransaction_lastSlotTs :
    (s.endTransaction).lastSlotTs = s.lastSlotTs := by unfold State.endTransaction; split <;> simp
@[simp] theorem State.endTransaction_tn :
    (s.endTransaction).tn = s.tn := by unfold State.endTransaction; split <;> simp
@[simp] theorem State.endTransaction_pktSize :
    (s.endTransaction).pktSize = s.pktSize := by unfold State.endTransaction; split <;> simp
@[simp] theorem State.endTransaction_pktKind :
    (s.endTransaction).pktKind = s.pktKind := by unfold State.endTransaction; split <;> simp
@[simp] theorem State.endTransaction_pktErr :
    (s.endTransaction).pktErr = s.pktErr := by unfold State.endTransaction; split <;> simp
@[simp] theorem State.endTransaction_irqEn :
    (s.endTransaction).irqEn = s.irqEn := by unfold State.endTransaction; split <;> simp
@[simp] theorem State.endTransaction_line :
    (s.endTransaction).line = s.line := by unfold State.endTransaction; split <;> simp
@[simp] theorem State.endTransaction_taskWaiting :
    (s.endTransaction).taskWaiting = s.taskWaiting := by unfold State.endTransaction; split <;> simp
@[simp] theorem State.endTransaction_snifCtrl :
    (s.endTransaction).snifCtrl = s.snifCtrl := by unfold State.endTransaction; split <;> simp
@[simp] theorem State.endTransaction_snifNegTs :
    (s.endTransaction).snifNegTs = s.snifNegTs := by unfold State.endTransaction; split <;> simp
@[simp] theorem State.endTransaction_snifPosTs :
    (s.endTransaction).snifPosTs = s.snifPosTs := by unfold State.endTransaction; split <;> simp
@[simp] theorem State.endTransaction_snifBreakW :
    (s.endTransaction).snifBreakW = s.snifBreakW := by unfold State.endTransaction; split <;> simp
@[simp] theorem State.endTransaction_snifQ :
    (s.endTransaction).snifQ = s.snifQ := by unfold State.endTransaction; split <;> simp
@[simp] theorem State.endTransaction_buf :
    (s.endTransaction).buf = s.buf := by unfold State.endTransaction; split <;> simp
@[simp] theorem State.endTransaction_lastNow :
    (s.endTransaction).lastNow = s.lastNow := by unfold State.endTransaction; split <;> simp
@[simp] theorem State.endTransaction_input :
    (s.endTransaction).input = s.input := by unfold State.endTransaction; split <;> simp
@[simp] theorem State.endTransaction_response :
    (s.endTransaction).response = s.response := by unfold State.endTransaction; split <;> simp

/-! ### finish: the fields it leaves alone -/

@[simp] theorem State.finish_cfg (k : PktKind) (e : ErrCode) :
    (s.finish k e).cfg = s.cfg := by simp [State.finish]
@[simp] theorem State.finish_head (k : PktKind) (e : ErrCode) :
    (s.finish k e).head = s.head := by simp [State.finish]
@[simp] theorem State.finish_txSize (k : PktKind) (e : ErrCode) :
    (s.finish k e).txSize = s.txSize := by simp [State.finish]
@[simp] theorem State.finish_rxSize (k : PktKind) (e : ErrCode) :
    (s.finish k e).rxSize = s.rxSize := by simp [State.finish]
@[simp] theorem State.finish_breakLen (k : PktKind) (e : ErrCode) :
    (s.finish k e).breakLen = s.breakLen := by simp [State.finish]
@[simp] theorem State.finish_mabLen (k : PktKind) (e : ErrCode) :
    (s.finish k e).mabLen = s.mabLen := by simp [State.finish]
@[simp] theorem State.finish_baud (k : PktKind) (e : ErrCode) :
    (s.finish k e).baud = s.baud := by simp [State.finish]
@[simp] theorem State.finish_lastSlotTs (k : PktKind) (e : ErrCode) :
    (s.finish k e).lastSlotTs = s.lastSlotTs := by simp [State.finish]
@[simp] theorem State.finish_tn (k : PktKind) (e : ErrCode) :
    (s.finish k e).tn = s.tn := by simp [State.finish]
@[simp] theorem State.finish_irqEn (k : PktKind) (e : ErrCode) :
    (s.finish k e).irqEn = s.irqEn := by simp [State.finish]
@[simp] theorem State.finish_line (k : PktKind) (e : ErrCode) :
    (s.finish k e).line = s.line := by simp [State.finish]
@[simp] theorem State.finish_snifCtrl (k : PktKind) (e : ErrCode) :
    (s.finish k e).snifCtrl = s.snifCtrl := by simp [State.finish]
@[simp] theorem State.finish_snifNegTs (k : PktKind) (e : ErrCode) :
    (s.finish k e).snifNegTs = s.snifNegTs := by simp [State.finish]
@[simp] theorem State.finish_snifPosTs (k : PktKind) (e : ErrCode) :
    (s.finish k e).snifPosTs = s.snifPosTs := by simp [State.finish]
@[simp] theorem State.finish_snifBreakW (k : PktKind) (e : ErrCode) :
    (s.finish k e).snifBreakW = s.snifBreakW := by simp [State.finish]
@[simp] theorem State.finish_snifQ (k : PktKind) (e : ErrCode) :
    (s.finish k e).snifQ = s.snifQ := by simp [State.finish]
@[simp] theorem State.finish_buf (k : PktKind) (e : ErrCode) :
    (s.finish k e).buf = s.buf := by simp [State.finish]
@[simp] theorem State.finish_lastNow (k : PktKind) (e : ErrCode) :
    (s.finish k e).lastNow = s.lastNow := by simp [State.finish]
@[simp] theorem State.finish_input (k : PktKind) (e : ErrCode) :
    (s.finish k e).input = s.input := by simp [State.finish]
@[simp] theorem State.finish_response (k : PktKind) (e : ErrCode) :
    (s.finish k e).response = s.response := by simp [State.finish]

/-! ### takeByte: the fields it leaves alone -/

@[simp] theorem State.takeByte_cfg (b : Byte) :
    (s.takeByte b).cfg = s.cfg := by unfold State.takeByte; split <;> rfl
@[simp] theorem State.takeByte_flags (b : Byte) :
    (s.takeByte b).flags = s.flags := by unfold State.takeByte; split <;> rfl
@[simp] theorem State.takeByte_rxState (b : Byte) :
    (s.takeByte b).rxState = s.rxState := by unfold State.takeByte; split <;> rfl
@[simp] theorem State.takeByte_txSize (b : Byte) :
    (s.takeByte b).txSize = s.txSize := by unfold State.takeByte; split <;> rfl
@[simp] theorem State.takeByte_rxSize (b : Byte) :
    (s.takeByte b).rxSize = s.rxSize := by unfold State.takeByte; split <;> rfl
@[simp] theorem State.takeByte_breakLen (b : Byte) :
    (s.takeByte b).breakLen = s.breakLen := by unfold State.takeByte; split <;> rfl
@[simp] theorem State.takeByte_mabLen (b : Byte) :
    (s.takeByte b).mabLen = s.mabLen := by unfold State.takeByte; split <;> rfl
@[simp] theorem State.takeByte_baud (b : Byte) :
    (s.takeByte b).baud = s.baud := by unfold State.takeByte; split <;> rfl
@[simp] theorem State.takeByte_lastSlotTs (b : Byte) :
    (s.takeByte b).lastSlotTs = s.lastSlotTs := by unfold State.takeByte; split <;> rfl
@[simp] theorem State.takeByte_tn (b : Byte) :
    (s.takeByte b).tn = s.tn := by unfold State.takeByte; split <;> rfl
@[simp] theorem State.takeByte_pktSize (b : Byte) :
    (s.takeByte b).pktSize = s.pktSize := by unfold State.takeByte; split <;> rfl
@[simp] theorem State.takeByte_pktKind (b : Byte) :
    (s.takeByte b).pktKind = s.pktKind := by unfold State.takeByte; split <;> rfl
@[simp] theorem State.takeByte_pktErr (b : Byte) :
    (s.takeByte b).pktErr = s.pktErr := by unfold State.takeByte; split <;> rfl
@[simp] theorem State.takeByte_timerMode (b : Byte) :
    (s.takeByte b).timerMode = s.timerMode := by unfold State.takeByte; split <;> rfl
@[simp] theorem State.takeByte_irqEn (b : Byte) :
    (s.takeByte b).irqEn = s.irqEn := by unfold State.takeByte; split <;> rfl
@[simp] theorem State.takeByte_line (b : Byte) :
    (s.takeByte b).line = s.line := by unfold State.takeByte; split <;> rfl
@[simp] theorem State.takeByte_taskWaiting (b : Byte) :
    (s.takeByte b).taskWaiting = s.taskWaiting := by unfold State.takeByte; split <;> rfl
@[simp] theorem State.takeByte_snifCtrl (b : Byte) :
    (s.takeByte b).snifCtrl = s.snifCtrl := by unfold State.takeByte; split <;> rfl
@[simp] theorem State.takeByte_snifNegTs (b : Byte) :
    (s.takeByte b).snifNegTs = s.snifNegTs := by unfold State.takeByte; split <;> rfl
@[simp] theorem State.takeByte_snifPosTs (b : Byte) :
    (s.takeByte b).snifPosTs = s.snifPosTs := by unfold State.takeByte; split <;> rfl
@[simp] theorem State.takeByte_snifBreakW (b : Byte) :
    (s.takeByte b).snifBreakW = s.snifBreakW := by unfold State.takeByte; split <;> rfl
@[simp] theorem State.takeByte_snifQ (b : Byte) :
    (s.takeByte b).snifQ = s.snifQ := by unfold State.takeByte; split <;> rfl
@[simp] theorem State.takeByte_lastNow (b : Byte) :
    (s.takeByte b).lastNow = s.lastNow := by unfold State.takeByte; split <;> rfl
@[simp] theorem State.takeByte_input (b : Byte) :
    (s.takeByte b).input = s.input := by unfold State.takeByte; split <;> rfl
@[simp] theorem State.takeByte_outputs (b : Byte) :
    (s.takeByte b).outputs = s.outputs := by unfold State.takeByte; split <;> rfl
@[simp] theorem State.takeByte_response (b : Byte) :
    (s.takeByte b).response = s.response := by unfold State.takeByte; split <;> rfl

/-! ### turnToReceive: the fields it leaves alone -/

@[simp] theorem State.turnToReceive_cfg :
    (s.turnToReceive).cfg = s.cfg := by simp [State.turnToReceive]
@[simp] theorem State.turnToReceive_flags :
    (s.turnToReceive).flags = s.flags := by simp [State.turnToReceive]
@[simp] theorem State.turnToReceive_rxState :
    (s.turnToReceive).rxState = s.rxState := by simp [State.turnToReceive]
@[simp] theorem State.turnToReceive_head :
    (s.turnToReceive).head = s.head := by simp [State.turnToReceive]
@[simp] theorem State.turnToReceive_txSize :
    (s.turnToReceive).txSize = s.txSize := by simp [State.turnToReceive]
@[simp] theorem State.turnToReceive_rxSize :
    (s.turnToReceive).rxSize = s.rxSize := by simp [State.turnToReceive]
@[simp] theorem State.turnToReceive_breakLen :
    (s.turnToReceive).breakLen = s.breakLen := by simp [State.turnToReceive]
@[simp] theorem State.turnToReceive_mabLen :
    (s.turnToReceive).mabLen = s.mabLen := by simp [State.turnToReceive]
@[simp] theorem State.turnToReceive_baud :
    (s.turnToReceive).baud = s.baud := by simp [State.turnToReceive]
@[simp] theorem State.turnToReceive_lastSlotTs :
    (s.turnToReceive).lastSlotTs = s.lastSlotTs := by simp [State.turnToReceive]
@[simp] theorem State.turnToReceive_tn :
    (s.turnToReceive).tn = s.tn := by simp [State.turnToReceive]
@[simp] theorem State.turnToReceive_pktSize :
    (s.turnToReceive).pktSize = s.pktSize := by simp [State.turnToReceive]
@[simp] theorem State.turnToReceive_pktKind :
    (s.turnToReceive).pktKind = s.pktKind := by simp [State.turnToReceive]
@[simp] theorem State.turnToReceive_pktErr :
    (s.turnToReceive).pktErr = s.pktErr := by simp [State.turnToReceive]
@[simp] theorem State.turnToReceive_timerMode :
    (s.turnToReceive).timerMode = s.timerMode := by simp [State.turnToReceive]
@[simp] theorem State.turnToReceive_taskWaiting :
    (s.turnToReceive).taskWaiting = s.taskWaiting := by simp [State.turnToReceive]
@[simp] theorem State.turnToReceive_snifCtrl :
    (s.turnToReceive).snifCtrl = s.snifCtrl := by simp [State.turnToReceive]
@[simp] theorem State.turnToReceive_snifNegTs :
    (s.turnToReceive).snifNegTs = s.snifNegTs := by simp [State.turnToReceive]
@[simp] theorem State.turnToReceive_snifPosTs :
    (s.turnToReceive).snifPosTs = s.snifPosTs := by simp [State.turnToReceive]
@[simp] theorem State.turnToReceive_snifBreakW :
    (s.turnToReceive).snifBreakW = s.snifBreakW := by simp [State.turnToReceive]
@[simp] theorem State.turnToReceive_snifQ :
    (s.turnToReceive).snifQ = s.snifQ := by simp [State.turnToReceive]
@[simp] theorem State.turnToReceive_buf :
    (s.turnToReceive).buf = s.buf := by simp [State.turnToReceive]
@[simp] theorem State.turnToReceive_lastNow :
    (s.turnToReceive).lastNow = s.lastNow := by simp [State.turnToReceive]
@[simp] theorem State.turnToReceive_input :
    (s.turnToReceive).input = s.input := by simp [State.turnToReceive]
@[simp] theorem State.turnToReceive_response :
    (s.turnToReceive).response = s.response := by simp [State.turnToReceive]

/-! ### learnRxSize: the fields it leaves alone -/

@[simp] theorem State.learnRxSize_cfg :
    (s.learnRxSize).cfg = s.cfg := by unfold State.learnRxSize; split <;> rfl
@[simp] theorem State.learnRxSize_flags :
    (s.learnRxSize).flags = s.flags := by unfold State.learnRxSize; split <;> rfl
@[simp] theorem State.learnRxSize_rxState :
    (s.learnRxSize).rxState = s.rxState := by unfold State.learnRxSize; split <;> rfl
@[simp] theorem State.learnRxSize_head :
    (s.learnRxSize).head = s.head := by unfold State.learnRxSize; split <;> rfl
@[simp] theorem State.learnRxSize_txSize :
    (s.learnRxSize).txSize = s.txSize := by unfold State.learnRxSize; split <;> rfl
@[simp] theorem State.learnRxSize_breakLen :
    (s.learnRxSize).breakLen = s.breakLen := by unfold State.learnRxSize; split <;> rfl
@[simp] theorem State.learnRxSize_mabLen :
    (s.learnRxSize).mabLen = s.mabLen := by unfold State.learnRxSize; split <;> rfl
@[simp] theorem State.learnRxSize_baud :
    (s.learnRxSize).baud = s.baud := by unfold State.learnRxSize; split <;> rfl
@[simp] theorem State.learnRxSize_lastSlotTs :
    (s.learnRxSize).lastSlotTs = s.lastSlotTs := by unfold State.learnRxSize; split <;> rfl
@[simp] theorem State.learnRxSize_tn :
    (s.learnRxSize).tn = s.tn := by unfold State.learnRxSize; split <;> rfl
@[simp] theorem State.learnRxSize_pktSize :
    (s.learnRxSize).pktSize = s.pktSize := by unfold State.learnRxSize; split <;> rfl
@[simp] theorem State.learnRxSize_pktKind :
    (s.learnRxSize).pktKind = s.pktKind := by unfold State.learnRxSize; split <;> rfl
@[simp] theorem State.learnRxSize_pktErr :
    (s.learnRxSize).pktErr = s.pktErr := by unfold State.learnRxSize; split <;> rfl
@[simp] theorem State.learnRxSize_timerMode :
    (s.learnRxSize).timerMode = s.timerMode := by unfold State.learnRxSize; split <;> rfl
@[simp] theorem State.learnRxSize_irqEn :
    (s.learnRxSize).irqEn = s.irqEn := by unfold State.learnRxSize; split <;> rfl
@[simp] theorem State.learnRxSize_line :
    (s.learnRxSize).line = s.line := by unfold State.learnRxSize; split <;> rfl
@[simp] theorem State.learnRxSize_taskWaiting :
    (s.learnRxSize).taskWaiting = s.taskWaiting := by unfold State.learnRxSize; split <;> rfl
@[simp] theorem State.learnRxSize_snifCtrl :
    (s.learnRxSize).snifCtrl = s.snifCtrl := by unfold State.learnRxSize; split <;> rfl
@[simp] theorem State.learnRxSize_snifNegTs :
    (s.learnRxSize).snifNegTs = s.snifNegTs := by unfold State.learnRxSize; split <;> rfl
@[simp] theorem State.learnRxSize_snifPosTs :
    (s.learnRxSize).snifPosTs = s.snifPosTs := by unfold State.learnRxSize; split <;> rfl
@[simp] theorem State.learnRxSize_snifBreakW :
    (s.learnRxSize).snifBreakW = s.snifBreakW := by unfold State.learnRxSize; split <;> rfl
@[simp] theorem State.learnRxSize_snifQ :
    (s.learnRxSize).snifQ = s.snifQ := by unfold State.learnRxSize; split <;> rfl
@[simp] theorem State.learnRxSize_buf :
    (s.learnRxSize).buf = s.buf := by unfold State.learnRxSize; split <;> rfl
@[simp] theorem State.learnRxSize_lastNow :
    (s.learnRxSize).lastNow = s.lastNow := by unfold State.learnRxSize; split <;> rfl
@[simp] theorem State.learnRxSize_input :
    (s.learnRxSize).input = s.input := by unfold State.learnRxSize; split <;> rfl
@[simp] theorem State.learnRxSize_outputs :
    (s.learnRxSize).outputs = s.outputs := by unfold State.learnRxSize; split <;> rfl
@[simp] theorem State.learnRxSize_response :
    (s.learnRxSize).response = s.response := by unfold State.learnRxSize; split <;> rfl

end Sys2Proof.Machine
end

