-- ==== Sys2Proof/Laws/Memory.lean ====
section
/-! SUPPORT. The laws of the frame buffer: a read after a write, the canonical form, and what reading
one or several cells answers. -/

namespace Sys2Proof.Machine

/-! ### Read after write -/

@[simp] theorem cellAt_putCell_same (m : List Host.Cell) (a : Nat) (v : Byte) :
    cellAt (putCell m a v) a = some v := by
  induction m with
  | nil => simp [putCell, cellAt]
  | cons c rest ih =>
    obtain ⟨k, w⟩ := c
    unfold putCell
    split
    · simp [cellAt]
    · split
      · simp [cellAt]
      · rename_i h1 h2
        simp [cellAt, ih, Ne.symm h2]

theorem cellAt_putCell_ne (m : List Host.Cell) {a b : Nat} (v : Byte) (h : b ≠ a) :
    cellAt (putCell m a v) b = cellAt m b := by
  induction m with
  | nil => simp [putCell, cellAt, Ne.symm h]
  | cons c rest ih =>
    obtain ⟨k, w⟩ := c
    unfold putCell
    split
    · simp [cellAt, Ne.symm h]
    · split
      · rename_i _ h2
        subst h2
        simp [cellAt, Ne.symm h]
      · simp [cellAt, ih]

theorem cellAt_putCell (m : List Host.Cell) (a b : Nat) (v : Byte) :
    cellAt (putCell m a v) b = if b = a then some v else cellAt m b := by
  split
  · next h => rw [h, cellAt_putCell_same]
  · next h => exact cellAt_putCell_ne m v h

/-- A write never makes a cell UNWRITTEN again (20_memory.md R40). -/
theorem isSome_cellAt_putCell {m : List Host.Cell} {b : Nat} (a : Nat) (v : Byte)
    (h : (cellAt m b).isSome = true) : (cellAt (putCell m a v) b).isSome = true := by
  rw [cellAt_putCell]
  split <;> simp_all

/-! ### The canonical form -/

theorem risingFrom_mono {lo lo' hi : Nat} (h : lo' ≤ lo) :
    ∀ {m : List Host.Cell}, risingFrom lo hi m = true → risingFrom lo' hi m = true
  | [], _ => rfl
  | (k, _) :: rest, hm => by
    simp only [risingFrom, Bool.and_eq_true, decide_eq_true_eq] at hm ⊢
    exact ⟨⟨le_trans h hm.1.1, hm.1.2⟩, hm.2⟩

theorem risingFrom_putCell {hi a : Nat} (v : Byte) (ha : a < hi) :
    ∀ {m : List Host.Cell} {lo : Nat}, lo ≤ a → risingFrom lo hi m = true →
      risingFrom lo hi (putCell m a v) = true
  | [], lo, hlo, _ => by simp [putCell, risingFrom, hlo, ha]
  | (k, w) :: rest, lo, hlo, hm => by
    simp only [risingFrom, Bool.and_eq_true, decide_eq_true_eq] at hm
    unfold putCell
    split
    · next h =>
      simp only [risingFrom, Bool.and_eq_true, decide_eq_true_eq]
      exact ⟨⟨hlo, ha⟩, ⟨h, hm.1.2⟩, hm.2⟩
    · next h =>
      split
      · next h2 =>
        subst h2
        simp only [risingFrom, Bool.and_eq_true, decide_eq_true_eq]
        exact ⟨⟨hlo, ha⟩, hm.2⟩
      · next h2 =>
        simp only [risingFrom, Bool.and_eq_true, decide_eq_true_eq]
        exact ⟨hm.1, risingFrom_putCell v ha (by omega) hm.2⟩

/-- A write keeps the canonical form. -/
theorem Memory.wf_putCell {cap a : Nat} {m : List Host.Cell} (v : Byte) (ha : a < cap)
    (h : Memory.wf cap m = true) : Memory.wf cap (putCell m a v) = true :=
  risingFrom_putCell v ha (Nat.zero_le a) h

theorem Memory.wf_nil (cap : Nat) : Memory.wf cap [] = true := rfl

/-- In canonical form a written cell is a cell of the buffer. -/
theorem lt_of_risingFrom {hi a : Nat} :
    ∀ {m : List Host.Cell} {lo : Nat}, risingFrom lo hi m = true → (cellAt m a).isSome = true → a < hi
  | [], _, _, h => by simp [cellAt] at h
  | (k, w) :: rest, lo, hm, h => by
    simp only [risingFrom, Bool.and_eq_true, decide_eq_true_eq] at hm
    unfold cellAt at h
    split at h
    · omega
    · exact lt_of_risingFrom hm.2 h

/-! ### Reading -/

theorem memRead_ok_iff {s : State} {a : Nat} {b : Byte} :
    memRead s a = .ok b ↔ a < s.cfg.bufCap ∧ cellAt s.buf a = some b := by
  unfold memRead
  split
  · next h => cases hc : cellAt s.buf a <;> simp [h]
  · next h => simp [h]

theorem memRead_of_isSome {s : State} {a : Nat} (ha : a < s.cfg.bufCap)
    (h : (cellAt s.buf a).isSome = true) : ∃ b, memRead s a = .ok b := by
  obtain ⟨b, hb⟩ := Option.isSome_iff_exists.mp h
  exact ⟨b, memRead_ok_iff.mpr ⟨ha, hb⟩⟩

/-- A read inside the buffer faults only on an unwritten cell. -/
theorem memRead_error {s : State} {a : Nat} {f : Fault} (ha : a < s.cfg.bufCap)
    (h : memRead s a = .error f) : f = .unwritten a ∧ cellAt s.buf a = none := by
  unfold memRead at h
  rw [if_pos ha] at h
  cases hc : cellAt s.buf a <;> simp_all

/-- Reading depends only on the buffer's size and the cell. -/
theorem memRead_congr {s s' : State} {a : Nat} (hc : s.cfg.bufCap = s'.cfg.bufCap)
    (h : cellAt s.buf a = cellAt s'.buf a) : memRead s a = memRead s' a := by
  unfold memRead
  rw [hc, h]

theorem memReadMany_congr {s s' : State} (hc : s.cfg.bufCap = s'.cfg.bufCap) :
    ∀ {k a : Nat}, (∀ j, j < k → cellAt s.buf (a + j) = cellAt s'.buf (a + j)) →
      memReadMany s a k = memReadMany s' a k
  | 0, _, _ => rfl
  | k + 1, a, h => by
    have h0 : memRead s a = memRead s' a := memRead_congr hc (by simpa using h 0 (by omega))
    have h1 : memReadMany s (a + 1) k = memReadMany s' (a + 1) k :=
      memReadMany_congr hc fun j hj => by
        have := h (j + 1) (by omega)
        rwa [show a + 1 + j = a + (j + 1) by omega]
    simp only [memReadMany, h0, h1]

/-- Reading several cells answers the bytes `bs` exactly when each cell answers its byte. -/
theorem memReadMany_ok_iff {s : State} : ∀ {k a : Nat} {bs : List Byte},
    memReadMany s a k = .ok bs ↔
      bs.length = k ∧ ∀ j, (h : j < bs.length) → memRead s (a + j) = .ok bs[j]
  | 0, a, bs => by
    constructor
    · intro h
      simp only [memReadMany, Except.ok.injEq] at h
      subst h
      simp
    · rintro ⟨h, -⟩
      rw [List.length_eq_zero_iff.mp h]
      rfl
  | k + 1, a, bs => by
    constructor
    · intro h
      unfold memReadMany at h
      split at h
      · cases h
      · next b hb =>
        split at h
        · cases h
        · next bs' hbs =>
          cases h
          obtain ⟨hl, hr⟩ := memReadMany_ok_iff.mp hbs
          refine ⟨by simp [hl], fun j hj => ?_⟩
          cases j with
          | zero => simpa using hb
          | succ j =>
            have := hr j (by simpa using hj)
            rw [show a + (j + 1) = a + 1 + j by omega]
            simpa using this
    · rintro ⟨hl, hr⟩
      cases bs with
      | nil => simp at hl
      | cons b bs' =>
        have hb : memRead s a = .ok b := hr 0 (by simp)
        have hbs : memReadMany s (a + 1) k = .ok bs' :=
          memReadMany_ok_iff.mpr ⟨by simpa using hl, fun j hj => by
            have := hr (j + 1) (by simpa using hj)
            rw [show a + 1 + j = a + (j + 1) by omega]
            simpa using this⟩
        simp only [memReadMany, hb, hbs]

/-- The buffer's bytes, read in order. -/
theorem memReadMany_of_bytesAt {s : State} {a : Nat} {bs : List Byte} (h : BytesAt s a bs)
    (hc : a + bs.length ≤ s.cfg.bufCap) : memReadMany s a bs.length = .ok bs :=
  memReadMany_ok_iff.mpr ⟨rfl, fun j hj => memRead_ok_iff.mpr ⟨by omega, h j hj⟩⟩

/-- Cells that are all written and in the buffer can be read. -/
theorem memReadMany_of_isSome {s : State} : ∀ {k a : Nat}, a + k ≤ s.cfg.bufCap →
    (∀ j, j < k → (cellAt s.buf (a + j)).isSome = true) → ∃ bs, memReadMany s a k = .ok bs
  | 0, _, _, _ => ⟨[], rfl⟩
  | k + 1, a, hc, h => by
    obtain ⟨b, hb⟩ := memRead_of_isSome (s := s) (a := a) (by omega) (by simpa using h 0 (by omega))
    obtain ⟨bs, hbs⟩ := memReadMany_of_isSome (s := s) (k := k) (a := a + 1) (by omega) fun j hj => by
      rw [show a + 1 + j = a + (j + 1) by omega]
      exact h (j + 1) (by omega)
    exact ⟨b :: bs, by simp only [memReadMany, hb, hbs]⟩

/-- Reading several cells faults on the first one that cannot be read. -/
theorem memReadMany_error {s : State} : ∀ {k a : Nat} {f : Fault}, memReadMany s a k = .error f →
    ∃ j, j < k ∧ memRead s (a + j) = .error f ∧ ∀ i, i < j → ∃ b, memRead s (a + i) = .ok b
  | 0, _, _, h => by simp [memReadMany] at h
  | k + 1, a, f, h => by
    unfold memReadMany at h
    split at h
    · next g hg =>
      cases h
      exact ⟨0, by omega, by simpa using hg, fun i hi => by omega⟩
    · next b hb =>
      split at h
      · next g hg =>
        cases h
        obtain ⟨j, hj, he, hi⟩ := memReadMany_error hg
        refine ⟨j + 1, by omega, by rwa [show a + (j + 1) = a + 1 + j by omega], fun i hlt => ?_⟩
        cases i with
        | zero => exact ⟨b, by simpa using hb⟩
        | succ i =>
          rw [show a + (i + 1) = a + 1 + i by omega]
          exact hi i (by omega)
      · cases h

theorem memReadMany_length {s : State} {a k : Nat} {bs : List Byte}
    (h : memReadMany s a k = .ok bs) : bs.length = k := (memReadMany_ok_iff.mp h).1

end Sys2Proof.Machine
end

