-- ==== Sys2Proof/Laws/Ops.lean ====
section
/-! SUPPORT. What each shared operation can do, said once: the procedures of the receive and transmit
paths, HEAD as a number, and the outcome of a computation that may fault. -/

namespace Sys2Proof.Machine

/-! ### Outcomes -/

@[simp] theorem outcomeOf_ok (s : State) : outcomeOf (.ok s) = .next s := rfl

@[simp] theorem outcomeOf_error (f : Fault) : outcomeOf (.error f) = .fault f := rfl

theorem outcomeOf_next {x : Except Fault State} {t : State} (h : outcomeOf x = .next t) :
    x = .ok t := by
  cases x with
  | error f => simp at h
  | ok s => simpa using h

theorem outcomeOf_fault {x : Except Fault State} {f : Fault} (h : outcomeOf x = .fault f) :
    x = .error f := by
  cases x with
  | error g => simpa using h
  | ok s => simp at h

theorem outcomeOf_ne_refused (x : Except Fault State) (r : Refusal) : outcomeOf x ≠ .refused r := by
  cases x <;> simp

@[simp] theorem returnOk_next (s t : State) (v : BitVec 64) :
    returnOk s v = .next t ↔ s.respond .ok v = t := by
  simp [returnOk]

@[simp] theorem raise_next (s t : State) (e : ErrCode) :
    raise s e = .next t ↔ s.respond e 0 = t := by
  simp [raise]

@[simp] theorem returnOk_ne_fault (s : State) (v : BitVec 64) (f : Fault) :
    returnOk s v ≠ .fault f := by
  simp [returnOk]

@[simp] theorem raise_ne_fault (s : State) (e : ErrCode) (f : Fault) : raise s e ≠ .fault f := by
  simp [raise]

@[simp] theorem returnOk_ne_refused (s : State) (v : BitVec 64) (r : Refusal) :
    returnOk s v ≠ .refused r := by
  simp [returnOk]

@[simp] theorem raise_ne_refused (s : State) (e : ErrCode) (r : Refusal) : raise s e ≠ .refused r := by
  simp [raise]

/-! ### HEAD as a number -/

/-- Under valid parameters a count up to HEAD_MAX fits HEAD. -/
theorem State.toHead_of_le {s : State} {n : Nat} (hc : s.cfg.Valid) (h : n ≤ s.cfg.headMax) :
    s.toHead n = n := by
  have h1 := hc.2.1.1
  have h0 := hc.1
  unfold State.toHead
  have hb : s.cfg.headBits = (s.cfg.headBits - 1) + 1 := by
    cases hz : s.cfg.headBits with
    | zero => rw [hz] at h1; simp at h1; omega
    | succ k => rfl
  rw [hb, Nat.pow_succ]
  generalize 2 ^ (s.cfg.headBits - 1) = m at h1
  unfold Int.bmod
  rw [Int.emod_eq_of_lt (by omega) (by omega), if_pos (by omega)]

/-- A HEAD that is not negative is its count. -/
theorem State.headNat_cast {s : State} (h : 0 ≤ s.head) : (s.headNat : Int) = s.head := by
  unfold State.headNat
  omega

theorem State.clampedHead_toNat {s : State} (hc : s.cfg.bufCap ≤ 65535) :
    s.clampedHead.toNat = min s.headNat s.cfg.bufCap := by
  unfold State.clampedHead
  rw [BitVec.toNat_ofNat]
  omega

/-! ### The small procedures -/

theorem State.cancelResp_timerMode (s : State) :
    s.cancelResp.timerMode = if s.timerMode = .resp then .off else s.timerMode := by
  unfold State.cancelResp
  split <;> simp_all

theorem State.cancelResp_outputs (s : State) :
    s.cancelResp.outputs = s.outputs ++ (if s.timerMode = .resp then [.timerPause] else []) := by
  unfold State.cancelResp
  split <;> simp_all

theorem State.cancelResp_of_ne {s : State} (h : s.timerMode ≠ .resp) : s.cancelResp = s := by
  simp [State.cancelResp, h]

@[simp] theorem State.wakeIf_taskWaiting (s : State) (h : Bool) (n : BitVec 16) (k : PktKind)
    (e : ErrCode) : (s.wakeIf h n k e).taskWaiting = false := by
  unfold State.wakeIf
  split <;> simp_all

theorem State.wakeIf_outputs (s : State) (h : Bool) (n : BitVec 16) (k : PktKind) (e : ErrCode) :
    (s.wakeIf h n k e).outputs = s.outputs ++ (if s.taskWaiting then [.wake h n k e] else []) := by
  unfold State.wakeIf
  split <;> simp_all

theorem State.endTransaction_flags (s : State) :
    s.endTransaction.flags = if s.awaiting then s.flags.endTx else s.flags := by
  unfold State.endTransaction
  split <;> simp

theorem State.endTransaction_timerMode (s : State) :
    s.endTransaction.timerMode =
      if s.awaiting = true ∧ s.timerMode = .resp then .off else s.timerMode := by
  unfold State.endTransaction
  split
  · next h => by_cases hr : s.timerMode = .resp <;> simp [State.cancelResp_timerMode, h, hr]
  · next h => simp [h]

theorem State.endTransaction_outputs (s : State) :
    s.endTransaction.outputs =
      s.outputs ++ (if s.awaiting = true ∧ s.timerMode = .resp then [.timerPause] else []) := by
  unfold State.endTransaction
  split
  · next h => by_cases hr : s.timerMode = .resp <;> simp [State.cancelResp_outputs, h, hr]
  · next h => simp [h]

/-! ### Finish (40_receive.md R76) -/

@[simp] theorem State.finish_rxState (s : State) (k : PktKind) (e : ErrCode) :
    (s.finish k e).rxState = .postPacket := by
  simp [State.finish]

@[simp] theorem State.finish_pktSize (s : State) (k : PktKind) (e : ErrCode) :
    (s.finish k e).pktSize = s.clampedHead := by
  simp [State.finish]

@[simp] theorem State.finish_pktKind (s : State) (k : PktKind) (e : ErrCode) :
    (s.finish k e).pktKind = k := by
  simp [State.finish]

@[simp] theorem State.finish_pktErr (s : State) (k : PktKind) (e : ErrCode) :
    (s.finish k e).pktErr = e := by
  simp [State.finish]

@[simp] theorem State.finish_taskWaiting (s : State) (k : PktKind) (e : ErrCode) :
    (s.finish k e).taskWaiting = false := by
  simp [State.finish]

theorem State.finish_flags (s : State) (k : PktKind) (e : ErrCode) :
    (s.finish k e).flags =
      if s.awaiting then (s.flags.setHasData true).endTx else s.flags.setHasData true := by
  simp [State.finish, State.endTransaction_flags, State.awaiting, Flags.setHasData]

theorem State.finish_timerMode (s : State) (k : PktKind) (e : ErrCode) :
    (s.finish k e).timerMode =
      if s.awaiting = true ∧ s.timerMode = .resp then .off else s.timerMode := by
  simp [State.finish, State.endTransaction_timerMode, State.awaiting, Flags.setHasData]

theorem State.finish_outputs (s : State) (k : PktKind) (e : ErrCode) :
    (s.finish k e).outputs =
      s.outputs ++ (if s.awaiting = true ∧ s.timerMode = .resp then [.timerPause] else []) ++
        (if s.taskWaiting then [.wake true s.clampedHead k e] else []) := by
  simp [State.finish, State.wakeIf_outputs, State.endTransaction_outputs, State.awaiting,
    Flags.setHasData]

/-! ### One received byte (40_receive.md R78) -/

theorem State.takeByte_buf (s : State) (b : Byte) :
    (s.takeByte b).buf = if s.headNat < s.cfg.bufCap then putCell s.buf s.headNat b else s.buf := by
  unfold State.takeByte
  split <;> simp

theorem State.takeByte_head (s : State) (b : Byte) :
    (s.takeByte b).head = s.toHead (min (s.headNat + 1) s.cfg.headMax : Nat) := by
  unfold State.takeByte
  split <;> rfl

theorem State.takeByte_head_of_valid {s : State} (b : Byte) (hc : s.cfg.Valid) :
    (s.takeByte b).head = (min (s.headNat + 1) s.cfg.headMax : Nat) := by
  rw [State.takeByte_head, State.toHead_of_le hc (by omega)]

theorem State.takeByte_headNat {s : State} (b : Byte) (hc : s.cfg.Valid) :
    (s.takeByte b).headNat = min (s.headNat + 1) s.cfg.headMax := by
  rw [State.headNat, State.takeByte_head_of_valid b hc]
  omega

/-- Everything one received byte can do. -/
theorem rxByte_cases {s t : State} {b : Byte} (h : rxByte s b = .ok t) :
    (s.rxState = .waitBreak ∧ t = s) ∨
    (s.rxState = .postPacket ∧ 0 ≤ s.head ∧ t = s.takeByte b) ∨
    (s.rxState = .receiving ∧ 0 ≤ s.head ∧
      ((classify (s.takeByte b).cancelResp = .ok .pending ∧ t = (s.takeByte b).cancelResp) ∨
       ∃ k e, classify (s.takeByte b).cancelResp = .ok (.complete k e) ∧
         t = (s.takeByte b).cancelResp.finish k e)) := by
  unfold rxByte at h
  split at h
  · next hr => cases h; exact .inl ⟨hr, rfl⟩
  · next hr =>
    split at h
    · cases h
    · next hn =>
      refine .inr (.inr ⟨hr, by omega, ?_⟩)
      unfold settleByte at h
      split at h
      · cases h
      · next hc => cases h; exact .inl ⟨hc, rfl⟩
      · next k e hc => cases h; exact .inr ⟨k, e, hc, rfl⟩
  · next hr =>
    split at h
    · cases h
    · cases h; exact .inr (.inl ⟨hr, by omega, rfl⟩)

/-- What every received byte keeps, a run of received bytes keeps. -/
theorem rxBytes_induct {P : State → Prop} (step : ∀ s b t, P s → rxByte s b = .ok t → P t) :
    ∀ {p : List Byte} {s t : State}, P s → rxBytes s p = .ok t → P t
  | [], s, t, hs, h => by
    simp only [rxBytes, Except.ok.injEq] at h
    exact h ▸ hs
  | b :: bs, s, t, hs, h => by
    simp only [rxBytes] at h
    split at h
    · cases h
    · next u hu => exact rxBytes_induct step (step s b u hs hu) h

/-- Where every received byte is taken without a fault while `P` holds, a run of them is. -/
theorem rxBytes_ok {P : State → Prop} (step : ∀ s b, P s → ∃ t, rxByte s b = .ok t ∧ P t) :
    ∀ {p : List Byte} {s : State}, P s → ∃ t, rxBytes s p = .ok t ∧ P t
  | [], s, hs => ⟨s, rfl, hs⟩
  | b :: bs, s, hs => by
    obtain ⟨u, hu, hp⟩ := step s b hs
    obtain ⟨t, ht, hq⟩ := rxBytes_ok step (p := bs) hp
    exact ⟨t, by simp only [rxBytes, hu, ht], hq⟩

/-- Everything an error finish can do. -/
theorem finishIfReceiving_cases {s t : State} {e : ErrCode} (h : finishIfReceiving s e = .ok t) :
    (s.rxState ≠ .receiving ∧ t = s) ∨
    (s.rxState = .receiving ∧ ∃ k, kindOf s = .ok k ∧ t = s.finish k e) := by
  unfold finishIfReceiving at h
  split at h
  · next hr =>
    split at h
    · cases h
    · next k hk => cases h; exact .inr ⟨hr, k, hk, rfl⟩
  · next hr => cases h; exact .inl ⟨hr, rfl⟩

/-! ### The transmit FIFO (42_transmit.md R99) -/

/-- Everything a push can do. -/
theorem push_cases {s t : State} {k : Nat} (h : push s k = .ok t) :
    0 ≤ s.head ∧ ∃ bs, memReadMany s s.headNat k = .ok bs ∧
      t = (s.emit (.txFifoWrite bs)).setHead (s.head + k) := by
  unfold push at h
  split at h
  · cases h
  · next hn =>
    split at h
    · cases h
    · next bs hbs => cases h; exact ⟨by omega, bs, hbs, rfl⟩

/-- A push whose cells can be read. -/
theorem push_of_read {s : State} {k : Nat} {bs : List Byte} (h0 : 0 ≤ s.head)
    (h : memReadMany s s.headNat k = .ok bs) :
    push s k = .ok ((s.emit (.txFifoWrite bs)).setHead (s.head + k)) := by
  unfold push
  rw [if_neg (by omega), h]

/-! ### The two-lane code (44_classifier.md R119) -/

theorem laneDecodeAll_append : ∀ (bs : List Byte) (rest : List Byte),
    laneDecodeAll (laneEncodeAll bs ++ rest) =
      bs.map (fun b => laneDecode (b ||| 0xAA) (b ||| 0x55)) ++ laneDecodeAll rest
  | [], _ => rfl
  | b :: bs, rest => by
    simp only [laneEncodeAll, laneEncode, List.cons_append, List.nil_append, laneDecodeAll,
      laneDecodeAll_append bs rest, List.map_cons]

theorem laneEncodeAll_length : ∀ bs : List Byte, (laneEncodeAll bs).length = 2 * bs.length
  | [] => rfl
  | b :: bs => by
    simp only [laneEncodeAll, laneEncode, List.cons_append, List.nil_append, List.length_cons,
      laneEncodeAll_length bs]
    omega

end Sys2Proof.Machine
end

