-- ==== Sys2Proof/Laws/Paths.lean ====
section
/-! SUPPORT. What the larger shared computations answer: clamping and widths as numbers, IRQ_EN after
each mask change, HEAD's count, and the readers of the buffer where every cell they read is
written. -/

namespace Sys2Proof.Machine

/-! ### Numbers -/

/-- Clamping gives the nearest value of a window that is not empty. -/
theorem clamp_toNat {v lo hi : BitVec 32} (h : lo ≤ hi) :
    (clamp v lo hi).toNat = max lo.toNat (min v.toNat hi.toNat) := by
  simp only [BitVec.le_def] at h
  unfold clamp
  simp only [BitVec.lt_def]
  split
  · omega
  · split <;> omega

/-- A clamped value lies in its window. -/
theorem clamp_mem {v lo hi : BitVec 32} (h : lo ≤ hi) : lo ≤ clamp v lo hi ∧ clamp v lo hi ≤ hi := by
  have := clamp_toNat (v := v) h
  simp only [BitVec.le_def] at h ⊢
  omega

/-- A width between two times in order, saturated to 32 bits. -/
theorem width32_of_le {t t0 : Stamp} (h : t0 ≤ t) :
    width32 t t0 = BitVec.ofNat 32 (min (t.toNat - t0.toNat) (2 ^ 32 - 1)) := by
  simp only [BitVec.le_def] at h
  have hmin : min ((t.toNat : Int) - (t0.toNat : Int)) (2 ^ 32 - 1) =
      ((min (t.toNat - t0.toNat) (2 ^ 32 - 1) : Nat) : Int) := by omega
  unfold width32
  rw [hmin]
  rfl

/-- HEAD after `k` more bytes are counted, while the count stays within HEAD_MAX. -/
theorem State.toHead_add {s : State} {k : Nat} (hc : s.cfg.Valid) (h0 : 0 ≤ s.head)
    (hk : s.headNat + k ≤ s.cfg.headMax) : s.toHead (s.head + k) = s.head + k := by
  have := State.toHead_of_le hc hk
  have hn := State.headNat_cast h0
  push_cast at this
  rwa [hn] at this

/-! ### IRQ_EN: the receive lines are bits 5 to 0, the transmit lines bits 7 and 6 -/

theorem rxLines_or_txAll (m : BitVec 8) : (m ||| txAll).extractLsb' 0 6 = m.extractLsb' 0 6 := by
  revert m; decide

theorem txLines_or_rxAll (m : BitVec 8) : (m ||| rxAll).extractLsb' 6 2 = m.extractLsb' 6 2 := by
  revert m; decide

theorem rxLines_and_not_rxAll (m : BitVec 8) : (m &&& ~~~ rxAll).extractLsb' 0 6 = 0 := by
  revert m; decide

theorem txLines_and_not_rxAll (m : BitVec 8) :
    (m &&& ~~~ rxAll).extractLsb' 6 2 = m.extractLsb' 6 2 := by
  revert m; decide

theorem rxLines_and_not_txAll (m : BitVec 8) :
    (m &&& ~~~ txAll).extractLsb' 0 6 = m.extractLsb' 0 6 := by
  revert m; decide

theorem txLines_and_not_txAll (m : BitVec 8) : (m &&& ~~~ txAll).extractLsb' 6 2 = 0 := by
  revert m; decide

/-- With no receive line enabled, every receive line is off. -/
theorem State.lineOn_rx_of_masked {s : State} (h : s.irqEn.extractLsb' 0 6 = 0) :
    s.lineOn .rxData = false ∧ s.lineOn .rxTimeout = false ∧ s.lineOn .rxBreak = false ∧
      s.lineOn .rxFramingErr = false ∧ s.lineOn .rxOverflow = false ∧ s.lineOn .rxClash = false := by
  have key : ∀ m : BitVec 8, m.extractLsb' 0 6 = 0 → m.getLsbD 0 = false ∧ m.getLsbD 1 = false ∧
      m.getLsbD 2 = false ∧ m.getLsbD 3 = false ∧ m.getLsbD 4 = false ∧ m.getLsbD 5 = false := by decide
  exact key s.irqEn h

/-- With no transmit line enabled, both transmit lines are off. -/
theorem State.lineOn_tx_of_masked {s : State} (h : s.irqEn.extractLsb' 6 2 = 0) :
    s.lineOn .txData = false ∧ s.lineOn .txDone = false := by
  have key : ∀ m : BitVec 8, m.extractLsb' 6 2 = 0 → m.getLsbD 6 = false ∧ m.getLsbD 7 = false := by
    decide
  exact key s.irqEn h

/-! ### Readers of the buffer where the cells are written -/

/-- A push of bytes that are left and written: they go to the FIFO, and HEAD counts them. -/
theorem push_of_written {s : State} {k : Nat} (h0 : 0 ≤ s.head)
    (hc : s.headNat + k ≤ s.cfg.bufCap) (hw : AllWritten s (s.headNat + k)) :
    ∃ bs, bs.length = k ∧ BytesAt s s.headNat bs ∧
      push s k = .ok ((s.emit (.txFifoWrite bs)).setHead (s.head + k)) := by
  obtain ⟨bs, hbs⟩ := memReadMany_of_isSome (s := s) (a := s.headNat) (k := k) hc
    fun j hj => hw _ (by omega)
  obtain ⟨hl, hr⟩ := memReadMany_ok_iff.mp hbs
  refine ⟨bs, hl, fun j hj => (memRead_ok_iff.mp (hr j hj)).2, ?_⟩
  exact push_of_read h0 hbs

/-- The kind of an error finish is there where the counted cells are written. -/
theorem kindOf_of_written {s : State} (hc : 2 ≤ s.cfg.bufCap)
    (hw : AllWritten s (min s.headNat s.cfg.bufCap)) : ∃ k, kindOf s = .ok k := by
  unfold kindOf
  split
  · exact ⟨_, rfl⟩
  · next h1 =>
    have := s.headNat_cast (by omega)
    obtain ⟨b0, hb0⟩ := memRead_of_isSome (s := s) (a := 0) (by omega) (hw 0 (by omega))
    rw [hb0]
    simp only
    split
    · split
      · exact ⟨_, rfl⟩
      · obtain ⟨b1, hb1⟩ := memRead_of_isSome (s := s) (a := 1) (by omega) (hw 1 (by omega))
        rw [hb1]
        simp only
        split <;> exact ⟨_, rfl⟩
    · exact ⟨_, rfl⟩

/-- The response check answers where the packet is written. -/
theorem expectsResponse_of_written {s : State} (hc : s.txSize.toNat ≤ s.cfg.bufCap)
    (hw : AllWritten s s.txSize.toNat) : ∃ resp dub, expectsResponse s = .ok (resp, dub) := by
  unfold expectsResponse
  split
  · exact ⟨_, _, rfl⟩
  · next h24 =>
    obtain ⟨b1, hb1⟩ := memReadMany_of_isSome (s := s) (a := 0) (k := 2) (by omega)
      fun j hj => hw _ (by omega)
    obtain ⟨b2, hb2⟩ := memReadMany_of_isSome (s := s) (a := 5) (k := 4) (by omega)
      fun j hj => hw _ (by omega)
    obtain ⟨b3, hb3⟩ := memReadMany_of_isSome (s := s) (a := 20) (k := 3) (by omega)
      fun j hj => hw _ (by omega)
    rw [hb1, hb2, hb3]
    simp only
    split <;> exact ⟨_, _, rfl⟩

theorem classifyRdm_of_written {s : State} {h : Nat} (hc : 257 ≤ s.cfg.bufCap)
    (hw : AllWritten s (min h s.cfg.bufCap)) : ∃ v, classifyRdm s h = .ok v := by
  unfold classifyRdm
  split
  · exact ⟨_, rfl⟩
  · obtain ⟨len, hlen⟩ := memRead_of_isSome (s := s) (a := 2) (by omega) (hw 2 (by omega))
    have := len.isLt
    rw [hlen]
    simp only
    split
    · exact ⟨_, rfl⟩
    · split
      · exact ⟨_, rfl⟩
      · obtain ⟨body, hbody⟩ := memReadMany_of_isSome (s := s) (a := 0) (k := len.toNat) (by omega)
          fun j hj => hw _ (by omega)
        obtain ⟨hi, hhi⟩ := memRead_of_isSome (s := s) (a := len.toNat) (by omega) (hw _ (by omega))
        obtain ⟨lo, hlo⟩ := memRead_of_isSome (s := s) (a := len.toNat + 1) (by omega)
          (hw _ (by omega))
        rw [hbody, hhi, hlo]
        exact ⟨_, rfl⟩

theorem preambleLen_le : ∀ bs : List Byte, preambleLen bs ≤ bs.length
  | [] => by simp [preambleLen]
  | b :: bs => by
    have := preambleLen_le bs
    unfold preambleLen
    split
    · simp only [List.length_cons]
      omega
    · simp

theorem classifyDisc_of_written {s : State} {h : Nat} (hc : 24 ≤ s.cfg.bufCap)
    (hw : AllWritten s (min h s.cfg.bufCap)) : ∃ v, classifyDisc s h = .ok v := by
  unfold classifyDisc
  obtain ⟨bs, hbs⟩ := memReadMany_of_isSome (s := s) (a := 0) (k := min h 8) (by omega)
    fun j hj => hw _ (by omega)
  have hl := memReadMany_length hbs
  rw [hbs]
  simp only
  split
  · split <;> exact ⟨_, rfl⟩
  · next d hd =>
    have hp : preambleLen bs < bs.length := (List.getElem?_eq_some_iff.mp hd).1
    split
    · exact ⟨_, rfl⟩
    · split
      · exact ⟨_, rfl⟩
      · obtain ⟨e, he⟩ := memReadMany_of_isSome (s := s) (a := preambleLen bs + 1) (k := 16)
          (by omega) fun j hj => hw _ (by omega)
        rw [he]
        exact ⟨_, rfl⟩

/-- The classifier answers where at least one byte is counted and the counted cells are written. -/
theorem classify_of_written {s : State} (hc : 257 ≤ s.cfg.bufCap) (h1 : 1 ≤ s.headNat)
    (hw : AllWritten s (min s.headNat s.cfg.bufCap)) : ∃ v, classify s = .ok v := by
  unfold classify
  obtain ⟨b0, hb0⟩ := memRead_of_isSome (s := s) (a := 0) (by omega) (hw 0 (by omega))
  rw [hb0]
  simp only
  split
  · split
    · exact ⟨_, rfl⟩
    · obtain ⟨b1, hb1⟩ := memRead_of_isSome (s := s) (a := 1) (by omega) (hw 1 (by omega))
      rw [hb1]
      simp only
      split
      · exact classifyRdm_of_written hc hw
      · exact ⟨_, rfl⟩
  · split
    · exact classifyDisc_of_written (by omega) hw
    · exact ⟨_, rfl⟩

end Sys2Proof.Machine
end

