-- ==== Sys2Proof/Laws/PerInstr.lean ====
section
/-! SUPPORT. Statements made of every operation, one lemma per constructor. WordCount: how many words an
operation takes in a serial stream (30_encoding.md R63). -/

namespace Sys2Proof.Laws

/-- Packing takes `⌈n/4⌉` words (30_encoding.md R63). -/
theorem packWords_length : ∀ p : List Byte, (packWords p).length = (p.length + 3) / 4
  | [] => rfl
  | [_] => by simp [packWords]
  | [_, _] => by simp [packWords]
  | [_, _, _] => by simp [packWords]
  | _ :: _ :: _ :: _ :: rest => by
    simp only [packWords, List.length_cons, packWords_length rest]
    omega

/-- R63's length of an operation, by its format: 2 for CX, `1 + ⌈n/4⌉` for EB, else 1. -/
def WordCount.expected : Instr → Nat
  | .rxData p | .rxTimeout p | .rxFramingErr p => 1 + (p.length + 3) / 4
  | .setBreakLen _ | .setMabLen _ | .setBaud _ => 2
  | .rxBreak | .rxOverflow | .rxClash | .txData _ | .txDone | .timerAlarm => 1
  | .gpioNegedge | .gpioPosedge | .enable | .disable | .bufWrite _ _ | .bufRead _ => 1
  | .txStart _ | .rxArm | .wait _ | .waitCancel | .rxConsume | .abort | .setTn _ => 1
  | .readReg _ | .snifferCtrl _ | .snifferPop => 1

/-- An operation is spelled in as many words as R63 gives its format. -/
def WordCount.Statement (i : Instr) : Prop := (encodeWords i).length = WordCount.expected i

theorem WordCount.rxData (p : List Byte) : WordCount.Statement (.rxData p) := by
  simp [WordCount.Statement, WordCount.expected, encodeWords, encode, packWords_length, Nat.add_comm]

theorem WordCount.rxTimeout (p : List Byte) : WordCount.Statement (.rxTimeout p) := by
  simp [WordCount.Statement, WordCount.expected, encodeWords, encode, packWords_length, Nat.add_comm]

theorem WordCount.rxBreak : WordCount.Statement .rxBreak := rfl

theorem WordCount.rxFramingErr (p : List Byte) : WordCount.Statement (.rxFramingErr p) := by
  simp [WordCount.Statement, WordCount.expected, encodeWords, encode, packWords_length, Nat.add_comm]

theorem WordCount.rxOverflow : WordCount.Statement .rxOverflow := rfl

theorem WordCount.rxClash : WordCount.Statement .rxClash := rfl

theorem WordCount.txData (space : BitVec 16) : WordCount.Statement (.txData space) := rfl

theorem WordCount.txDone : WordCount.Statement .txDone := rfl

theorem WordCount.timerAlarm : WordCount.Statement .timerAlarm := rfl

theorem WordCount.gpioNegedge : WordCount.Statement .gpioNegedge := rfl

theorem WordCount.gpioPosedge : WordCount.Statement .gpioPosedge := rfl

theorem WordCount.enable : WordCount.Statement .enable := rfl

theorem WordCount.disable : WordCount.Statement .disable := rfl

theorem WordCount.setBreakLen (v : BitVec 32) : WordCount.Statement (.setBreakLen v) := rfl

theorem WordCount.setMabLen (v : BitVec 32) : WordCount.Statement (.setMabLen v) := rfl

theorem WordCount.setBaud (v : BitVec 32) : WordCount.Statement (.setBaud v) := rfl

theorem WordCount.bufWrite (addr : BitVec 16) (data : Byte) : WordCount.Statement (.bufWrite addr data) := rfl

theorem WordCount.bufRead (addr : BitVec 16) : WordCount.Statement (.bufRead addr) := rfl

theorem WordCount.txStart (n : BitVec 16) : WordCount.Statement (.txStart n) := rfl

theorem WordCount.rxArm : WordCount.Statement .rxArm := rfl

theorem WordCount.wait (c : WaitCond) : WordCount.Statement (.wait c) := rfl

theorem WordCount.waitCancel : WordCount.Statement .waitCancel := rfl

theorem WordCount.rxConsume : WordCount.Statement .rxConsume := rfl

theorem WordCount.abort : WordCount.Statement .abort := rfl

theorem WordCount.setTn (v : Byte) : WordCount.Statement (.setTn v) := rfl

theorem WordCount.readReg (r : Byte) : WordCount.Statement (.readReg r) := rfl

theorem WordCount.snifferCtrl (b : Bool) : WordCount.Statement (.snifferCtrl b) := rfl

theorem WordCount.snifferPop : WordCount.Statement .snifferPop := rfl

end Sys2Proof.Laws
end

