-- ==== Sys2Proof/Tests/Slice0.lean ====
section
/-! SUPPORT. The model's own tests: ill-formed operations that WellFormed refuses, words written out from
30_encoding.md, single steps whose results are those of 95_test_vectors.md, and, for every statement with
hypotheses, a concrete state and operands that meet them all. -/

namespace Sys2Proof.Tests

open Sys2Proof Sys2Proof.Machine

/-! ### Small states -/

/-- The state an operation leads to, if it leads to one. -/
def after (i : Instr) (s : State) : Option State :=
  match exec i s with
  | .next t => some t
  | .fault _ => none
  | .refused _ => none

/-- The fault an operation ends in, if it ends in one. -/
def faultOf (i : Instr) (s : State) : Option Fault :=
  match exec i s with
  | .next _ => none
  | .fault f => some f
  | .refused _ => none

theorem exec_of_after {i : Instr} {s t : State} (h : after i s = some t) : exec i s = .next t := by
  unfold after at h
  split at h
  · next u hu => rw [hu, Option.some.inj h]
  · cases h
  · cases h

theorem exec_of_faultOf {i : Instr} {s : State} {f : Fault} (h : faultOf i s = some f) :
    exec i s = .fault f := by
  unfold faultOf at h
  split at h
  · cases h
  · next g hg => rw [hg, Option.some.inj h]
  · cases h

/-- An operation that leads to a state leads to some state. -/
theorem next_of_isSome {i : Instr} {s : State} (h : (after i s).isSome = true) :
    ∃ t, exec i s = .next t := by
  obtain ⟨t, ht⟩ := Option.isSome_iff_exists.mp h
  exact ⟨t, exec_of_after ht⟩

/-- A buffer whose first cells hold the given bytes. -/
def bufOf (bs : List Byte) : List Host.Cell := bs.zipIdx.map fun x => (x.2, x.1)

/-- After a BREAK and the given bytes, with none of them completing a packet. -/
def receiving (bs : List Byte) : State :=
  { State.reset with buf := bufOf bs, head := bs.length, rxState := .receiving }

/-- 95_test_vectors.md P1's end, without its times: a 5-byte DMX frame is ready. -/
def frameReady : State :=
  { receiving [0x00, 0x11, 0x22, 0x33, 0x44] with
    rxState := .postPacket, rxSize := 5, pktSize := 5, pktKind := .dmx
    flags := { State.reset.flags with hasData := true } }

/-- The bytes of a packet in the buffer of an idle port. -/
def loaded (bs : List Byte) : State := { State.reset with buf := bufOf bs }

/-- During the transmitted BREAK of the given packet. -/
def sendingBreak (bs : List Byte) : State :=
  { loaded bs with
    txSize := BitVec.ofNat 16 bs.length, head := 0, timerMode := .brk, irqEn := 0
    line := ⟨false, true⟩
    flags := { State.reset.flags with sending := true, idle := false, sentLast := true, inBreak := true } }

/-- During the MAB of the given packet. -/
def sendingMab (bs : List Byte) : State :=
  { sendingBreak bs with
    timerMode := .mab, line := ⟨false, false⟩
    flags := { State.reset.flags with sending := true, idle := false, sentLast := true, inMab := true } }

/-- After the MAB of the given packet, `n` of its bytes pushed. -/
def sendingSlots (bs : List Byte) (n : Int) : State :=
  { sendingMab bs with
    timerMode := .off, irqEn := 0xC0, head := n
    flags := { State.reset.flags with sending := true, idle := false, sentLast := true } }

/-- Awaiting the reply to the given packet, its response timer armed. -/
def awaitingReply (bs : List Byte) : State :=
  { sendingSlots bs (-1) with
    timerMode := .resp, irqEn := 0x3F, line := ⟨true, false⟩ }

/-- After a transmission that expects no reply: the transceiver is still in transmit. -/
def transmitted : State :=
  { loaded [0x00] with txSize := 1, line := ⟨false, false⟩, irqEn := 0 }

/-- A disabled port. -/
def disabled : State :=
  { State.reset with flags := { State.reset.flags with enabled := false }, irqEn := 0 }

/-- The sniffer on, in a received BREAK that fell at 1000, at time 1176. -/
def sniffingBreak : State :=
  { receiving [] with
    snifCtrl := true, snifNegTs := 1000, lastNow := 1176
    flags := { State.reset.flags with inBreak := true } }

/-- The sniffer on, in the MAB after a BREAK of 176, at time 1188. -/
def sniffingMab : State :=
  { sniffingBreak with
    snifBreakW := 176, snifPosTs := 1176, lastNow := 1188
    flags := { State.reset.flags with inMab := true } }

/-- A block without the sniffer. -/
def noSniffer : State := State.resetWith { Config.default with snifferPresent := false }

/-- GET of 95_test_vectors.md. -/
def getPacket : List Byte :=
  [0xCC, 0x01, 0x18, 0x05, 0xE0, 0x00, 0x00, 0x00, 0x01, 0x05, 0xE0, 0x12, 0x34] ++
  [0x56, 0x78, 0x00, 0x01, 0x00, 0x00, 0x00, 0x20, 0x10, 0x00, 0x00, 0x03, 0xF5]

/-- DUB of 95_test_vectors.md. -/
def dubPacket : List Byte :=
  [0xCC, 0x01, 0x24, 0xFF, 0xFF, 0xFF, 0xFF, 0xFF, 0xFF, 0x05, 0xE0, 0x12, 0x34] ++
  [0x56, 0x78, 0x01, 0x01, 0x00, 0x00, 0x00, 0x10, 0x00, 0x01, 0x0C, 0x00, 0x00] ++
  [0x00, 0x00, 0x00, 0x00, 0xFF, 0xFF, 0xFF, 0xFF, 0xFF, 0xFE, 0x0E, 0xFC]

/-- The discovery response of UID 05E0:00000001 after `p` preamble bytes (95_test_vectors.md L1.4). -/
def discResponse (p : Nat) : List Byte :=
  List.replicate p 0xFE ++ [0xAA, 0xAF, 0x55, 0xEA, 0xF5, 0xAA, 0x55, 0xAA, 0x55, 0xAA, 0x55] ++
    [0xAB, 0x55, 0xAE, 0x57, 0xEA, 0xF5]

/-- The first `n` bytes of a frame `00 01 02 …`. -/
def ramp (n : Nat) : List Byte := (List.range n).map (BitVec.ofNat 8)

/-! ### WellFormed refuses what the field constraints of R62 refuse -/

theorem test_rx_data_without_bytes_is_ill_formed :
    WellFormed Config.default (.rxData []) = false := by decide

theorem test_rx_data_above_the_fifo_is_ill_formed :
    WellFormed Config.default (.rxData (List.replicate 129 0)) = false ∧
      WellFormed Config.default (.rxData (List.replicate 128 0)) = true := by simp [WellFormed, Config.default]

theorem test_rx_timeout_counts_are_checked :
    WellFormed Config.default (.rxTimeout []) = false ∧
      WellFormed Config.default (.rxTimeout (List.replicate 129 0)) = false ∧
      WellFormed Config.default (.rxTimeout [0]) = true := by simp [WellFormed, Config.default]

theorem test_rx_framing_err_count_is_checked :
    WellFormed Config.default (.rxFramingErr (List.replicate 128 0)) = false ∧
      WellFormed Config.default (.rxFramingErr (List.replicate 127 0)) = true ∧
      WellFormed Config.default (.rxFramingErr []) = true := by simp [WellFormed, Config.default]

theorem test_tx_data_room_is_checked :
    WellFormed Config.default (.txData 0) = false ∧ WellFormed Config.default (.txData 129) = false ∧
      WellFormed Config.default (.txData 1) = true ∧
      WellFormed Config.default (.txData 128) = true := by decide

/-! ### Decoding: each operation's word, from the formats of R60 and the opcodes of R62 -/

theorem test_decode_rx_lines :
    spelled Config.default [0x10000002, 0x00000100] = some (.rxData [0x00, 0x01]) ∧
    spelled Config.default [0x11000001, 0x00000000] = some (.rxTimeout [0x00]) ∧
    spelled Config.default [0x12000000] = some .rxBreak ∧
    spelled Config.default [0x13000002, 0x00002928] = some (.rxFramingErr [0x28, 0x29]) ∧
    spelled Config.default [0x14000000] = some .rxOverflow ∧
    spelled Config.default [0x15000000] = some .rxClash := by decide

theorem test_decode_rx_data_of_five_bytes :
    spelled Config.default [0x10000005, 0x30201000, 0x00000040] =
      some (.rxData [0x00, 0x10, 0x20, 0x30, 0x40]) := by decide

theorem test_decode_tx_lines_and_timer :
    spelled Config.default [0x16000005] = some (.txData 5) ∧
    spelled Config.default [0x17000000] = some .txDone ∧
    spelled Config.default [0x20000000] = some .timerAlarm := by decide

theorem test_decode_edges :
    spelled Config.default [0x30000000] = some .gpioNegedge ∧
    spelled Config.default [0x31000000] = some .gpioPosedge := by decide

theorem test_decode_setters :
    spelled Config.default [0x82000000, 0x00000032] = some (.setBreakLen 50) ∧
    spelled Config.default [0x83000000, 0x000F4241] = some (.setMabLen 1000001) ∧
    spelled Config.default [0x84000000, 0xFFFFFFFF] = some (.setBaud 4294967295) := by decide

theorem test_decode_buffer_commands :
    spelled Config.default [0x850200FF] = some (.bufWrite 512 0xFF) ∧
    spelled Config.default [0x86002A00] = some (.bufRead 42) ∧
    spelled Config.default [0x87000201] = some (.txStart 513) := by decide

theorem test_decode_bare_commands :
    spelled Config.default [0x80000000] = some .enable ∧
    spelled Config.default [0x81000000] = some .disable ∧
    spelled Config.default [0x88000000] = some .rxArm ∧
    spelled Config.default [0x8A000000] = some .waitCancel ∧
    spelled Config.default [0x8B000000] = some .rxConsume ∧
    spelled Config.default [0x8C000000] = some .abort ∧
    spelled Config.default [0x90000000] = some .snifferPop := by decide

theorem test_decode_small_argument_commands :
    spelled Config.default [0x89000000] = some (.wait .rx) ∧
    spelled Config.default [0x89000001] = some (.wait .idle) ∧
    spelled Config.default [0x8D0000FF] = some (.setTn 255) ∧
    spelled Config.default [0x8E000009] = some (.readReg 0x09) ∧
    spelled Config.default [0x8F000000] = some (.snifferCtrl false) ∧
    spelled Config.default [0x8F000001] = some (.snifferCtrl true) := by decide

/-- 95_test_vectors.md E1, E2, E7, E8, E9, E10. -/
theorem test_decode_refuses_by_name :
    decode Config.default ⟨0x12000001, none, [], []⟩ = .error .reservedBits ∧
    decode Config.default ⟨0x10000000, none, [], []⟩ = .error .fieldRange ∧
    decode Config.default ⟨0x10000002, none, [0, 1], [1, 0]⟩ = .error .padding ∧
    decode Config.default ⟨0x13000080, none, List.replicate 128 0, []⟩ = .error .fieldRange ∧
    decode Config.default ⟨0x16000000, none, [], []⟩ = .error .fieldRange ∧
    decode Config.default ⟨0x16000081, none, [], []⟩ = .error .fieldRange ∧
    decode Config.default ⟨0x82000000, none, [], []⟩ = .error .missingExtension := by decide +kernel

/-- The bits of spec/opcode_table.json: the second word of a row stands in bits 63 to 32. -/
theorem test_decode_table_word :
    decodeTableWord 32 0x12000000 = some .rxBreak ∧
    decodeTableWord 64 0x0003D09084000000 = some (.setBaud 250000) ∧
    decodeTableWord 32 0x10000001 = some (.rxData [0]) ∧
    decodeTableWord 32 0x10000000 = none := by decide

/-- `withFetchWord` delivers the operation that the very next step runs. -/
theorem test_with_fetch_word_is_stepped :
    step (State.reset.withFetchWord 32 0x12000000) = exec .rxBreak (State.reset.take 0 []) := by
  rfl

/-! ### Single steps, with the results of 95_test_vectors.md -/

/-- RX1. -/
theorem test_rx_data_before_break_is_discarded :
    (after (.rxData [0x00, 0x01]) { State.reset with lastNow := 5 }).map
      (fun t => (t.head, t.lastSlotTs, t.buf)) = some (-1, 5, []) := by decide

/-- P1, line 5. -/
theorem test_rx_data_completes_dmx_frame :
    (after (.rxData [0x00, 0x11, 0x22, 0x33, 0x44])
        { receiving [] with rxSize := 5, taskWaiting := true }).map
      (fun t => (t.outputs.drop 8, t.flags.bits, t.head, t.buf)) =
      some ([.wake true 5 .dmx .ok], 0x43, 5, bufOf [0x00, 0x11, 0x22, 0x33, 0x44]) := by decide

/-- RX2. -/
theorem test_rx_timeout_drains :
    (after (.rxTimeout [0x00]) (receiving [])).map (fun t => (t.head, t.buf, t.rxState)) =
      some (1, [(0, 0x00)], .receiving) := by decide

/-- CL1. -/
theorem test_rx_timeout_finds_short_rdm_length :
    (after (.rxTimeout [0xCC, 0x01, 0x17]) (receiving [])).map
      (fun t => (t.pktSize, t.pktKind, t.pktErr)) = some (3, .rdm, .packetSize) := by decide

/-- RX12. -/
theorem test_rx_break_learns_the_size :
    (after .rxBreak frameReady).map
      (fun t => (t.flags.bits, t.rxState, t.head, t.rxSize, t.pktSize)) =
      some (0x13, .receiving, 0, 5, 0) := by decide

/-- RX13: after an error the estimate is kept. -/
theorem test_rx_break_keeps_the_size_after_an_error :
    (after .rxBreak { frameReady with pktErr := .improperSlot, rxSize := 513 }).map
      (fun t => (t.rxSize, t.pktErr)) = some (513, .ok) := by decide

/-- P4, line 4. -/
theorem test_rx_framing_err_reports_the_good_bytes :
    (after (.rxFramingErr [0x28, 0x29]) { receiving (ramp 40) with taskWaiting := true }).map
      (fun t => t.outputs.drop 8) =
      some [.rxFifoReset, .wake true 42 .dmx .improperSlot] := by decide

/-- RX9. -/
theorem test_rx_framing_err_after_the_packet :
    (after (.rxFramingErr [0x01]) frameReady).map
      (fun t => (t.outputs.drop 8, t.head, t.pktErr, t.flags.bits)) =
      some ([.rxFifoReset], 6, .ok, 0x43) := by decide

/-- RX3. -/
theorem test_rx_overflow_finishes :
    (after .rxOverflow { receiving (ramp 10) with taskWaiting := true }).map
      (fun t => (t.outputs.drop 8, t.pktSize, t.rxState)) =
      some ([.rxFifoReset, .wake true 10 .dmx .dataOverflow], 10, .postPacket) := by decide

/-- TX23. -/
theorem test_rx_clash_ends_the_transaction :
    (after .rxClash { awaitingReply dubPacket with
        head := 0, rxState := .receiving, taskWaiting := true }).map
      (fun t => (t.outputs.drop 8, t.flags.bits, t.timerMode)) =
      some ([.timerPause, .wake true 0 .none .dataCollision], 0x43, .off) := by decide

/-- TX9. -/
theorem test_tx_data_pushes_the_room_given :
    (after (.txData 5) (sendingSlots (ramp 200) 128)).map
      (fun t => (t.outputs.drop 8, t.head, t.irqEn)) =
      some ([.txFifoWrite [128, 129, 130, 131, 132]], 133, 0xC0) := by decide +kernel

/-- P2, line 5. -/
theorem test_tx_data_disables_itself :
    (after (.txData 128) (sendingSlots getPacket 26)).map (fun t => (t.outputs.drop 8, t.irqEn)) =
      some ([.irqMask 0x80], 0x80) := by decide

/-- P2, line 6. -/
theorem test_tx_done_turns_round :
    (after .txDone (sendingSlots getPacket 26)).map
      (fun t => (t.outputs.drop 8, t.flags.bits, t.head, t.rxState)) =
      some ([.irqMask 0, .setRts .receive, .rxFifoReset, .irqClear 0x3F, .irqMask 0x3F,
        .timerArm 2800], 0x0D, -1, .waitBreak) := by decide

/-- P3, line 6. -/
theorem test_tx_done_of_dub_starts_receiving :
    (after .txDone (sendingSlots dubPacket 38)).map
      (fun t => (t.flags.bits, t.head, t.rxState, t.timerMode)) =
      some (0x0D, 0, .receiving, .resp) := by decide

/-- P2, lines 3 and 4. -/
theorem test_timer_alarm_ends_break_and_mab :
    (after .timerAlarm (sendingBreak getPacket)).map (fun t => (t.outputs.drop 8, t.flags.bits)) =
      some ([.setTxInvert false, .timerArm 12], 0x2D) ∧
    (after .timerAlarm (sendingMab getPacket)).map
      (fun t => (t.outputs.drop 8, t.flags.bits, t.head)) =
      some ([.txFifoWrite getPacket, .timerPause, .irqClear 0xC0, .irqMask 0xC0], 0x0D, 26) := by
  decide

/-- TX24. -/
theorem test_timer_alarm_times_the_reply_out :
    (after .timerAlarm { awaitingReply getPacket with taskWaiting := true }).map
      (fun t => (t.outputs.drop 8, t.pktErr, t.flags.bits)) =
      some ([.timerPause, .wake false 0 .none .timeout], .timeout, 0x03) := by decide

/-- R93's example. -/
theorem test_gpio_negedge_queues_the_pair :
    (after .gpioNegedge sniffingMab).map (fun t => (t.snifQ, t.flags.inMab, t.snifNegTs)) =
      some ([⟨176, 12⟩], false, 1188) := by decide

/-- SN3: a full queue drops its oldest pair. -/
theorem test_gpio_negedge_overwrites_the_oldest :
    (after .gpioNegedge { sniffingMab with snifQ := [⟨1, 2⟩] }).map (·.snifQ) =
      some [⟨176, 12⟩] := by decide

/-- R92's example. -/
theorem test_gpio_posedge_measures_the_break :
    (after .gpioPosedge sniffingBreak).map (fun t => (t.snifBreakW, t.flags.inMab, t.snifPosTs)) =
      some (176, true, 1176) := by decide

/-- SN5. -/
theorem test_gpio_posedge_is_ignored_while_sending :
    after .gpioPosedge { sendingBreak [0] with snifCtrl := true } =
      some { sendingBreak [0] with snifCtrl := true } := by decide

/-- H4. -/
theorem test_enable_unmasks_reception :
    (after .enable disabled).map (fun t => (t.outputs.drop 8, t.flags.bits, t.head)) =
      some ([.irqClear 0x3F, .irqMask 0x3F], 0x03, -1) := by decide

/-- H1. -/
theorem test_enable_of_enabled_port_emits_nothing :
    (after .enable State.reset).map (fun t => (t.outputs.drop 8, t.flags.bits)) =
      some ([], 0x03) := by decide

/-- H3. -/
theorem test_disable_wakes_the_host :
    (after .disable { State.reset with taskWaiting := true }).map
      (fun t => (t.outputs.drop 8, t.flags.bits, t.taskWaiting)) =
      some ([.irqMask 0x00, .wake false 0 .none .ok], 0x02, false) := by decide

/-- L1.1. -/
theorem test_set_break_len_clamps :
    (after (.setBreakLen 50) State.reset).map (fun t => (t.breakLen, t.response)) =
      some (92, some ⟨.ok, 92⟩) ∧
    (after (.setBreakLen 2000000) State.reset).map (·.breakLen) = some 1000000 := by decide

/-- L1.3. -/
theorem test_set_mab_len_clamps :
    (after (.setMabLen 11) State.reset).map (·.mabLen) = some 12 ∧
    (after (.setMabLen 1000001) State.reset).map (·.mabLen) = some 1000000 := by decide

/-- L1.2. -/
theorem test_set_baud_clamps_and_emits :
    (after (.setBaud 244999) State.reset).map (fun t => (t.baud, t.outputs.drop 8)) =
      some (245000, [.setBaud 245000]) ∧
    (after (.setBaud 255001) State.reset).map (·.baud) = some 255000 := by decide

/-- H6 and R128's example. -/
theorem test_buf_write_at_the_end_of_the_buffer :
    (after (.bufWrite 512 0xFF) State.reset).map (fun t => (t.buf, t.response)) =
      some ([(512, 0xFF)], some ⟨.ok, 0⟩) ∧
    (after (.bufWrite 513 1) State.reset).map (fun t => (t.buf, t.response)) =
      some ([], some ⟨.invalidArg, 0⟩) := by decide

/-- TX7. -/
theorem test_buf_write_while_sending :
    (after (.bufWrite 0 1) (sendingBreak [0])).map (fun t => (t.buf, t.response)) =
      some ([(0, 0)], some ⟨.invalidState, 0⟩) := by decide

/-- H9. -/
theorem test_buf_read_of_a_received_frame :
    (after (.bufRead 4) frameReady).map (·.response) = some (some ⟨.ok, 0x44⟩) ∧
    faultOf (.bufRead 5) frameReady = some (.unwritten 5) := by decide

/-- TX1, TX4. -/
theorem test_tx_start_sends_or_faults :
    (after (.txStart 1) (loaded [0])).map (fun t => (t.outputs.drop 8, t.flags.bits, t.line.bits)) =
      some ([.irqClear 0xFF, .irqMask 0, .setRts .transmit, .txFifoReset, .setTxInvert true,
        .timerArm 176], 0x1D, 0x2) ∧
    faultOf (.txStart 2) (loaded [0]) = some (.unwritten 1) := by decide

/-- TX2, TX3, TX5. -/
theorem test_tx_start_checks :
    (after (.txStart 0) State.reset).map (·.response) = some (some ⟨.invalidArg, 0⟩) ∧
    (after (.txStart 514) State.reset).map (·.response) = some (some ⟨.invalidArg, 0⟩) ∧
    (after (.txStart 1) (sendingBreak [0])).map (·.response) = some (some ⟨.invalidState, 0⟩) := by
  decide

/-- H22. -/
theorem test_rx_arm_turns_the_bus :
    (after .rxArm transmitted).map (fun t => (t.outputs.drop 8, t.line.bits, t.irqEn)) =
      some ([.setRts .receive, .rxFifoReset, .irqClear 0x3F, .irqMask 0x3F], 1, 0x3F) := by decide

/-- H20. -/
theorem test_rx_arm_of_disabled_port :
    (after .rxArm disabled).map (·.response) = some (some ⟨.invalidState, 0⟩) := by decide

/-- H11, H12. -/
theorem test_wait_wakes_at_once :
    (after (.wait .rx) frameReady).map (fun t => (t.outputs.drop 8, t.taskWaiting)) =
      some ([.wake true 5 .dmx .ok], false) ∧
    (after (.wait .idle) State.reset).map (fun t => (t.outputs.drop 8, t.taskWaiting)) =
      some ([.wake false 0 .none .ok], false) := by decide

/-- R131's example. -/
theorem test_wait_sets_the_token :
    (after (.wait .rx) State.reset).map (fun t => (t.outputs.drop 8, t.taskWaiting)) =
      some ([], true) := by decide

/-- H14. -/
theorem test_wait_cancel_clears_the_token :
    (after .waitCancel { State.reset with taskWaiting := true }).map
      (fun t => (t.taskWaiting, t.outputs.drop 8)) = some (false, []) := by decide

/-- H10. -/
theorem test_rx_consume_returns_the_record :
    (after .rxConsume frameReady).map (fun t => (t.response, t.flags.bits)) =
      some (some ⟨.ok, 0x100010005⟩, 0x03) := by decide

/-- TX17, TX19. -/
theorem test_abort_ends_an_awaited_reply :
    (after .abort (awaitingReply getPacket)).map
      (fun t => (t.outputs.drop 8, t.flags.bits, t.timerMode)) =
      some ([.timerPause], 0x03, .off) ∧
    (after .abort State.reset).map (·.response) = some (some ⟨.invalidState, 0⟩) := by decide

/-- H15. -/
theorem test_set_tn_stores_any_value :
    (after (.setTn 3) { State.reset with tn := 7 }).map (·.tn) = some 3 := by decide

/-- H17. -/
theorem test_read_reg_at_reset :
    (after (.readReg 0x02) State.reset).map (·.response) = some (some ⟨.ok, 0xFFFF⟩) ∧
    (after (.readReg 0x0E) State.reset).map (·.response) = some (some ⟨.ok, 0x3F⟩) ∧
    (after (.readReg 0x16) State.reset).map (·.response) = some (some ⟨.invalidArg, 0⟩) := by decide

/-- SN6, SN7. -/
theorem test_sniffer_ctrl_switches :
    (after (.snifferCtrl true) State.reset).map (·.snifCtrl) = some true ∧
    (after (.snifferCtrl true) noSniffer).map (·.response) =
      some (some ⟨.invalidState, 0⟩) := by decide

/-- R96's example. -/
theorem test_sniffer_pop_returns_the_pair :
    (after .snifferPop { State.reset with snifQ := [⟨176, 12⟩] }).map
      (fun t => (t.response, t.snifQ)) = some (some ⟨.ok, 0x000000B00000000C⟩, []) ∧
    (after .snifferPop State.reset).map (·.response) = some (some ⟨.timeout, 0⟩) := by decide

/-! ### States that meet the invariant -/

theorem inv_reset : Inv State.reset := by
  constructor <;> (try constructor) <;> decide

theorem inv_receiving_nothing : Inv (receiving []) := by
  constructor <;> (try constructor) <;> decide

theorem inv_receiving_zero : Inv (receiving [0x00]) := by
  constructor <;> (try constructor) <;> decide

theorem inv_receiving_rdm_start : Inv (receiving [0xCC]) := by
  constructor <;> (try constructor) <;> decide

theorem inv_receiving_not_rdm : Inv (receiving [0xCC, 0x02]) := by
  constructor <;> (try constructor) <;> decide

theorem inv_frameReady : Inv frameReady := by
  constructor <;> (try constructor) <;> decide

theorem inv_loaded : Inv (loaded [0x00]) := by
  constructor <;> (try constructor) <;> decide

theorem inv_sendingBreak : Inv (sendingBreak [0x00]) := by
  constructor <;> (try constructor) <;> decide

theorem inv_sendingMab : Inv (sendingMab [0x00, 0x01]) := by
  constructor <;> (try constructor) <;> decide

theorem inv_sendingSlots_none : Inv (sendingSlots [0x00, 0x01] 0) := by
  constructor <;> (try constructor) <;> decide

theorem inv_sendingSlots_all : Inv (sendingSlots [0x00, 0x01] 2) := by
  constructor <;> (try constructor) <;> decide

theorem inv_sendingSlots_get : Inv (sendingSlots getPacket 26) := by
  constructor <;> (try constructor) <;> decide

theorem inv_awaitingReply : Inv (awaitingReply getPacket) := by
  constructor <;> (try constructor) <;> decide

/-- The reply to DUB is awaited in RECEIVING. -/
def awaitingDub : State := { awaitingReply dubPacket with head := 0, rxState := .receiving }

theorem inv_awaitingDub : Inv awaitingDub := by
  constructor <;> (try constructor) <;> decide

/-- A frame one byte short of RX_SIZE, while a reply is awaited and a host waits. -/
def awaitingLastByte : State :=
  { awaitingDub with rxSize := 1, taskWaiting := true }

theorem inv_awaitingLastByte : Inv awaitingLastByte := by
  constructor <;> (try constructor) <;> decide

/-! ### Witnesses: states and operands that meet every hypothesis of a statement

Each is named after its statement; where the statement has several clauses, each clause has its
witness, at a value where the clauses meet. -/

theorem witness_DecodeInvertsEncode :
    Config.default.Valid ∧ WellFormed Config.default (.rxFramingErr []) = true ∧
      WellFormed Config.default (.txData 128) = true ∧
      WellFormed Config.default (.rxData (List.replicate 128 0xFF)) = true := by
  refine ⟨by decide, by decide, by decide, by simp [WellFormed, Config.default]⟩

theorem witness_SerialStreamGivesOperationsBack :
    Config.default.Valid ∧ WellFormed Config.default (.rxData [1, 2, 3, 4, 5]) = true ∧
      WellFormed Config.default (.setBaud 1) = true := by decide

theorem witness_AcceptedOperationHasOneSpelling :
    Config.default.Valid ∧
      decode Config.default ⟨0x89000001, none, [], []⟩ = .ok (.wait .idle) ∧
      decode Config.default ⟨0x10000001, none, [7], [0, 0, 0]⟩ = .ok (.rxData [7]) := by decide

theorem witness_AcceptedExactlyByTheOpcodeTable :
    decode Config.default ⟨0x8F000001, none, [], []⟩ = .ok (.snifferCtrl true) ∧
      (0x8F000001 &&& 0xFFFFFFFE : Word) = 0x8F000000 := by decide

theorem witness_ReservedOpcodesAreRefused :
    (opcOf 0x0F123456).toNat ≤ 0x0F ∧
    (∀ w ∈ ([0x18000000, 0x1FFFFFFF] : List Word),
      0x18 ≤ (opcOf w).toNat ∧ (opcOf w).toNat ≤ 0x1F) ∧
    (∀ w ∈ ([0x21000000, 0x2FFFFFFF] : List Word),
      0x21 ≤ (opcOf w).toNat ∧ (opcOf w).toNat ≤ 0x2F) ∧
    (∀ w ∈ ([0x32000000, 0x7FFFFFFF] : List Word),
      0x32 ≤ (opcOf w).toNat ∧ (opcOf w).toNat ≤ 0x7F) ∧
    (∀ w ∈ ([0x91000000, 0xFFFFFFFF] : List Word), 0x91 ≤ (opcOf w).toNat) := by
  simp [opcOf]

/-- The reset state with one operation delivered at time 5. -/
def delivered (w : Word) : State := { State.reset with input := [⟨5, ⟨w, none, [], []⟩⟩] }

theorem witness_StepRunsDecodedOperation :
    (delivered 0x12000000).input = ⟨5, ⟨0x12000000, none, [], []⟩⟩ :: [] ∧
      (delivered 0x12000000).lastNow ≤ 5 ∧
      decode (delivered 0x12000000).cfg ⟨0x12000000, none, [], []⟩ = .ok .rxBreak := by decide

theorem witness_StepRefusesWhatSpellsNothing :
    (5 : Stamp) < ({ delivered 0x12000000 with lastNow := 6 } : State).lastNow ∧
      (delivered 0x12000001).lastNow ≤ 5 ∧
      decode (delivered 0x12000001).cfg ⟨0x12000001, none, [], []⟩ = .error .reservedBits := by decide

theorem witness_StepRecordsNowAndKeepsParameters :
    (5 : Stamp) < ({ delivered 0x12000000 with lastNow := 6 } : State).lastNow ∧
      ∃ t, step (delivered 0x12000000) = .next t :=
  ⟨by decide, _, rfl⟩

theorem witness_WaitingStepChangesNoRegister : State.reset.input = [] := rfl

theorem witness_StepKeepsInvariant :
    Inv State.reset ∧ ∃ t, step State.reset = .next t := ⟨inv_reset, _, rfl⟩

theorem witness_ResetMeetsInvariant : Config.default.Valid := by decide

theorem witness_ReachableStatesMeetSpecInvariants :
    Config.default.Valid ∧
      ∃ t, Host.Core.run core 1
        { State.resetWith Config.default with input := [⟨5, encode .rxBreak⟩] } = .next t :=
  ⟨by decide, _, rfl⟩

theorem witness_OnlyReadsOfUnwrittenCellsFault :
    Inv (loaded [0x00]) ∧ exec (.bufRead 1) (loaded [0x00]) = .fault (.unwritten 1) ∧
      exec (.txStart 2) (loaded [0x00]) = .fault (.unwritten 1) ∧
      Instr.isCommand (.rxData [0x00]) = false :=
  ⟨inv_loaded, exec_of_faultOf (by decide), exec_of_faultOf (by decide), rfl⟩

theorem witness_CommandsRespondAndFailuresChangeNothing :
    (∃ t, exec .abort State.reset = .next t) ∧ (∃ t, exec (.readReg 0x04) State.reset = .next t) ∧
      Instr.isCommand .abort = true ∧ Instr.isCommand (.readReg 0x04) = true ∧
      (∃ t, exec .rxBreak State.reset = .next t) ∧ Instr.isCommand .rxBreak = false :=
  ⟨⟨_, rfl⟩, ⟨_, rfl⟩, rfl, rfl, ⟨_, rfl⟩, rfl⟩

theorem witness_AtMostOneWakeAndItClearsTheToken :
    (after (.wait .idle) { State.reset with outputs := [] }).map (fun t => wakeCount t.outputs) =
      some 1 ∧
    (after .disable { State.reset with outputs := [], taskWaiting := true }).map
      (fun t => wakeCount t.outputs) = some 1 := by decide

theorem witness_WakeCarriesTheRecordedPacket :
    (after (.wait .rx) { frameReady with outputs := [] }).map (·.outputs) =
      some ([] ++ [.wake true 5 .dmx .ok]) ∧
    (∀ y ∈ errCodeNumbers, ({ frameReady with pktErr := y.1 } : State).pktErr = y.1) := by decide

/-- Every register changes under some operation the table of R16 names for it. -/
theorem witness_RegistersChangeOnlyByTheirWriters :
    (after (.txStart 1) { loaded [0x00] with rxState := .receiving, head := 5 }).map (fun t =>
      decide (t.flags = State.reset.flags) || decide (t.rxState = .receiving) ||
        decide (t.head = 5) || decide (t.timerMode = .off) || decide (t.txSize = 0) ||
        decide (t.line = State.reset.line) || decide (t.irqEn = 0x3F)) = some false ∧
    (after .rxBreak frameReady).map (fun t => decide (t.rxSize = 513)) = some false ∧
    (after (.wait .rx) State.reset).map (·.taskWaiting) = some true ∧
    (after .disable { State.reset with taskWaiting := true }).map (·.taskWaiting) = some false ∧
    (after (.setBreakLen 50) State.reset).map (·.breakLen) = some 92 ∧
    (after (.setMabLen 13) State.reset).map (·.mabLen) = some 13 ∧
    (after (.setBaud 0) State.reset).map (·.baud) = some 245000 ∧
    (after (.rxData [0]) { State.reset with lastNow := 5 }).map (·.lastSlotTs) = some 5 ∧
    (after (.setTn 1) State.reset).map (·.tn) = some 1 ∧
    (after .rxOverflow (receiving [0])).map (fun t => (t.pktSize, t.pktKind, t.pktErr)) =
      some (1, .dmx, .dataOverflow) ∧
    (after (.snifferCtrl true) State.reset).map (·.snifCtrl) = some true ∧
    (after .gpioNegedge sniffingMab).map (fun t => (t.snifNegTs, t.snifQ.length)) =
      some (1188, 1) ∧
    (after .gpioPosedge sniffingBreak).map (fun t => (t.snifPosTs, t.snifBreakW)) =
      some (1176, 176) := by decide

theorem witness_RollingEstimateIsLearntOnlyAtBreak :
    (after .rxBreak { frameReady with rxSize := 513 }).map (·.rxSize) = some 5 ∧
      ({ frameReady with rxSize := 513 } : State).rxSize = 513 := by decide

theorem witness_CellsStayWrittenAndFewOperationsWrite :
    (after (.bufWrite 0 1) (loaded [0x00])).map (·.buf) = some [(0, 1)] ∧
      (cellAt (loaded [0x00]).buf 0).isSome = true ∧
      (after (.rxData [7]) (receiving [0x00])).map (·.buf) = some [(0, 0), (1, 7)] := by decide

theorem witness_PacketIsFrozenWhileItIsSent :
    Inv (sendingBreak [0x00]) ∧ (sendingBreak [0x00]).flags.sending = true ∧
      (sendingBreak [0x00]).line.rtsRx = false ∧
      ∃ t, exec (.bufWrite 0 1) (sendingBreak [0x00]) = .next t :=
  ⟨inv_sendingBreak, rfl, rfl, next_of_isSome (by decide)⟩

theorem witness_SnifferNeverAffectsTheEngine :
    Instr.isEngine (.rxData [7]) = true ∧ (∃ t, exec (.rxData [7]) (receiving []) = .next t) ∧
      Instr.isEngine (.bufRead 0) = true ∧
      exec (.bufRead 0) State.reset = .fault (.unwritten 0) :=
  ⟨rfl, next_of_isSome (by decide), rfl, exec_of_faultOf (by decide)⟩

theorem witness_TimerUsesNeverOverlap :
    Inv (loaded [0x00]) ∧
      (after (.txStart 1) (loaded [0x00])).map (fun t => t.outputs) =
        some ((loaded [0x00]).outputs ++ [.irqClear 0xFF, .irqMask 0, .setRts .transmit,
          .txFifoReset, .setTxInvert true, .timerArm 176]) ∧
      Inv (sendingBreak [0x00]) ∧
      (after .timerAlarm (sendingBreak [0x00])).map (fun t => t.outputs) =
        some ((sendingBreak [0x00]).outputs ++ [.setTxInvert false, .timerArm 12]) :=
  ⟨inv_loaded, by decide, inv_sendingBreak, by decide⟩

theorem witness_ClassifierReadsOnlyBelowHead :
    (1 : Int) ≤ (receiving [0x00]).head ∧
      (receiving [0x00]).head = ({ receiving [0x00] with buf := bufOf [0x00, 0x01] } : State).head ∧
      ∀ a, a < min (receiving [0x00]).headNat (receiving [0x00]).cfg.bufCap →
        cellAt (receiving [0x00]).buf a = cellAt (bufOf [0x00, 0x01]) a := by decide

/-- At 1, 2, 3, 25 and 26 bytes, and with the message length 23. -/
theorem witness_RdmPacketCompletesAtItsLength :
    ∀ bs ∈ [[0xCC], getPacket.take 2, getPacket.take 3, getPacket.take 25, getPacket,
        [0xCC, 0x01, 0x17]],
      513 ≤ (receiving bs).cfg.bufCap ∧ (receiving bs).head = bs.length ∧
        bs.length = min bs.length (receiving bs).cfg.bufCap ∧ BytesAt (receiving bs) 0 bs ∧
        1 ≤ bs.length ∧ bs.getD 0 0 = 0xCC ∧
        (bs.length = 1 ∨ 2 ≤ bs.length ∧ bs.getD 1 0 = 0x01) := by decide

/-- Seven and eight preamble bytes, a preamble of 0 and of 7 with 16 and 15 encoded bytes after the
delimiter, and a byte that is no delimiter. -/
theorem witness_DiscoveryResponseCompletesAtItsLength :
    ∀ bs ∈ [List.replicate 7 0xFE, List.replicate 8 0xFE ++ [], discResponse 0,
        (discResponse 7).take 23, discResponse 7, List.replicate 7 0xFE ++ 0x00 :: []],
      513 ≤ (receiving bs).cfg.bufCap ∧ (receiving bs).head = bs.length ∧
        bs.length = min bs.length (receiving bs).cfg.bufCap ∧ BytesAt (receiving bs) 0 bs := by decide

theorem witness_EveryEncodedDiscoveryResponseIsAccepted :
    ([0x05, 0xE0, 0x00, 0x00, 0x00, 0x01] : List Byte).length = 6 ∧
      513 ≤ (receiving (discResponse 7)).cfg.bufCap ∧
      discResponse 7 = List.replicate 7 0xFE ++ 0xAA ::
        (laneEncodeAll [0x05, 0xE0, 0x00, 0x00, 0x00, 0x01] ++
          laneEncodeAll
            [(sum16 (laneEncodeAll [0x05, 0xE0, 0x00, 0x00, 0x00, 0x01])).extractLsb' 8 8,
              (sum16 (laneEncodeAll [0x05, 0xE0, 0x00, 0x00, 0x00, 0x01])).extractLsb' 0 8]) ∧
      (receiving (discResponse 7)).head = 24 ∧
      BytesAt (receiving (discResponse 7)) 0 ((discResponse 7).take 24) := by decide

theorem witness_PlainFrameCompletesAtRxSize :
    ∀ bs ∈ ([[0x00], [0xCC, 0x02], [0xFF, 0xCC, 0x01]] : List (List Byte)),
      (receiving bs).head = bs.length ∧
        bs.length = min bs.length (receiving bs).cfg.bufCap ∧ BytesAt (receiving bs) 0 bs := by decide

theorem witness_ErrorFinishKindFollowsTheFirstBytes :
    (receiving []).head < 1 ∧
    ∀ bs ∈ ([[0xCC], [0xCC, 0x01], [0xCC, 0x02], [0xFE], [0xAA], [0x00]] : List (List Byte)),
      513 ≤ (receiving bs).cfg.bufCap ∧ (receiving bs).head = bs.length ∧ 1 ≤ bs.length ∧
        bs.length = min bs.length (receiving bs).cfg.bufCap ∧ BytesAt (receiving bs) 0 bs := by decide

theorem witness_DrainStoresAndCountsEveryByte :
    Inv (receiving []) ∧ (receiving []).rxState ≠ .waitBreak ∧
      (receiving []).lineOn .rxData = true ∧ (receiving []).lineOn .rxTimeout = true ∧
      (receiving []).lineOn .rxFramingErr = true ∧ ([0x00] : List Byte) ≠ [] :=
  ⟨inv_receiving_nothing, by decide, by decide, by decide, by decide, by decide⟩

theorem witness_BytesBeforeBreakAreDiscarded :
    State.reset.rxState = .waitBreak ∧ State.reset.lineOn .rxData = true ∧
      State.reset.lineOn .rxTimeout = true ∧ State.reset.lineOn .rxFramingErr = true ∧
      ([0x00] : List Byte) ≠ [] := by decide

theorem witness_BytesAfterThePacketFinishNothing :
    Inv frameReady ∧ frameReady.rxState = .postPacket ∧ frameReady.lineOn .rxData = true ∧
      frameReady.lineOn .rxTimeout = true :=
  ⟨inv_frameReady, by decide, by decide, by decide⟩

/-- The state that receiving one byte leaves before it is classified, where no timer runs. -/
def stored (s : State) (b : Byte) : State :=
  { s with
    lastSlotTs := s.lastNow, flags := { s.flags with inBreak := false, inMab := false }
    buf := if s.headNat < s.cfg.bufCap then putCell s.buf s.headNat b else s.buf
    head := s.toHead (min (s.headNat + 1) s.cfg.headMax) }

/-- One byte that leaves the packet pending, one that completes it, and one that faults (in a state no run
reaches, whose buffer is UNWRITTEN below HEAD); and a state where a payload's first byte is taken. -/
theorem witness_ReceivedByteIsStoredThenClassified :
    (∀ s ∈ [receiving [], receiving [0xCC, 0x01], { receiving [0xCC] with buf := [] }],
      s.rxState = .receiving ∧ s.lineOn .rxData = true ∧ s.lineOn .rxTimeout = true ∧
        (0 : Int) ≤ s.head) ∧
      classify (stored (receiving []) 0xCC) = .ok .pending ∧
      classify (stored (receiving [0xCC, 0x01]) 0x17) = .ok (.complete .rdm .packetSize) ∧
      classify (stored { receiving [0xCC] with buf := [] } 0x01) = .error (.unwritten 0) ∧
      Inv (receiving []) ∧ (∃ u, exec (.rxData [0xCC]) (receiving []) = .next u) ∧
      (∃ u, exec (.rxTimeout [0xCC]) (receiving []) = .next u) ∧
      exec (.rxData [0x01]) { receiving [0xCC] with buf := [] } = .fault (.unwritten 0) ∧
      exec (.rxTimeout [0x01]) { receiving [0xCC] with buf := [] } = .fault (.unwritten 0) :=
  ⟨by decide, by decide, by decide, by decide, inv_receiving_nothing, next_of_isSome (by decide),
    next_of_isSome (by decide), exec_of_faultOf (by decide), exec_of_faultOf (by decide)⟩

/-- One witness for each of the four ways a frame is plain, and one while a reply is awaited. -/
theorem witness_DmxFrameIsReportedAtRxSize :
    (Inv awaitingLastByte ∧ awaitingLastByte.rxState = .receiving ∧
      awaitingLastByte.lineOn .rxData = true ∧ awaitingLastByte.lineOn .rxTimeout = true ∧
      awaitingLastByte.head + 1 = awaitingLastByte.rxSize.toNat ∧ awaitingLastByte.head = 0) ∧
    (Inv (receiving [0x00]) ∧ cellAt (receiving [0x00]).buf 0 = some 0x00) ∧
    (Inv (receiving [0xCC]) ∧ (receiving [0xCC]).head = 1 ∧
      cellAt (receiving [0xCC]).buf 0 = some 0xCC) ∧
    (Inv (receiving [0xCC, 0x02]) ∧ (2 : Int) ≤ (receiving [0xCC, 0x02]).head ∧
      cellAt (receiving [0xCC, 0x02]).buf 1 = some 0x02) :=
  ⟨⟨inv_awaitingLastByte, by decide, by decide, by decide, by decide, by decide⟩,
    ⟨inv_receiving_zero, by decide⟩, ⟨inv_receiving_rdm_start, by decide, by decide⟩,
    ⟨inv_receiving_not_rdm, by decide, by decide⟩⟩

theorem witness_RxBreakOpensAPacket :
    State.reset.lineOn .rxBreak = true ∧ disabled.lineOn .rxBreak = false := by decide

theorem witness_FramingErrorFinishesThePacket :
    disabled.lineOn .rxFramingErr = false ∧ Inv (receiving [0x00]) ∧
      (receiving [0x00]).lineOn .rxFramingErr = true ∧ (receiving [0x00]).rxState = .receiving ∧
      Inv frameReady ∧ frameReady.rxState ≠ .receiving ∧ frameReady.lineOn .rxFramingErr = true ∧
      ([0x01] : List Byte) ≠ [] :=
  ⟨by decide, inv_receiving_zero, by decide, by decide, inv_frameReady, by decide, by decide,
    by decide⟩

theorem witness_OverflowAndClashFinishThePacket :
    disabled.lineOn .rxOverflow = false ∧ disabled.lineOn .rxClash = false ∧
      Inv (receiving []) ∧ (receiving []).rxState = .receiving ∧
      (receiving []).lineOn .rxOverflow = true ∧ (receiving []).lineOn .rxClash = true ∧
      State.reset.rxState ≠ .receiving :=
  ⟨by decide, by decide, inv_receiving_nothing, by decide, by decide, by decide, by decide⟩

theorem witness_MaskedEventsChangeNothing :
    (∀ l ∈ [UartLine.rxData, .rxTimeout, .rxBreak, .rxFramingErr, .rxOverflow, .rxClash, .txData,
        .txDone], ({ disabled with irqEn := 0 } : State).lineOn l = false) ∧
      State.reset.timerMode = .off ∧ (sendingBreak [0x00]).timerMode = .brk ∧
      noSniffer.cfg.snifferPresent = false ∧ State.reset.snifCtrl = false ∧
      transmitted.line.rtsRx = false := by decide

theorem witness_TxStartChecksThenStartsTheBreak :
    disabled.flags.enabled = false ∧ (sendingBreak [0x00]).flags.sending = true ∧
      (loaded [0x00]).flags.enabled = true ∧ (loaded [0x00]).flags.sending = false ∧
      (0 : BitVec 16).toNat < 1 ∧ (loaded [0x00]).cfg.bufCap < (514 : BitVec 16).toNat ∧
      (513 : BitVec 16).toNat ≤ (loaded [0x00]).cfg.bufCap ∧
      AllWritten (loaded [0x00]) (1 : BitVec 16).toNat ∧
      cellAt (loaded [0x00]).buf 1 = none := by decide

theorem witness_TimerAlarmEndsWhatItTimed :
    State.reset.timerMode = .off ∧ (sendingBreak [0x00]).timerMode = .brk ∧
      Inv (sendingMab [0x00, 0x01]) ∧ (sendingMab [0x00, 0x01]).timerMode = .mab ∧
      (awaitingReply getPacket).timerMode = .resp ∧ (awaitingReply getPacket).awaiting = true ∧
      ({ State.reset with timerMode := .resp } : State).awaiting = false :=
  ⟨by decide, by decide, inv_sendingMab, by decide, by decide, by decide, by decide⟩

theorem witness_TxDataPushesUntilNoneAreLeft :
    State.reset.lineOn .txData = false ∧ Inv (sendingSlots [0x00, 0x01] 0) ∧
      (sendingSlots [0x00, 0x01] 0).lineOn .txData = true ∧ Inv (sendingSlots [0x00, 0x01] 2) ∧
      (sendingSlots [0x00, 0x01] 2).lineOn .txData = true :=
  ⟨by decide, inv_sendingSlots_none, by decide, inv_sendingSlots_all, by decide⟩

theorem witness_TxDoneTurnsRoundOrEnds :
    State.reset.lineOn .txDone = false ∧ (sendingSlots [0x00, 0x01] 0).lineOn .txDone = true ∧
      (sendingSlots [0x00, 0x01] 0).head < (sendingSlots [0x00, 0x01] 0).txSize.toNat ∧
      Inv (sendingSlots [0x00, 0x01] 2) ∧ (sendingSlots [0x00, 0x01] 2).lineOn .txDone = true ∧
      ((sendingSlots [0x00, 0x01] 2).txSize.toNat : Int) ≤ (sendingSlots [0x00, 0x01] 2).head ∧
      expectsResponse (sendingSlots [0x00, 0x01] 2) = .ok (false, false) ∧
      Inv (sendingSlots getPacket 26) ∧ (sendingSlots getPacket 26).lineOn .txDone = true ∧
      expectsResponse (sendingSlots getPacket 26) = .ok (true, false) ∧
      (sendingSlots getPacket 26).flags.enabled = true :=
  ⟨by decide, by decide, by decide, inv_sendingSlots_all, by decide, by decide, by decide,
    inv_sendingSlots_get, by decide, by decide, by decide⟩

theorem witness_RepliesAreExpectedByCommandAndDestination :
    ∀ bs ∈ [[0x00], getPacket.take 23, getPacket.take 24, getPacket, dubPacket],
      BytesAt (sendingSlots bs 0) 0 bs ∧ bs.length = (sendingSlots bs 0).txSize.toNat ∧
        bs.length ≤ (sendingSlots bs 0).cfg.bufCap := by decide

theorem witness_AbortEndsAnAwaitedTransaction :
    ((awaitingReply getPacket).flags.sending = true ∧
      (awaitingReply getPacket).flags.sentLast = true ∧
      (awaitingReply getPacket).line.rtsRx = true) ∧
    ¬ ((sendingBreak [0x00]).flags.sending = true ∧ (sendingBreak [0x00]).flags.sentLast = true ∧
      (sendingBreak [0x00]).line.rtsRx = true) := by decide

theorem witness_PacketGoesOutWholeAndInOrder :
    Inv (sendingMab [0x00, 0x01]) ∧ (sendingMab [0x00, 0x01]).timerMode = .mab ∧
      (sendingMab [0x00, 0x01]).head = 0 :=
  ⟨inv_sendingMab, by decide, by decide⟩

theorem witness_RisingEdgeMeasuresTheBreak :
    noSniffer.cfg.snifferPresent = false ∧ State.reset.snifCtrl = false ∧
      transmitted.line.rtsRx = false ∧ sniffingBreak.cfg.snifferPresent = true ∧
      sniffingBreak.snifCtrl = true ∧ sniffingBreak.line.rtsRx = true ∧
      sniffingBreak.flags.inBreak = true ∧ sniffingBreak.snifNegTs ≤ sniffingBreak.lastNow ∧
      sniffingMab.flags.inBreak = false := by decide

theorem witness_FallingEdgeQueuesThePair :
    sniffingMab.cfg.snifferPresent = true ∧ sniffingMab.snifCtrl = true ∧
      sniffingMab.line.rtsRx = true ∧ sniffingMab.flags.inMab = true ∧
      sniffingMab.snifPosTs ≤ sniffingMab.lastNow ∧ sniffingBreak.flags.inMab = false := by decide

theorem witness_SnifferCommandsSwitchAndPop :
    noSniffer.cfg.snifferPresent = false ∧ State.reset.cfg.snifferPresent = true ∧
      State.reset.snifQ = [] ∧
      ({ State.reset with snifQ := [⟨176, 12⟩] } : State).snifQ = ⟨176, 12⟩ :: [] := by decide

theorem witness_SettersClampAndReturnTheAppliedValue :
    State.reset.cfg.breakMin ≤ State.reset.cfg.breakMax ∧
      State.reset.cfg.mabMin ≤ State.reset.cfg.mabMax ∧
      State.reset.cfg.baudMin ≤ State.reset.cfg.baudMax := by decide

theorem witness_EnableRestoresReception :
    State.reset.flags.enabled = true ∧ disabled.flags.enabled = false := by decide

theorem witness_DisableMasksReceptionOnly :
    disabled.flags.enabled = false ∧ State.reset.flags.enabled = true := by decide

theorem witness_BufWriteStoresOneByte :
    State.reset.cfg.bufCap ≤ (513 : BitVec 16).toNat ∧
      (512 : BitVec 16).toNat < State.reset.cfg.bufCap ∧ State.reset.flags.sending = false ∧
      (sendingBreak [0x00]).flags.sending = true ∧
      Memory.wf State.reset.cfg.bufCap State.reset.buf = true := by decide

theorem witness_BufReadReturnsTheByteOrFaults :
    State.reset.cfg.bufCap ≤ (513 : BitVec 16).toNat ∧
      (512 : BitVec 16).toNat < State.reset.cfg.bufCap ∧
      cellAt State.reset.buf (512 : BitVec 16).toNat = none ∧
      cellAt (loaded [0x07]).buf (0 : BitVec 16).toNat = some 0x07 := by decide

theorem witness_RxArmTurnsTheTransceiver :
    disabled.flags.enabled = false ∧ (sendingBreak [0x00]).flags.sending = true ∧
      State.reset.flags.enabled = true ∧ State.reset.flags.sending = false ∧
      State.reset.line.rtsRx = true ∧ transmitted.flags.enabled = true ∧
      transmitted.flags.sending = false ∧ transmitted.line.rtsRx = false := by decide

theorem witness_WaitSetsTheTokenOrWakesAtOnce :
    frameReady.flags.hasData = true ∧ State.reset.flags.hasData = false ∧
      State.reset.flags.idle = true ∧ (sendingBreak [0x00]).flags.idle = false := by decide

/-- Every packet kind and error has a number in the tables. -/
theorem witness_ConsumeReturnsTheRecordAndSetTnStores :
    (.dmx, 1) ∈ pktKindNumbers ∧ (.ok, 0) ∈ errCodeNumbers ∧ frameReady.pktKind = .dmx ∧
      frameReady.pktErr = .ok := by decide

/-- Each enumerated register holds a value its table numbers. -/
theorem witness_ReadRegReturnsEachRegister :
    (frameReady.rxState, 2) ∈ rxStateNumbers ∧ (frameReady.pktKind, 1) ∈ pktKindNumbers ∧
      ((awaitingReply getPacket).timerMode, 3) ∈ timerModeNumbers ∧
      (({ frameReady with pktErr := .timeout } : State).pktErr, 4) ∈ errCodeNumbers ∧
      State.reset.snifQ.length < 256 ∧ (0x16 : Nat) ≤ (0x16 : Byte).toNat := by decide

end Sys2Proof.Tests
end

section
/-! PROOFS. The encoding family: the reserved operation codes (30_encoding.md R66), and what every
command answers and no event does (R68, R59). -/

namespace Sys2Proof.Machine

/-- Settles O6: none of the decoder's 28 codes lies in a reserved range, so its last arm answers. -/
theorem reservedOpcodesAreRefused : Obligations.ReservedOpcodesAreRefused := by
  intro c op hres
  unfold decode
  split
  case h_29 => rfl
  all_goals omega

/-! ### What a command answers (30_encoding.md R68) -/

/-- The ways a command can end: it raises a status, it returns OK with value 0, it returns OK with a
value where its rule gives one (`gives`), or it faults. -/
inductive CommandEnds (gives : Prop) (s : State) : Host.Outcome State Fault Refusal → Prop where
  | raised (e : ErrCode) : CommandEnds gives s (raise s e)
  | returned (u : State) : CommandEnds gives s (returnOk u 0)
  | gave (u : State) (v : BitVec 64) (hg : gives) : CommandEnds gives s (returnOk u v)
  | faulted (f : Fault) : CommandEnds gives s (.fault f)

/-- Whether the operation's rule gives a value: the timing setters, BUF_READ, READ_REG, RX_CONSUME
and SNIFFER_POP. -/
abbrev GivesValue (i : Instr) : Prop :=
  (∃ v, i = .setBreakLen v ∨ i = .setMabLen v ∨ i = .setBaud v) ∨
    (∃ a, i = .bufRead a) ∨ (∃ n, i = .readReg n) ∨ i = .rxConsume ∨ i = .snifferPop

/-- A command that ends in a next state has responded; a status other than OK came with value 0 and
no other change; and a value that is not 0 is one its rule gives. -/
theorem CommandEnds.response {gives : Prop} {s t : State} {o : Host.Outcome State Fault Refusal}
    (ends : CommandEnds gives s o) (ht : o = .next t) :
    ∃ r, t.response = some r ∧
      (r.status ≠ .ok → r.value = 0 ∧ t = { s with response := some r }) ∧
      (r.value ≠ 0 → gives) := by
  cases ends with
  | raised e =>
    obtain rfl := (raise_next s t e).mp ht
    exact ⟨⟨e, 0⟩, rfl, fun _ => ⟨rfl, rfl⟩, fun hv => absurd rfl hv⟩
  | returned u =>
    obtain rfl := (returnOk_next u t 0).mp ht
    exact ⟨⟨.ok, 0⟩, rfl, fun hs => absurd rfl hs, fun hv => absurd rfl hv⟩
  | gave u v hg =>
    obtain rfl := (returnOk_next u t v).mp ht
    exact ⟨⟨.ok, v⟩, rfl, fun hs => absurd rfl hs, fun _ => hg⟩
  | faulted f => cases ht

section
variable {gives : Prop} (s : State)

theorem execEnable_ends : CommandEnds gives s (execEnable s) := by
  unfold execEnable
  split <;> exact .returned _

theorem execDisable_ends : CommandEnds gives s (execDisable s) := by
  unfold execDisable
  split <;> exact .returned _

theorem execBufWrite_ends (addr : BitVec 16) (data : Byte) :
    CommandEnds gives s (execBufWrite addr data s) := by
  unfold execBufWrite
  split
  · exact .raised _
  · split
    · exact .raised _
    · exact .returned _

theorem execBufRead_ends (hg : gives) (addr : BitVec 16) :
    CommandEnds gives s (execBufRead addr s) := by
  unfold execBufRead
  split
  · exact .raised _
  · split
    · exact .faulted _
    · exact .gave _ _ hg

theorem execTxStart_ends (n : BitVec 16) : CommandEnds gives s (execTxStart n s) := by
  unfold execTxStart
  split
  · exact .raised _
  · split
    · exact .raised _
    · split
      · exact .faulted _
      · exact .returned _

theorem execRxArm_ends : CommandEnds gives s (execRxArm s) := by
  unfold execRxArm
  split
  · exact .raised _
  · split
    · exact .returned _
    · exact .returned _

theorem execWait_ends (c : WaitCond) : CommandEnds gives s (execWait c s) := by
  unfold execWait
  cases c with
  | rx =>
    dsimp only
    split <;> exact .returned _
  | idle =>
    dsimp only
    split <;> exact .returned _

theorem execAbort_ends : CommandEnds gives s (execAbort s) := by
  unfold execAbort
  split
  · exact .returned _
  · exact .raised _

theorem execReadReg_ends (hg : gives) (r : Byte) : CommandEnds gives s (execReadReg r s) := by
  unfold execReadReg
  split
  · exact .raised _
  · exact .gave _ _ hg

theorem execSnifferCtrl_ends (b : Bool) : CommandEnds gives s (execSnifferCtrl b s) := by
  unfold execSnifferCtrl
  split
  · exact .returned _
  · exact .raised _

theorem execSnifferPop_ends (hg : gives) : CommandEnds gives s (execSnifferPop s) := by
  unfold execSnifferPop
  split
  · split
    · exact .raised _
    · exact .gave _ _ hg
  · exact .raised _

end

/-- Every host command ends in one of the four ways. -/
theorem exec_command_ends {i : Instr} (s : State) (hi : i.isCommand = true) :
    CommandEnds (GivesValue i) s (exec i s) := by
  cases i with
  | rxData | rxTimeout | rxBreak | rxFramingErr | rxOverflow | rxClash => cases hi
  | txData | txDone | timerAlarm | gpioNegedge | gpioPosedge => cases hi
  | enable => exact execEnable_ends s
  | disable => exact execDisable_ends s
  | setBreakLen v => exact .gave _ _ (.inl ⟨v, .inl rfl⟩)
  | setMabLen v => exact .gave _ _ (.inl ⟨v, .inr (.inl rfl)⟩)
  | setBaud v => exact .gave _ _ (.inl ⟨v, .inr (.inr rfl)⟩)
  | bufWrite addr data => exact execBufWrite_ends s addr data
  | bufRead addr => exact execBufRead_ends s (.inr (.inl ⟨addr, rfl⟩)) addr
  | txStart n => exact execTxStart_ends s n
  | rxArm => exact execRxArm_ends s
  | wait c => exact execWait_ends s c
  | waitCancel => exact .returned _
  | rxConsume => exact .gave _ _ (.inr (.inr (.inr (.inl rfl))))
  | abort => exact execAbort_ends s
  | setTn v => exact .returned _
  | readReg r => exact execReadReg_ends s (.inr (.inr (.inl ⟨r, rfl⟩))) r
  | snifferCtrl b => exact execSnifferCtrl_ends s b
  | snifferPop => exact execSnifferPop_ends s (.inr (.inr (.inr (.inr rfl))))

/-! ### No event answers (30_encoding.md R59)

Each procedure of the receive and transmit paths leaves the response as it was. -/

theorem rxByte_response {s t : State} {b : Byte} (h : rxByte s b = .ok t) :
    t.response = s.response := by
  obtain ⟨-, rfl⟩ | ⟨-, -, rfl⟩ | ⟨-, -, ⟨-, rfl⟩ | ⟨k, e, -, rfl⟩⟩ := rxByte_cases h
  · rfl
  all_goals simp

theorem drain_response {s t : State} {p : List Byte} (h : drain s p = .ok t) :
    t.response = s.response := by
  unfold drain at h
  exact rxBytes_induct (P := fun u => u.response = s.response)
    (fun _ _ _ hu hb => (rxByte_response hb).trans hu) (by simp) h

theorem finishIfReceiving_response {s t : State} {e : ErrCode} (h : finishIfReceiving s e = .ok t) :
    t.response = s.response := by
  obtain ⟨-, rfl⟩ | ⟨-, k, -, rfl⟩ := finishIfReceiving_cases h
  · rfl
  · exact State.finish_response s k e

theorem push_response {s t : State} {k : Nat} (h : push s k = .ok t) : t.response = s.response := by
  obtain ⟨-, bs, -, rfl⟩ := push_cases h
  rfl

@[simp] theorem State.maskTxDataIfDone_response (s : State) :
    s.maskTxDataIfDone.response = s.response := by
  unfold State.maskTxDataIfDone
  split
  · exact State.setIrq_response s _
  · rfl

@[simp] theorem State.turnaround_response (s : State) (dub : Bool) :
    (s.turnaround dub).response = s.response := by
  cases dub <;> simp [State.turnaround]

@[simp] theorem State.transmissionOver_response (s : State) :
    s.transmissionOver.response = s.response := by
  simp [State.transmissionOver]

@[simp] theorem State.responseTimedOut_response (s : State) :
    s.responseTimedOut.response = s.response := by
  simp [State.responseTimedOut]

section
variable {s t : State}

theorem execRxData_response {p : List Byte} (h : execRxData p s = .next t) :
    t.response = s.response := by
  unfold execRxData at h
  split at h
  · exact drain_response (outcomeOf_next h)
  · cases h; rfl

theorem execRxTimeout_response {p : List Byte} (h : execRxTimeout p s = .next t) :
    t.response = s.response := by
  unfold execRxTimeout at h
  split at h
  · exact drain_response (outcomeOf_next h)
  · cases h; rfl

theorem execRxBreak_response (h : execRxBreak s = .next t) : t.response = s.response := by
  unfold execRxBreak at h
  split at h
  · cases h; simp
  · cases h; rfl

theorem execRxFramingErr_response {p : List Byte} (h : execRxFramingErr p s = .next t) :
    t.response = s.response := by
  unfold execRxFramingErr at h
  split at h
  · split at h
    · cases h
    · next u hu =>
      have hdrained : u.response = s.response := by
        split at hu
        · cases hu; rfl
        · exact drain_response hu
      calc t.response = (u.emit .rxFifoReset).response :=
            finishIfReceiving_response (outcomeOf_next h)
        _ = u.response := State.emit_response u _
        _ = s.response := hdrained
  · cases h; rfl

theorem execRxOverflow_response (h : execRxOverflow s = .next t) : t.response = s.response := by
  unfold execRxOverflow at h
  split at h
  · exact (finishIfReceiving_response (outcomeOf_next h)).trans (State.emit_response s _)
  · cases h; rfl

theorem execRxClash_response (h : execRxClash s = .next t) : t.response = s.response := by
  unfold execRxClash at h
  split at h
  · exact finishIfReceiving_response (outcomeOf_next h)
  · cases h; rfl

theorem execTxData_response {space : BitVec 16} (h : execTxData space s = .next t) :
    t.response = s.response := by
  unfold execTxData at h
  split at h
  · split at h
    · split at h
      · cases h
      · next u hu => cases h; simpa using push_response hu
    · cases h; simp
  · cases h; rfl

theorem execTxDone_response (h : execTxDone s = .next t) : t.response = s.response := by
  unfold execTxDone at h
  split at h
  · split at h
    · cases h; rfl
    · split at h
      · cases h
      · dsimp only at h
        split at h <;> cases h <;> simp
  · cases h; rfl

theorem execTimerAlarm_response (h : execTimerAlarm s = .next t) : t.response = s.response := by
  unfold execTimerAlarm at h
  split at h
  · cases h; rfl
  · cases h; rfl
  · split at h
    · cases h
    · next u hu => cases h; simpa [State.endMab] using push_response hu
  · split at h <;> cases h <;> simp

theorem execGpioPosedge_response (h : execGpioPosedge s = .next t) : t.response = s.response := by
  unfold execGpioPosedge at h
  split at h
  · cases h; rfl
  · split at h <;> cases h <;> rfl

theorem execGpioNegedge_response (h : execGpioNegedge s = .next t) : t.response = s.response := by
  unfold execGpioNegedge at h
  split at h
  · cases h; rfl
  · split at h <;> cases h <;> rfl

end

/-- An event leaves the response as it was. -/
theorem exec_event_response {i : Instr} {s t : State} (hi : i.isCommand = false)
    (h : exec i s = .next t) : t.response = s.response := by
  cases i with
  | rxData p => exact execRxData_response h
  | rxTimeout p => exact execRxTimeout_response h
  | rxBreak => exact execRxBreak_response h
  | rxFramingErr p => exact execRxFramingErr_response h
  | rxOverflow => exact execRxOverflow_response h
  | rxClash => exact execRxClash_response h
  | txData space => exact execTxData_response h
  | txDone => exact execTxDone_response h
  | timerAlarm => exact execTimerAlarm_response h
  | gpioNegedge => exact execGpioNegedge_response h
  | gpioPosedge => exact execGpioPosedge_response h
  | enable | disable | setBreakLen | setMabLen | setBaud | bufWrite | bufRead | txStart => cases hi
  | rxArm | wait | waitCancel | rxConsume | abort | setTn | readReg => cases hi
  | snifferCtrl | snifferPop => cases hi

/-- Settles O15: each command ends in one of the four ways of `CommandEnds`, and no event touches
the response. -/
theorem commandsRespondAndFailuresChangeNothing :
    Obligations.CommandsRespondAndFailuresChangeNothing := fun _ s _ h =>
  ⟨fun hi => (exec_command_ends s hi).response h, fun hi => exec_event_response hi h⟩

end Sys2Proof.Machine
end

section
/-! PROOFS. The receive family: finishing a packet (40_receive.md R74 to R77), RX_BREAK and the rolling
estimate (R82, R83), and the lines that end a packet in an error (R84 to R86). -/

namespace Sys2Proof.Machine

/-! ### The procedures of R73 to R76 as one record update each -/

theorem State.cancelResp_eq (s : State) :
    s.cancelResp = { s with
      timerMode := if s.timerMode = .resp then .off else s.timerMode
      outputs := s.outputs ++ (if s.timerMode = .resp then [.timerPause] else []) } := by
  unfold State.cancelResp
  split
  · rfl
  · simp

theorem State.wakeIf_eq (s : State) (h : Bool) (n : BitVec 16) (k : PktKind) (e : ErrCode) :
    s.wakeIf h n k e = { s with
      taskWaiting := false
      outputs := s.outputs ++ (if s.taskWaiting = true then [.wake h n k e] else []) } := by
  unfold State.wakeIf
  split
  · rfl
  · next hw => simp [← Bool.eq_false_of_not_eq_true hw]

theorem State.endTransaction_eq (s : State) :
    s.endTransaction = { s with
      flags := if s.awaiting = true then s.flags.endTx else s.flags
      timerMode := if s.awaiting = true ∧ s.timerMode = .resp then .off else s.timerMode
      outputs := s.outputs ++
        (if s.awaiting = true ∧ s.timerMode = .resp then [.timerPause] else []) } := by
  unfold State.endTransaction
  split
  · next h => simp [State.cancelResp_eq, State.setFlags, h]
  · next h => simp [h]

/-- Finishing a packet written out field by field, with AWAITING_RESPONSE by its name. -/
theorem State.finish_eq (s : State) (k : PktKind) (e : ErrCode) :
    s.finish k e = { s with
      pktSize := s.clampedHead, pktKind := k, pktErr := e
      flags :=
        if s.awaiting = true then (s.flags.setHasData true).endTx else s.flags.setHasData true
      rxState := .postPacket
      timerMode := if s.awaiting = true ∧ s.timerMode = .resp then .off else s.timerMode
      taskWaiting := false
      outputs := s.outputs ++
        (if s.awaiting = true ∧ s.timerMode = .resp then [.timerPause] else []) ++
        (if s.taskWaiting = true then [.wake true s.clampedHead k e] else []) } := by
  unfold State.finish
  rw [State.wakeIf_eq, State.endTransaction_eq]
  rfl

/-- AWAITING_RESPONSE as R21 writes it. -/
theorem State.awaiting_iff (s : State) :
    s.awaiting = true ↔
      s.flags.sending = true ∧ s.flags.sentLast = true ∧ s.line.rtsRx = true := by
  simp [State.awaiting, and_assoc]

/-- Settles O35: `State.finish_eq` with the flags it writes spelled out. -/
theorem finishRecordsThePacketAndWakes : Obligations.FinishRecordsThePacketAndWakes := by
  intro s k e
  rw [State.finish_eq]
  simp only [← State.awaiting_iff]
  rfl

/-! ### RX_BREAK (40_receive.md R82) -/

theorem State.learnRxSize_eq (s : State) :
    s.learnRxSize = { s with
      rxSize := if 1 ≤ s.head ∧ s.pktErr = .ok then s.clampedHead else s.rxSize } := by
  unfold State.learnRxSize
  split <;> rfl

/-- RX_BREAK with its line enabled. -/
theorem execRxBreak_of_lineOn {s : State} (h : s.lineOn .rxBreak = true) :
    execRxBreak s = .next { s with
      rxSize := if 1 ≤ s.head ∧ s.pktErr = .ok then s.clampedHead else s.rxSize
      flags := { s.flags with inBreak := true, inMab := false, hasData := false }
      pktSize := 0, pktKind := .none, pktErr := .ok, head := 0, rxState := .receiving
      timerMode := if s.timerMode = .resp then .off else s.timerMode
      outputs := s.outputs ++ (if s.timerMode = .resp then [.timerPause] else []) } := by
  unfold execRxBreak
  dsimp only
  rw [if_pos h, State.cancelResp_eq, State.learnRxSize_eq]
  rfl

/-- RX_BREAK with its line masked. -/
theorem execRxBreak_of_masked {s : State} (h : s.lineOn .rxBreak = false) :
    execRxBreak s = .next s := by
  simp [execRxBreak, h]

/-- Settles O37. -/
theorem rxBreakOpensAPacket : Obligations.RxBreakOpensAPacket :=
  fun _ => ⟨execRxBreak_of_masked, execRxBreak_of_lineOn⟩

/-! ### The rolling estimate (40_receive.md R83)

No operation but RX_BREAK writes RX_SIZE. -/

/-- If the outcome is a next state, RX_SIZE is still `s`'s there. -/
def KeepsRxSize (s : State) (o : Host.Outcome State Fault Refusal) : Prop :=
  ∀ t, o = .next t → t.rxSize = s.rxSize

section
variable {s : State}

theorem KeepsRxSize.next {t : State} (h : t.rxSize = s.rxSize) : KeepsRxSize s (.next t) := by
  rintro _ ⟨⟩
  exact h

theorem KeepsRxSize.fault (f : Fault) : KeepsRxSize s (.fault f) := by
  intro _ h
  cases h

theorem KeepsRxSize.raise (e : ErrCode) : KeepsRxSize s (raise s e) := .next rfl

theorem KeepsRxSize.returnOk {t : State} {v : BitVec 64} (h : t.rxSize = s.rxSize) :
    KeepsRxSize s (returnOk t v) := .next h

theorem KeepsRxSize.outcomeOf {x : Except Fault State} (h : ∀ t, x = .ok t → t.rxSize = s.rxSize) :
    KeepsRxSize s (outcomeOf x) := fun t ht => h t (outcomeOf_next ht)

end

theorem rxByte_rxSize {s t : State} {b : Byte} (h : rxByte s b = .ok t) : t.rxSize = s.rxSize := by
  obtain ⟨-, rfl⟩ | ⟨-, -, rfl⟩ | ⟨-, -, ⟨-, rfl⟩ | ⟨k, e, -, rfl⟩⟩ := rxByte_cases h
  · rfl
  all_goals simp

theorem drain_rxSize {s t : State} {p : List Byte} (h : drain s p = .ok t) :
    t.rxSize = s.rxSize := by
  unfold drain at h
  exact rxBytes_induct (P := fun u => u.rxSize = s.rxSize)
    (fun _ _ _ hu hb => (rxByte_rxSize hb).trans hu) (by simp) h

theorem finishIfReceiving_rxSize {s t : State} {e : ErrCode} (h : finishIfReceiving s e = .ok t) :
    t.rxSize = s.rxSize := by
  obtain ⟨-, rfl⟩ | ⟨-, k, -, rfl⟩ := finishIfReceiving_cases h
  · rfl
  · exact State.finish_rxSize s k e

theorem push_rxSize {s t : State} {k : Nat} (h : push s k = .ok t) : t.rxSize = s.rxSize := by
  obtain ⟨-, bs, -, rfl⟩ := push_cases h
  rfl

@[simp] theorem State.maskTxDataIfDone_rxSize (s : State) :
    s.maskTxDataIfDone.rxSize = s.rxSize := by
  unfold State.maskTxDataIfDone
  split <;> rfl

@[simp] theorem State.turnaround_rxSize (s : State) (dub : Bool) :
    (s.turnaround dub).rxSize = s.rxSize := by
  cases dub <;> simp [State.turnaround]

@[simp] theorem State.transmissionOver_rxSize (s : State) :
    s.transmissionOver.rxSize = s.rxSize := by
  simp [State.transmissionOver]

@[simp] theorem State.responseTimedOut_rxSize (s : State) :
    s.responseTimedOut.rxSize = s.rxSize := by
  simp [State.responseTimedOut]

@[simp] theorem State.enablePort_rxSize (s : State) : s.enablePort.rxSize = s.rxSize := by
  cases hd : s.driving <;> cases hl : s.line.rtsRx <;> simp [State.enablePort, hd, hl]

section
variable (s : State)

theorem execRxData_rxSize (p : List Byte) : KeepsRxSize s (execRxData p s) := by
  unfold execRxData
  split
  · exact .outcomeOf fun _ => drain_rxSize
  · exact .next rfl

theorem execRxTimeout_rxSize (p : List Byte) : KeepsRxSize s (execRxTimeout p s) := by
  unfold execRxTimeout
  split
  · exact .outcomeOf fun _ => drain_rxSize
  · exact .next rfl

theorem execRxFramingErr_rxSize (p : List Byte) : KeepsRxSize s (execRxFramingErr p s) := by
  unfold execRxFramingErr
  split
  · split
    · exact .fault _
    · next u hu =>
      have hdrained : u.rxSize = s.rxSize := by
        split at hu
        · cases hu; rfl
        · exact drain_rxSize hu
      exact .outcomeOf fun _ ht => (finishIfReceiving_rxSize ht).trans hdrained
  · exact .next rfl

theorem execRxOverflow_rxSize : KeepsRxSize s (execRxOverflow s) := by
  unfold execRxOverflow
  split
  · exact .outcomeOf fun _ => finishIfReceiving_rxSize
  · exact .next rfl

theorem execRxClash_rxSize : KeepsRxSize s (execRxClash s) := by
  unfold execRxClash
  split
  · exact .outcomeOf fun _ => finishIfReceiving_rxSize
  · exact .next rfl

theorem execTxData_rxSize (space : BitVec 16) : KeepsRxSize s (execTxData space s) := by
  unfold execTxData
  split
  · split
    · split
      · exact .fault _
      · next u hu => exact .next ((State.maskTxDataIfDone_rxSize u).trans (push_rxSize hu))
    · exact .next (State.maskTxDataIfDone_rxSize s)
  · exact .next rfl

theorem execTxDone_rxSize : KeepsRxSize s (execTxDone s) := by
  unfold execTxDone
  split
  · split
    · exact .next rfl
    · split
      · exact .fault _
      · dsimp only
        split <;> exact .next (by simp)
  · exact .next rfl

theorem execTimerAlarm_rxSize : KeepsRxSize s (execTimerAlarm s) := by
  unfold execTimerAlarm
  split
  · exact .next rfl
  · exact .next rfl
  · split
    · exact .fault _
    · next u hu => exact .next (by simpa [State.endMab] using push_rxSize hu)
  · split <;> exact .next (by simp)

theorem execGpioNegedge_rxSize : KeepsRxSize s (execGpioNegedge s) := by
  unfold execGpioNegedge
  split
  · exact .next rfl
  · split <;> exact .next rfl

theorem execGpioPosedge_rxSize : KeepsRxSize s (execGpioPosedge s) := by
  unfold execGpioPosedge
  split
  · exact .next rfl
  · split <;> exact .next rfl

theorem execEnable_rxSize : KeepsRxSize s (execEnable s) := by
  unfold execEnable
  split <;> exact .returnOk (by simp)

theorem execDisable_rxSize : KeepsRxSize s (execDisable s) := by
  unfold execDisable
  split <;> exact .returnOk (by simp)

theorem execBufWrite_rxSize (addr : BitVec 16) (data : Byte) :
    KeepsRxSize s (execBufWrite addr data s) := by
  unfold execBufWrite
  split
  · exact .raise _
  · split
    · exact .raise _
    · exact .returnOk rfl

theorem execBufRead_rxSize (addr : BitVec 16) : KeepsRxSize s (execBufRead addr s) := by
  unfold execBufRead
  split
  · exact .raise _
  · split
    · exact .fault _
    · exact .returnOk rfl

theorem execTxStart_rxSize (n : BitVec 16) : KeepsRxSize s (execTxStart n s) := by
  unfold execTxStart
  split
  · exact .raise _
  · split
    · exact .raise _
    · split
      · exact .fault _
      · exact .returnOk rfl

theorem execRxArm_rxSize : KeepsRxSize s (execRxArm s) := by
  unfold execRxArm
  split
  · exact .raise _
  · split <;> exact .returnOk (by simp)

theorem execWait_rxSize (c : WaitCond) : KeepsRxSize s (execWait c s) := by
  unfold execWait
  cases c with
  | rx =>
    dsimp only
    split <;> exact .returnOk (by simp)
  | idle =>
    dsimp only
    split <;> exact .returnOk (by simp)

theorem execAbort_rxSize : KeepsRxSize s (execAbort s) := by
  unfold execAbort
  split
  · exact .returnOk (by simp)
  · exact .raise _

theorem execReadReg_rxSize (r : Byte) : KeepsRxSize s (execReadReg r s) := by
  unfold execReadReg
  split
  · exact .raise _
  · exact .returnOk rfl

theorem execSnifferCtrl_rxSize (b : Bool) : KeepsRxSize s (execSnifferCtrl b s) := by
  unfold execSnifferCtrl
  split
  · exact .returnOk rfl
  · exact .raise _

theorem execSnifferPop_rxSize : KeepsRxSize s (execSnifferPop s) := by
  unfold execSnifferPop
  split
  · split
    · exact .raise _
    · exact .returnOk rfl
  · exact .raise _

end

/-- Every operation but RX_BREAK keeps RX_SIZE. -/
theorem exec_rxSize {i : Instr} (s : State) (hi : i ≠ .rxBreak) : KeepsRxSize s (exec i s) := by
  cases i with
  | rxData p => exact execRxData_rxSize s p
  | rxTimeout p => exact execRxTimeout_rxSize s p
  | rxBreak => exact absurd rfl hi
  | rxFramingErr p => exact execRxFramingErr_rxSize s p
  | rxOverflow => exact execRxOverflow_rxSize s
  | rxClash => exact execRxClash_rxSize s
  | txData space => exact execTxData_rxSize s space
  | txDone => exact execTxDone_rxSize s
  | timerAlarm => exact execTimerAlarm_rxSize s
  | gpioNegedge => exact execGpioNegedge_rxSize s
  | gpioPosedge => exact execGpioPosedge_rxSize s
  | enable => exact execEnable_rxSize s
  | disable => exact execDisable_rxSize s
  | setBreakLen | setMabLen | setBaud => exact .returnOk rfl
  | bufWrite addr data => exact execBufWrite_rxSize s addr data
  | bufRead addr => exact execBufRead_rxSize s addr
  | txStart n => exact execTxStart_rxSize s n
  | rxArm => exact execRxArm_rxSize s
  | wait c => exact execWait_rxSize s c
  | waitCancel | rxConsume | setTn => exact .returnOk rfl
  | abort => exact execAbort_rxSize s
  | readReg r => exact execReadReg_rxSize s r
  | snifferCtrl b => exact execSnifferCtrl_rxSize s b
  | snifferPop => exact execSnifferPop_rxSize s

/-- An RX_BREAK that changes RX_SIZE is enabled and ends a packet of at least one byte and no error. -/
theorem execRxBreak_learns {s t : State} (h : execRxBreak s = .next t) (hne : t.rxSize ≠ s.rxSize) :
    1 ≤ s.head ∧ s.pktErr = .ok ∧ t.rxSize = s.clampedHead := by
  cases hon : s.lineOn .rxBreak with
  | false =>
    rw [execRxBreak_of_masked hon] at h
    cases h
    exact absurd rfl hne
  | true =>
    rw [execRxBreak_of_lineOn hon] at h
    cases h
    by_cases hlearn : 1 ≤ s.head ∧ s.pktErr = .ok
    · exact ⟨hlearn.1, hlearn.2, if_pos hlearn⟩
    · exact absurd (if_neg hlearn) hne

/-- Settles O19: RX_BREAK is the only writer of RX_SIZE, and it writes what it learns. -/
theorem rollingEstimateIsLearntOnlyAtBreak : Obligations.RollingEstimateIsLearntOnlyAtBreak := by
  intro i s t h hne
  have hbreak : i = .rxBreak := by
    by_contra hi
    exact hne (exec_rxSize s hi t h)
  subst hbreak
  exact ⟨rfl, execRxBreak_learns h hne⟩

/-! ### The kind of an error finish (40_receive.md R77) -/

theorem kindOf_of_empty {s : State} (h : s.head < 1) : kindOf s = .ok .none := by
  simp [kindOf, h]

/-- A byte the buffer is known to hold is what a read of its cell answers. -/
theorem memRead_of_bytesAt {s : State} {bs : List Byte} {a : Nat} (h : BytesAt s 0 bs)
    (ha : a < bs.length) (hc : a < s.cfg.bufCap) : memRead s a = .ok (bs.getD a 0) := by
  have hcell : cellAt s.buf a = some bs[a] := by simpa using h a ha
  rw [memRead_ok_iff, List.getD_eq_getElem _ _ ha]
  exact ⟨hc, hcell⟩

/-- The kind of a packet of one byte. -/
theorem kindOf_of_one {s : State} {b0 : Byte} (h : s.head = 1) (h0 : memRead s 0 = .ok b0) :
    kindOf s = .ok (if b0 = rdmSc then .rdm else kindOfFirst b0) := by
  by_cases hsc : b0 = rdmSc <;> simp [kindOf, h, h0, hsc]

/-- The kind of a packet of at least two bytes. -/
theorem kindOf_of_two {s : State} {b0 b1 : Byte} (h : 2 ≤ s.head) (h0 : memRead s 0 = .ok b0)
    (h1 : memRead s 1 = .ok b1) :
    kindOf s = .ok (if b0 = rdmSc ∧ b1 = rdmSubSc then .rdm else kindOfFirst b0) := by
  simp only [kindOf, h0, h1, if_neg (show ¬ s.head < 1 by omega), if_neg (show ¬ s.head < 2 by omega)]
  by_cases hsc : b0 = rdmSc <;> by_cases hsub : b1 = rdmSubSc <;> simp [hsc, hsub]

/-- Settles O30, by the number of bytes counted: none, one, or at least two. -/
theorem errorFinishKindFollowsTheFirstBytes : Obligations.ErrorFinishKindFollowsTheFirstBytes := by
  refine fun s => ⟨kindOf_of_empty, fun h bs hcap hhead h1 hlen hbs => ?_⟩
  have h0 : memRead s 0 = .ok (bs.getD 0 0) := memRead_of_bytesAt hbs (by omega) (by omega)
  by_cases h2 : h < 2
  · rw [kindOf_of_one (by omega) h0]
    simp [h2, kindOfFirst, rdmSc, rdmPreamble, rdmDelimiter]
  · rw [kindOf_of_two (by omega) h0 (memRead_of_bytesAt hbs (by omega) (by omega))]
    simp [h2, kindOfFirst, rdmSc, rdmSubSc, rdmPreamble, rdmDelimiter]

/-! ### Error finishes (40_receive.md R85, R86) -/

theorem finishIfReceiving_of_receiving {s : State} {k : PktKind} (e : ErrCode)
    (h : s.rxState = .receiving) (hk : kindOf s = .ok k) :
    finishIfReceiving s e = .ok (s.finish k e) := by
  simp [finishIfReceiving, h, hk]

theorem finishIfReceiving_of_ne {s : State} (e : ErrCode) (h : s.rxState ≠ .receiving) :
    finishIfReceiving s e = .ok s := by
  simp [finishIfReceiving, h]

/-- The kind does not depend on what was put out. -/
@[simp] theorem kindOf_emit (s : State) (a : Action) : kindOf (s.emit a) = kindOf s := rfl

theorem execRxOverflow_of_lineOn {s : State} (h : s.lineOn .rxOverflow = true) :
    execRxOverflow s = outcomeOf (finishIfReceiving (s.emit .rxFifoReset) .dataOverflow) := by
  simp [execRxOverflow, h]

theorem execRxClash_of_lineOn {s : State} (h : s.lineOn .rxClash = true) :
    execRxClash s = outcomeOf (finishIfReceiving s .dataCollision) := by
  simp [execRxClash, h]

/-- What the receive path needs of a state to take bytes without a fault: valid parameters and,
outside WAIT_BREAK, a HEAD that is a count of cells that are all written. -/
structure ReceiveReady (s : State) : Prop where
  cfgValid : s.cfg.Valid
  head_nonneg : s.rxState ≠ .waitBreak → 0 ≤ s.head
  written : s.rxState ≠ .waitBreak → AllWritten s (min s.headNat s.cfg.bufCap)

theorem Inv.receiveReady {s : State} (hi : Inv s) : ReceiveReady s where
  cfgValid := hi.cfgValid
  head_nonneg h := hi.item7 (by cases hr : s.rxState <;> simp_all)
  written := hi.received

/-- In such a state a packet being received has a kind. -/
theorem ReceiveReady.kindOf_ok {s : State} (hs : ReceiveReady s) (h : s.rxState = .receiving) :
    ∃ k, kindOf s = .ok k := by
  obtain ⟨⟨hcap, -⟩, -⟩ := hs.cfgValid
  exact kindOf_of_written (by omega) (hs.written (by simp [h]))

/-- Settles O39. -/
theorem overflowAndClashFinishThePacket : Obligations.OverflowAndClashFinishThePacket := by
  intro s
  refine ⟨fun h => ?_, fun h => ?_, fun hne => ⟨fun h => ?_, fun h => ?_⟩, fun hr hi => ?_⟩
  · simp [exec, execRxOverflow, h]
  · simp [exec, execRxClash, h]
  · exact (execRxOverflow_of_lineOn h).trans
      (congrArg outcomeOf (finishIfReceiving_of_ne (s := s.emit .rxFifoReset) .dataOverflow hne))
  · exact (execRxClash_of_lineOn h).trans
      (congrArg outcomeOf (finishIfReceiving_of_ne .dataCollision hne))
  · obtain ⟨k, hk⟩ := hi.receiveReady.kindOf_ok hr
    refine ⟨k, hk, fun h => ?_, fun h => ?_⟩
    · exact (execRxOverflow_of_lineOn h).trans (congrArg outcomeOf
        (finishIfReceiving_of_receiving (s := s.emit .rxFifoReset) .dataOverflow hr hk))
    · exact (execRxClash_of_lineOn h).trans
        (congrArg outcomeOf (finishIfReceiving_of_receiving .dataCollision hr hk))

/-! ### A drain from a ready state does not fault (40_receive.md R78, R79) -/

/-- Taking a byte leaves the cell at HEAD written and unwrites none. -/
theorem State.takeByte_written {s : State} (b : Byte) (hs : ReceiveReady s)
    (hr : s.rxState ≠ .waitBreak) :
    AllWritten (s.takeByte b) (min (s.takeByte b).headNat s.cfg.bufCap) := by
  intro a ha
  rw [State.takeByte_headNat b hs.cfgValid] at ha
  rw [State.takeByte_buf]
  split
  · by_cases hnew : a = s.headNat
    · simp [hnew]
    · exact isSome_cellAt_putCell _ b (hs.written hr a (by omega))
  · exact hs.written hr a (by omega)

theorem ReceiveReady.takeByte {s : State} (b : Byte) (hs : ReceiveReady s)
    (hr : s.rxState ≠ .waitBreak) : ReceiveReady (s.takeByte b) where
  cfgValid := by simpa using hs.cfgValid
  head_nonneg _ := by
    rw [State.takeByte_head_of_valid b hs.cfgValid]
    omega
  written _ := by simpa using State.takeByte_written b hs hr

theorem ReceiveReady.cancelResp {s : State} (hs : ReceiveReady s) : ReceiveReady s.cancelResp := by
  rw [State.cancelResp_eq]
  exact ⟨hs.cfgValid, hs.head_nonneg, hs.written⟩

theorem ReceiveReady.finish {s : State} (hs : ReceiveReady s) (hr : s.rxState ≠ .waitBreak)
    (k : PktKind) (e : ErrCode) : ReceiveReady (s.finish k e) := by
  rw [State.finish_eq]
  exact ⟨hs.cfgValid, fun _ => hs.head_nonneg hr, fun _ => hs.written hr⟩

/-- A counted byte is classified without a fault, and the state stays ready. -/
theorem ReceiveReady.settleByte_ok {s : State} (hs : ReceiveReady s) (hr : s.rxState ≠ .waitBreak)
    (h1 : 1 ≤ s.headNat) : ∃ t, settleByte s = .ok t ∧ ReceiveReady t := by
  obtain ⟨⟨hcap, -⟩, -⟩ := hs.cfgValid
  obtain ⟨v, hv⟩ := classify_of_written (by omega) h1 (hs.written hr)
  cases v with
  | pending => exact ⟨s, by simp [settleByte, hv], hs⟩
  | complete k e => exact ⟨s.finish k e, by simp [settleByte, hv], hs.finish hr k e⟩

/-- A byte that arrives is taken without a fault, and the state stays ready. -/
theorem ReceiveReady.rxByte_ok {s : State} (b : Byte) (hs : ReceiveReady s) :
    ∃ t, rxByte s b = .ok t ∧ ReceiveReady t := by
  cases hr : s.rxState with
  | waitBreak => exact ⟨s, by simp [rxByte, hr], hs⟩
  | postPacket =>
    have hne : s.rxState ≠ .waitBreak := by simp [hr]
    have h0 : ¬ s.head < 0 := not_lt.mpr (hs.head_nonneg hne)
    exact ⟨s.takeByte b, by simp [rxByte, hr, h0], hs.takeByte b hne⟩
  | receiving =>
    have hne : s.rxState ≠ .waitBreak := by simp [hr]
    have h0 : ¬ s.head < 0 := not_lt.mpr (hs.head_nonneg hne)
    obtain ⟨⟨hcap, -, hmax⟩, -⟩ := hs.cfgValid
    have hcount : (s.takeByte b).cancelResp.headNat = min (s.headNat + 1) s.cfg.headMax := by
      rw [State.headNat, State.cancelResp_head]
      exact State.takeByte_headNat b hs.cfgValid
    obtain ⟨t, ht, hready⟩ :=
      (hs.takeByte b hne).cancelResp.settleByte_ok (by simp [hr]) (by omega)
    exact ⟨t, by simp [rxByte, hr, h0, ht], hready⟩

theorem ReceiveReady.drain_ok {s : State} (p : List Byte) (hs : ReceiveReady s) :
    ∃ t, drain s p = .ok t ∧ ReceiveReady t :=
  rxBytes_ok (fun _ b hu => hu.rxByte_ok b) ⟨hs.cfgValid, hs.head_nonneg, hs.written⟩

/-! ### A drain does not look at IRQ_EN -/

/-- `s` with another IRQ_EN. -/
def State.withIrq (s : State) (m : BitVec 8) : State := { s with irqEn := m }

/-- The classifier depends only on the parameters, HEAD, RX_SIZE and the buffer. -/
theorem classify_congr {s t : State} (hcfg : s.cfg = t.cfg) (hbuf : s.buf = t.buf)
    (hhead : s.head = t.head) (hsize : s.rxSize = t.rxSize) : classify s = classify t := by
  have hcap : s.cfg.bufCap = t.cfg.bufCap := by rw [hcfg]
  have hread : memRead s = memRead t := funext fun _ => memRead_congr hcap (by rw [hbuf])
  have hmany : memReadMany s = memReadMany t := funext fun _ => funext fun _ =>
    memReadMany_congr hcap fun _ _ => by rw [hbuf]
  unfold classify classifyRdm classifyDisc classifyDmx State.headNat
  rw [hread, hmany, hhead, hsize]

theorem State.takeByte_eq (s : State) (b : Byte) :
    s.takeByte b = { s with
      buf := if s.headNat < s.cfg.bufCap then putCell s.buf s.headNat b else s.buf
      head := s.toHead (min (s.headNat + 1) s.cfg.headMax : Nat) } := by
  unfold State.takeByte
  split <;> rfl

section
variable (s : State) (m : BitVec 8)

theorem State.takeByte_withIrq (b : Byte) :
    (s.withIrq m).takeByte b = (s.takeByte b).withIrq m := by
  rw [State.takeByte_eq, State.takeByte_eq]
  rfl

theorem State.cancelResp_withIrq : (s.withIrq m).cancelResp = s.cancelResp.withIrq m := by
  rw [State.cancelResp_eq, State.cancelResp_eq]
  rfl

theorem State.finish_withIrq (k : PktKind) (e : ErrCode) :
    (s.withIrq m).finish k e = (s.finish k e).withIrq m := by
  rw [State.finish_eq, State.finish_eq]
  rfl

theorem classify_withIrq : classify (s.withIrq m) = classify s := classify_congr rfl rfl rfl rfl

end

theorem settleByte_withIrq {s t : State} (m : BitVec 8) (h : settleByte s = .ok t) :
    settleByte (s.withIrq m) = .ok (t.withIrq m) := by
  unfold settleByte at h ⊢
  rw [classify_withIrq]
  split at h
  · cases h
  · cases h; rfl
  · next k e _ => cases h; exact congrArg Except.ok (State.finish_withIrq s m k e)

theorem rxByte_withIrq {s t : State} {b : Byte} (m : BitVec 8) (h : rxByte s b = .ok t) :
    rxByte (s.withIrq m) b = .ok (t.withIrq m) := by
  have hstate : (s.withIrq m).rxState = s.rxState := rfl
  have hhead : (s.withIrq m).head = s.head := rfl
  unfold rxByte at h ⊢
  rw [hstate, hhead, State.takeByte_withIrq, State.cancelResp_withIrq]
  split at h
  · cases h; rfl
  · split at h
    · cases h
    · next hn => rw [if_neg hn]; exact settleByte_withIrq m h
  · split at h
    · cases h
    · next hn => cases h; rw [if_neg hn]

theorem rxBytes_withIrq (m : BitVec 8) : ∀ {p : List Byte} {s t : State}, rxBytes s p = .ok t →
    rxBytes (s.withIrq m) p = .ok (t.withIrq m)
  | [], s, t, h => by cases h; rfl
  | b :: bs, s, t, h => by
    simp only [rxBytes] at h ⊢
    split at h
    · cases h
    · next u hu =>
      rw [rxByte_withIrq m hu]
      exact rxBytes_withIrq m h

/-- A drain does the same under every IRQ_EN. -/
theorem drain_withIrq {s t : State} {p : List Byte} (m : BitVec 8) (h : drain s p = .ok t) :
    drain (s.withIrq m) p = .ok (t.withIrq m) := rxBytes_withIrq m h

theorem rxByte_irqEn {s t : State} {b : Byte} (h : rxByte s b = .ok t) : t.irqEn = s.irqEn := by
  obtain ⟨-, rfl⟩ | ⟨-, -, rfl⟩ | ⟨-, -, ⟨-, rfl⟩ | ⟨k, e, -, rfl⟩⟩ := rxByte_cases h
  · rfl
  all_goals simp

theorem drain_irqEn {s t : State} {p : List Byte} (h : drain s p = .ok t) : t.irqEn = s.irqEn := by
  unfold drain at h
  exact rxBytes_induct (P := fun u => u.irqEn = s.irqEn)
    (fun _ _ _ hu hb => (rxByte_irqEn hb).trans hu) (by simp) h

/-- With its line on, RX_DATA drains. -/
theorem execRxData_withIrq {s t : State} {p : List Byte} (h : drain s p = .ok t) :
    execRxData p (s.withIrq 0x3F) = .next (t.withIrq 0x3F) := by
  have hon : (s.withIrq 0x3F).lineOn .rxData = true := by
    simp [State.lineOn, State.withIrq, UartLine.bit]
  rw [execRxData, if_pos hon, drain_withIrq 0x3F h, outcomeOf_ok]

/-! ### RX_FRAMING_ERR (40_receive.md R84) -/

/-- The good bytes of RX_FRAMING_ERR: drained, if there are any. -/
def drainGood (s : State) (p : List Byte) : Except Fault State :=
  if p = [] then .ok s else drain s p

theorem ReceiveReady.drainGood_ok {s : State} (p : List Byte) (hs : ReceiveReady s) :
    ∃ u, drainGood s p = .ok u ∧ ReceiveReady u := by
  unfold drainGood
  split
  · exact ⟨s, rfl, hs⟩
  · exact hs.drain_ok p

theorem drainGood_nil {s u : State} (h : drainGood s [] = .ok u) : u = s := by
  cases h; rfl

theorem drainGood_of_ne {s u : State} {p : List Byte} (hp : p ≠ []) (h : drainGood s p = .ok u) :
    drain s p = .ok u := by
  simpa [drainGood, hp] using h

theorem drainGood_irqEn {s u : State} {p : List Byte} (h : drainGood s p = .ok u) :
    u.irqEn = s.irqEn := by
  by_cases hp : p = []
  · subst hp; rw [drainGood_nil h]
  · exact drain_irqEn (drainGood_of_ne hp h)

theorem execRxFramingErr_of_masked {s : State} {p : List Byte} (h : s.lineOn .rxFramingErr = false) :
    execRxFramingErr p s = .next s := by
  simp [execRxFramingErr, h]

/-- RX_FRAMING_ERR enabled, once the good bytes are drained. -/
theorem execRxFramingErr_of_drained {s u : State} {p : List Byte}
    (h : s.lineOn .rxFramingErr = true) (hu : drainGood s p = .ok u) :
    execRxFramingErr p s = outcomeOf (finishIfReceiving (u.emit .rxFifoReset) .improperSlot) := by
  unfold drainGood at hu
  simp only [execRxFramingErr, h, hu, if_true]

/-- Settles O38: `u` is the state after the good bytes. -/
theorem framingErrorFinishesThePacket : Obligations.FramingErrorFinishesThePacket := by
  refine fun s p => ⟨execRxFramingErr_of_masked, fun hon hi => ?_⟩
  obtain ⟨u, hu, hready⟩ := hi.receiveReady.drainGood_ok p
  have hexec := execRxFramingErr_of_drained hon hu
  refine ⟨u, drainGood_irqEn hu, ?_, fun hp => ?_, fun hr => ?_, fun hne => ?_⟩
  · rintro rfl; exact drainGood_nil hu
  · exact execRxData_withIrq (drainGood_of_ne hp hu)
  · obtain ⟨k, hk⟩ := hready.kindOf_ok hr
    exact ⟨k, hk, hexec.trans (congrArg outcomeOf
      (finishIfReceiving_of_receiving (s := u.emit .rxFifoReset) .improperSlot hr hk))⟩
  · exact hexec.trans (congrArg outcomeOf
      (finishIfReceiving_of_ne (s := u.emit .rxFifoReset) .improperSlot hne))

end Sys2Proof.Machine
end

section
/-! PROOFS. The sniffer family: the two edges (41_sniffer.md R91 to R94) and the two sniffer commands
(R95, R96). -/

namespace Sys2Proof.Machine

/-! ### Which edges are ignored (41_sniffer.md R91) -/

theorem State.edgeIgnored_iff (s : State) :
    s.edgeIgnored = true ↔
      s.cfg.snifferPresent = false ∨ s.snifCtrl = false ∨ s.line.rtsRx = false := by
  simp [State.edgeIgnored, or_assoc]

theorem State.edgeIgnored_of_watching {s : State} (hp : s.cfg.snifferPresent = true)
    (hc : s.snifCtrl = true) (hr : s.line.rtsRx = true) : s.edgeIgnored = false := by
  simp [State.edgeIgnored, hp, hc, hr]

/-! ### GPIO_POSEDGE (41_sniffer.md R92) -/

theorem execGpioPosedge_of_ignored {s : State} (h : s.edgeIgnored = true) :
    execGpioPosedge s = .next s := if_pos h

/-- A rising edge outside a BREAK only records its time. -/
theorem execGpioPosedge_of_not_inBreak {s : State} (h : s.edgeIgnored = false)
    (hb : s.flags.inBreak = false) :
    execGpioPosedge s = .next { s with snifPosTs := s.lastNow } := by
  simp [execGpioPosedge, h, hb]

/-- A rising edge in a BREAK measures the BREAK and begins a MAB. -/
theorem execGpioPosedge_of_inBreak {s : State} (h : s.edgeIgnored = false)
    (hb : s.flags.inBreak = true) :
    execGpioPosedge s = .next { s with
      snifBreakW := width32 s.lastNow s.snifNegTs
      flags := s.flags.setBreakMab false true
      snifPosTs := s.lastNow } := by
  simp [execGpioPosedge, h, hb]

/-- Settles O48: with the edges in order, `width32` is the saturated difference. -/
theorem risingEdgeMeasuresTheBreak : Obligations.RisingEdgeMeasuresTheBreak := by
  refine fun s => ⟨fun hi => execGpioPosedge_of_ignored (s.edgeIgnored_iff.mpr hi),
    fun hp hc hr => ?_⟩
  have hw := State.edgeIgnored_of_watching hp hc hr
  refine ⟨execGpioPosedge_of_not_inBreak hw, fun hb hle => ?_⟩
  rw [← width32_of_le hle]
  exact execGpioPosedge_of_inBreak hw hb

/-! ### GPIO_NEGEDGE (41_sniffer.md R93, R94) -/

theorem execGpioNegedge_of_ignored {s : State} (h : s.edgeIgnored = true) :
    execGpioNegedge s = .next s := if_pos h

/-- A falling edge outside a MAB only records its time. -/
theorem execGpioNegedge_of_not_inMab {s : State} (h : s.edgeIgnored = false)
    (hm : s.flags.inMab = false) :
    execGpioNegedge s = .next { s with snifNegTs := s.lastNow } := by
  simp [execGpioNegedge, h, hm]

/-- A falling edge in a MAB measures the MAB and queues the pair. -/
theorem execGpioNegedge_of_inMab {s : State} (h : s.edgeIgnored = false)
    (hm : s.flags.inMab = true) :
    execGpioNegedge s = .next { s with
      snifQ := appendPair s.cfg.snifQDepth s.snifQ
        ⟨s.snifBreakW, width32 s.lastNow s.snifPosTs⟩
      flags := { s.flags with inMab := false }
      snifNegTs := s.lastNow } := by
  simp [execGpioNegedge, h, hm]

/-- A full queue loses its oldest pair to the appended one. -/
theorem appendPair_eq (depth : Nat) (q : List SnifPair) (p : SnifPair) :
    appendPair depth q p = (if q.length = depth then q.drop 1 else q) ++ [p] := by
  rw [appendPair, List.drop_one]

/-- Settles O49: with the edges in order, `width32` is the saturated difference. -/
theorem fallingEdgeQueuesThePair : Obligations.FallingEdgeQueuesThePair := by
  refine fun s => ⟨fun hi => execGpioNegedge_of_ignored (s.edgeIgnored_iff.mpr hi),
    fun hp hc hr => ?_⟩
  have hw := State.edgeIgnored_of_watching hp hc hr
  refine ⟨execGpioNegedge_of_not_inMab hw, fun hm hle => ?_⟩
  rw [← width32_of_le hle, ← appendPair_eq]
  exact execGpioNegedge_of_inMab hw hm

/-! ### SNIFFER_CTRL and SNIFFER_POP (41_sniffer.md R95, R96) -/

theorem execSnifferCtrl_of_absent {s : State} (b : Bool) (h : s.cfg.snifferPresent = false) :
    execSnifferCtrl b s = raise s .invalidState := by
  simp [execSnifferCtrl, h]

theorem execSnifferCtrl_of_present {s : State} (b : Bool) (h : s.cfg.snifferPresent = true) :
    execSnifferCtrl b s = returnOk { s with snifCtrl := b } 0 := if_pos h

theorem execSnifferPop_of_absent {s : State} (h : s.cfg.snifferPresent = false) :
    execSnifferPop s = raise s .invalidState := by
  simp [execSnifferPop, h]

theorem execSnifferPop_of_nil {s : State} (h : s.cfg.snifferPresent = true) (hq : s.snifQ = []) :
    execSnifferPop s = raise s .timeout := by
  simp [execSnifferPop, h, hq]

theorem execSnifferPop_of_cons {s : State} {p : SnifPair} {rest : List SnifPair}
    (h : s.cfg.snifferPresent = true) (hq : s.snifQ = p :: rest) :
    execSnifferPop s = returnOk { s with snifQ := rest } (p.breakW ++ p.mabW) := by
  simp [execSnifferPop, h, hq]

/-- The popped value carries the BREAK width in its upper and the MAB width in its lower half. -/
theorem toNat_append_widths (bw mw : BitVec 32) :
    (bw ++ mw).toNat = bw.toNat * 2 ^ 32 + mw.toNat := by
  rw [BitVec.toNat_append, ← Nat.shiftLeft_add_eq_or_of_lt mw.isLt, Nat.shiftLeft_eq]

/-- Settles O50. -/
theorem snifferCommandsSwitchAndPop : Obligations.SnifferCommandsSwitchAndPop := fun _ =>
  ⟨fun ha => ⟨fun b => execSnifferCtrl_of_absent b ha, execSnifferPop_of_absent ha⟩,
   fun hp => ⟨fun b => execSnifferCtrl_of_present b hp, execSnifferPop_of_nil hp,
    fun p _ hq => ⟨p.breakW ++ p.mabW, toNat_append_widths _ _, execSnifferPop_of_cons hp hq⟩⟩⟩

end Sys2Proof.Machine
end

section
/-! PROOFS. The transmit family: TX_START (42_transmit.md R101), the alarm (R102), the slots (R103), the
turnaround and the reply it waits for (R104, R100), and ABORT (R105). -/

namespace Sys2Proof.Machine

/-! ### ABORT (42_transmit.md R105) -/

theorem execAbort_of_awaiting {s : State} (h : s.awaiting = true) :
    execAbort s = .next { s with
      flags := s.flags.endTx
      timerMode := if s.timerMode = .resp then .off else s.timerMode
      outputs := s.outputs ++ (if s.timerMode = .resp then [.timerPause] else [])
      response := some ⟨.ok, 0⟩ } := by
  rw [execAbort, if_pos h, State.cancelResp_eq]
  rfl

/-- Settles O46. -/
theorem abortEndsAnAwaitedTransaction : Obligations.AbortEndsAnAwaitedTransaction := fun s =>
  ⟨fun h => if_neg (mt s.awaiting_iff.mp h), fun h => execAbort_of_awaiting (s.awaiting_iff.mpr h)⟩

/-! ### TX_START (42_transmit.md R101, 60_exceptions.md R140) -/

/-- A read that passes over an unwritten cell faults on the first one. -/
theorem memReadMany_of_first_unwritten {s : State} {a k : Nat} (ha : a < k) (hk : k ≤ s.cfg.bufCap)
    (hn : cellAt s.buf a = none) (hw : AllWritten s a) :
    memReadMany s 0 k = .error (.unwritten a) := by
  cases hr : memReadMany s 0 k with
  | ok bs =>
    obtain ⟨hl, hall⟩ := memReadMany_ok_iff.mp hr
    have hcell := (memRead_ok_iff.mp (hall a (by omega))).2
    simp [hn] at hcell
  | error f =>
    obtain ⟨j, hj, he, hbefore⟩ := memReadMany_error hr
    rw [Nat.zero_add] at he
    obtain ⟨rfl, hnj⟩ := memRead_error (by omega) he
    rcases Nat.lt_trichotomy j a with hja | rfl | haj
    · have := hw j hja
      simp [hnj] at this
    · rfl
    · obtain ⟨b, hb⟩ := hbefore a haj
      have hcell := (memRead_ok_iff.mp hb).2
      simp [hn] at hcell

theorem execTxStart_of_badState {s : State} (n : BitVec 16)
    (h : s.flags.enabled = false ∨ s.flags.sending = true) :
    execTxStart n s = raise s .invalidState := if_pos h

section
variable {s : State} {n : BitVec 16} (he : s.flags.enabled = true) (hs : s.flags.sending = false)
include he hs

theorem execTxStart_of_badSize (h : n.toNat < 1 ∨ s.cfg.bufCap < n.toNat) :
    execTxStart n s = raise s .invalidArg := by
  rw [execTxStart, if_neg (by simp [he, hs]), if_pos h]

theorem execTxStart_of_fault {f : Fault} (h1 : 1 ≤ n.toNat) (hc : n.toNat ≤ s.cfg.bufCap)
    (hr : memReadMany s 0 n.toNat = .error f) : execTxStart n s = .fault f := by
  rw [execTxStart, if_neg (by simp [he, hs]), if_neg (by omega), hr]

theorem execTxStart_of_read {bs : List Byte} (h1 : 1 ≤ n.toNat) (hc : n.toNat ≤ s.cfg.bufCap)
    (hr : memReadMany s 0 n.toNat = .ok bs) : execTxStart n s = returnOk (s.startTx n) 0 := by
  rw [execTxStart, if_neg (by simp [he, hs]), if_neg (by omega), hr]

end

/-- Everything TX_START writes and puts out, as one record update. -/
theorem State.startTx_eq (s : State) (n : BitVec 16) :
    s.startTx n = { s with
      txSize := n, head := 0, rxState := .waitBreak, flags := s.flags.startTx
      irqEn := 0, line := ⟨false, true⟩, timerMode := .brk
      outputs := s.outputs ++ [.irqClear 0xFF, .irqMask 0, .setRts .transmit, .txFifoReset,
        .setTxInvert true, .timerArm s.breakLen] } := by
  simp [State.startTx, State.setRx, State.setFlags, State.emit, State.setIrq, State.setRts,
    State.setInvert, State.armTimer]

/-- Settles O41: the two argument checks, then the read of the packet, which faults on the first
unwritten cell or lets the BREAK start. -/
theorem txStartChecksThenStartsTheBreak : Obligations.TxStartChecksThenStartsTheBreak := by
  refine fun s n => ⟨execTxStart_of_badState n, fun he hs => ⟨execTxStart_of_badSize he hs,
    fun h1 hc => ⟨fun a ha hn hw => ?_, fun hw => ?_⟩⟩⟩
  · exact execTxStart_of_fault he hs h1 hc (memReadMany_of_first_unwritten ha hc hn hw)
  · obtain ⟨bs, hr⟩ := memReadMany_of_isSome (s := s) (a := 0) (k := n.toNat) (by omega)
      fun j hj => hw _ (by omega)
    refine (execTxStart_of_read he hs h1 hc hr).trans ?_
    rw [State.startTx_eq]
    rfl

/-! ### Pushing bytes of the packet being sent (42_transmit.md R99)

While the block drives the bus HEAD counts pushed bytes of a packet that is all written, so a push of
bytes that are left finds them and takes HEAD no further than TX_SIZE. -/

/-- `TX_SIZE - HEAD` as a difference of counts. -/
theorem State.txLeft_eq {s : State} (h : 0 ≤ s.head) : s.txLeft = s.txSize.toNat - s.headNat := by
  unfold State.txLeft State.headNat
  omega

/-- A TX line is enabled only while the block drives the bus. -/
theorem Inv.driving_of_txLine {s : State} (hi : Inv s)
    (h : s.lineOn .txData = true ∨ s.lineOn .txDone = true) :
    s.flags.sending = true ∧ s.line.rtsRx = false := by
  have hlines : s.irqEn.extractLsb' 6 2 ≠ 0 := fun hm => by
    obtain ⟨hd, hn⟩ := State.lineOn_tx_of_masked hm
    simp [hd, hn] at h
  obtain ⟨hs, hr, -⟩ := hi.txLines hlines
  exact ⟨hs, hr⟩

/-- A push of bytes that are left, after the flags `f` are written. -/
theorem Inv.push_ok {s : State} (hi : Inv s) (hd : s.flags.sending = true ∧ s.line.rtsRx = false)
    (f : Flags) {k : Nat} (hk : k ≤ s.txSize.toNat - s.headNat) :
    ∃ bs, bs.length = k ∧ BytesAt s s.headNat bs ∧ push (s.setFlags f) k = .ok { s with
      flags := f, head := s.head + bs.length, outputs := s.outputs ++ [.txFifoWrite bs] } := by
  obtain ⟨-, h0, hle, -, hcap, hw⟩ := hi.sendingPacket hd
  have hn := State.headNat_cast h0
  obtain ⟨⟨-, -, hmax⟩, -⟩ := hi.cfgValid
  have hk' : s.headNat + k ≤ s.txSize.toNat := by omega
  have hhead : s.toHead (s.head + k) = s.head + k := State.toHead_add hi.cfgValid h0 (by omega)
  obtain ⟨bs, rfl, hbs, hp⟩ := push_of_written (s := s.setFlags f) (k := k) h0 (hk'.trans hcap)
    fun a ha => hw a (ha.trans_le hk')
  refine ⟨bs, rfl, hbs, ?_⟩
  rw [hp, ← hhead]
  rfl

/-! ### TIMER_ALARM (42_transmit.md R102) -/

theorem execTimerAlarm_of_off {s : State} (h : s.timerMode = .off) : execTimerAlarm s = .next s := by
  simp [execTimerAlarm, h]

/-- The alarm of the BREAK. -/
theorem execTimerAlarm_of_brk {s : State} (h : s.timerMode = .brk) :
    execTimerAlarm s = .next { s with
      line := { s.line with txInvert := false }
      flags := { s.flags with inBreak := false, inMab := true }
      timerMode := .mab
      outputs := s.outputs ++ [.setTxInvert false, .timerArm s.mabLen] } := by
  simp [execTimerAlarm, h, State.endBreak, State.setInvert, State.setFlags, State.armTimer, State.emit,
    Flags.setBreakMab]

/-- The alarm of the MAB, after the first bytes are pushed. -/
theorem execTimerAlarm_of_mab {s t : State} (h : s.timerMode = .mab)
    (hp : push (s.setFlags { s.flags with inMab := false }) (min s.cfg.txFifoCap s.txLeft) = .ok t) :
    execTimerAlarm s = .next { t with
      timerMode := .off
      irqEn := t.irqEn ||| 0xC0
      outputs := t.outputs ++ [.timerPause, .irqClear 0xC0, .irqMask (t.irqEn ||| 0xC0)] } := by
  simp [execTimerAlarm, h, hp, State.endMab, State.stopTimer, State.setIrq, State.emit, txAll]

/-- The response timeout with no reply awaited. -/
theorem execTimerAlarm_of_resp {s : State} (h : s.timerMode = .resp) (ha : s.awaiting = false) :
    execTimerAlarm s = .next s.stopTimer := by
  simp [execTimerAlarm, h, ha]

/-- The response timeout of an awaited transaction. -/
theorem execTimerAlarm_of_awaiting {s : State} (h : s.timerMode = .resp) (ha : s.awaiting = true) :
    execTimerAlarm s = .next { s with
      timerMode := .off
      pktSize := 0, pktKind := .none, pktErr := .timeout
      flags := s.flags.endTx.setHasData false
      head := -1, rxState := .waitBreak, taskWaiting := false
      outputs := s.outputs ++ [.timerPause] ++
        (if s.taskWaiting = true then [.wake false 0 .none .timeout] else []) } := by
  simp only [execTimerAlarm, h, ha, if_true, State.responseTimedOut, State.wakeIf_eq]
  rfl

/-- Settles O42, by the timer's mode; in MAB mode the block drives the bus, so the bytes are there. -/
theorem timerAlarmEndsWhatItTimed : Obligations.TimerAlarmEndsWhatItTimed := by
  refine fun s => ⟨execTimerAlarm_of_off, execTimerAlarm_of_brk, fun hm hi => ?_,
    execTimerAlarm_of_resp, execTimerAlarm_of_awaiting⟩
  obtain ⟨hs, hr, -⟩ := hi.item2 (.inr hm)
  obtain ⟨-, h0, -⟩ := hi.sendingPacket ⟨hs, hr⟩
  obtain ⟨bs, hl, hbs, hpush⟩ := hi.push_ok ⟨hs, hr⟩ { s.flags with inMab := false }
    (Nat.min_le_right s.cfg.txFifoCap _)
  refine ⟨bs, hl, hbs, ?_⟩
  rw [← State.txLeft_eq h0] at hpush
  refine (execTimerAlarm_of_mab hm hpush).trans ?_
  simp

/-! ### TX_DATA (42_transmit.md R103) -/

theorem execTxData_of_masked {s : State} (space : BitVec 16) (h : s.lineOn .txData = false) :
    execTxData space s = .next s := by
  simp [execTxData, h]

theorem execTxData_of_none {s : State} {space : BitVec 16} (h : s.lineOn .txData = true)
    (hk : min space.toNat s.txLeft = 0) : execTxData space s = .next s.maskTxDataIfDone := by
  simp [execTxData, h, hk]

theorem execTxData_of_push {s t : State} {space : BitVec 16} (h : s.lineOn .txData = true)
    (hk : min space.toNat s.txLeft ≠ 0) (hp : push s (min space.toNat s.txLeft) = .ok t) :
    execTxData space s = .next t.maskTxDataIfDone := by
  rw [execTxData, if_pos h, if_pos (Nat.pos_of_ne_zero hk), hp]

theorem State.maskTxDataIfDone_eq (s : State) :
    s.maskTxDataIfDone = { s with
      irqEn := if s.head = s.txSize.toNat then s.irqEn &&& 0xBF else s.irqEn
      outputs := s.outputs ++
        (if s.head = s.txSize.toNat then [.irqMask (s.irqEn &&& 0xBF)] else []) } := by
  unfold State.maskTxDataIfDone
  split
  · rfl
  · simp

/-- Settles O43: with no room or nothing left nothing is pushed, else the bytes the push finds. -/
theorem txDataPushesUntilNoneAreLeft : Obligations.TxDataPushesUntilNoneAreLeft := by
  refine fun s space => ⟨execTxData_of_masked space, fun hi hon => ?_⟩
  have hd := hi.driving_of_txLine (.inl hon)
  obtain ⟨-, h0, -⟩ := hi.sendingPacket hd
  have hn := State.headNat_cast h0
  obtain ⟨bs, hl, hbs, hpush⟩ := hi.push_ok hd s.flags (Nat.min_le_right space.toNat _)
  have hdone : s.head + bs.length = s.txSize.toNat ↔ s.headNat + bs.length = s.txSize.toNat := by
    omega
  refine ⟨bs, hl, hbs, ?_⟩
  rw [← State.txLeft_eq h0] at hl hpush
  by_cases hk : min space.toNat s.txLeft = 0
  · obtain rfl : bs = [] := List.length_eq_zero_iff.mp (hl.trans hk)
    refine (execTxData_of_none hon hk).trans ?_
    rw [State.maskTxDataIfDone_eq]
    simp only [List.length_nil, Nat.cast_zero, Int.add_zero, Nat.add_zero] at hdone
    simp [hdone]
  · have hne : bs ≠ [] := fun hnil => hk (by rw [← hl, hnil, List.length_nil])
    refine (execTxData_of_push hon hk hpush).trans ?_
    rw [State.maskTxDataIfDone_eq]
    simp [hdone, hne]

/-! ### Which packets expect a reply (42_transmit.md R100) -/

theorem be16_toNat (hi lo : Byte) : (be16 hi lo).toNat = hi.toNat * 256 + lo.toNat := by
  rw [be16, BitVec.toNat_append, ← Nat.shiftLeft_add_eq_or_of_lt lo.isLt, Nat.shiftLeft_eq]

/-- A run of cells inside bytes the buffer is known to hold. -/
theorem memReadMany_of_bytesAt_range {s : State} {bs : List Byte} {a k : Nat} (h : BytesAt s 0 bs)
    (hk : a + k ≤ bs.length) (hc : bs.length ≤ s.cfg.bufCap) :
    memReadMany s a k = .ok ((List.range' a k).map (bs.getD · 0)) := by
  refine memReadMany_ok_iff.mpr ⟨by simp, fun j hj => ?_⟩
  simp only [List.length_map, List.length_range'] at hj
  rw [memRead_of_bytesAt h (by omega) (by omega)]
  simp

theorem expectsResponse_of_short {s : State} (h : s.txSize.toNat < 24) :
    expectsResponse s = .ok (false, false) := if_pos h

/-- The reply a packet of at least 24 known bytes expects. -/
theorem expectsResponse_of_bytesAt {s : State} {bs : List Byte} (h : BytesAt s 0 bs)
    (hl : bs.length = s.txSize.toNat) (hc : bs.length ≤ s.cfg.bufCap) (h24 : 24 ≤ bs.length) :
    expectsResponse s = .ok
      (if bs.getD 0 0 ≠ rdmSc ∨ bs.getD 1 0 ≠ rdmSubSc then (false, false)
       else expectsOf s.cfg [bs.getD 5 0, bs.getD 6 0, bs.getD 7 0, bs.getD 8 0]
         [bs.getD 20 0, bs.getD 21 0, bs.getD 22 0]) := by
  have hstart := memReadMany_of_bytesAt_range (a := 0) (k := 2) h (by omega) hc
  have hdevice := memReadMany_of_bytesAt_range (a := 5) (k := 4) h (by omega) hc
  have hclass := memReadMany_of_bytesAt_range (a := 20) (k := 3) h (by omega) hc
  rw [expectsResponse, if_neg (by omega), hstart, hdevice, hclass]
  simp [List.range'_succ, apply_ite Except.ok, imp_iff_not_or]

/-- Settles O45, by whether the packet has the 24 bytes an RDM header needs. -/
theorem repliesAreExpectedByCommandAndDestination :
    Obligations.RepliesAreExpectedByCommandAndDestination := by
  intro s bs h hl hc
  by_cases h24 : bs.length < 24
  · rw [expectsResponse_of_short (by omega), if_pos (.inl h24)]
  · rw [expectsResponse_of_bytesAt h hl hc (by omega)]
    simp [h24, expectsOf, ← be16_toNat, BitVec.toNat_inj, rdmSc, rdmSubSc]

/-! ### TX_DONE (42_transmit.md R104) -/

theorem execTxDone_of_masked {s : State} (h : s.lineOn .txDone = false) :
    execTxDone s = .next s := by
  simp [execTxDone, h]

theorem execTxDone_of_left {s : State} (h : s.lineOn .txDone = true)
    (hl : s.head < s.txSize.toNat) : execTxDone s = .next s := by
  simp [execTxDone, h, hl]

/-- The turnaround, with the transmit lines masked and the time of the last slot recorded. -/
theorem execTxDone_of_reply {s : State} {resp dub : Bool} (h : s.lineOn .txDone = true)
    (hl : (s.txSize.toNat : Int) ≤ s.head) (he : expectsResponse s = .ok (resp, dub))
    (hr : resp = true ∧ s.flags.enabled = true) :
    execTxDone s = .next ((s.stampSlot.setIrq (s.irqEn &&& ~~~ txAll)).turnaround dub) := by
  rw [execTxDone, if_pos h, if_neg (by omega), he]
  simp [hr]

theorem execTxDone_of_no_reply {s : State} {resp dub : Bool} (h : s.lineOn .txDone = true)
    (hl : (s.txSize.toNat : Int) ≤ s.head) (he : expectsResponse s = .ok (resp, dub))
    (hr : ¬ (resp = true ∧ s.flags.enabled = true)) :
    execTxDone s = .next (s.stampSlot.setIrq (s.irqEn &&& ~~~ txAll)).transmissionOver := by
  rw [execTxDone, if_pos h, if_neg (by omega), he]
  simp [hr]

theorem State.turnaround_eq (s : State) (dub : Bool) :
    s.turnaround dub = { s with
      irqEn := s.irqEn ||| 0x3F
      line := { s.line with rtsRx := true }
      head := if dub = true then 0 else -1
      rxState := if dub = true then .receiving else .waitBreak
      flags := s.flags.setHasData false
      timerMode := .resp
      outputs := s.outputs ++ [.setRts .receive, .rxFifoReset, .irqClear 0x3F,
        .irqMask (s.irqEn ||| 0x3F), .timerArm s.cfg.respTimeout] } := by
  cases dub <;> simp [State.turnaround, State.turnToReceive, State.setRts, State.emit, State.setIrq,
    State.setRx, State.setFlags, State.armTimer, rxAll]

theorem State.transmissionOver_eq (s : State) :
    s.transmissionOver = { s with
      flags := s.flags.endTx
      head := -1, rxState := .waitBreak, taskWaiting := false
      outputs := s.outputs ++
        (if s.taskWaiting = true then [.wake false s.txSize .none .ok] else []) } :=
  State.wakeIf_eq _ _ _ _ _

/-- Settles O44: the packet is all written while it is sent, so the reply check answers. -/
theorem txDoneTurnsRoundOrEnds : Obligations.TxDoneTurnsRoundOrEnds := by
  refine fun s => ⟨execTxDone_of_masked, execTxDone_of_left, fun hon hl hi => ?_⟩
  obtain ⟨-, -, -, -, hcap, hw⟩ := hi.sendingPacket (hi.driving_of_txLine (.inr hon))
  obtain ⟨resp, dub, he⟩ := expectsResponse_of_written hcap hw
  refine ⟨resp, dub, he, fun hr => ?_, fun hr => ?_⟩
  · refine (execTxDone_of_reply hon hl he hr).trans ?_
    rw [State.turnaround_eq]
    simp [txAll, State.setIrq, State.emit, State.stampSlot, Flags.setHasData]
  · refine (execTxDone_of_no_reply hon hl he hr).trans ?_
    rw [State.transmissionOver_eq]
    rfl

end Sys2Proof.Machine
end

section
/-! PROOFS. The timing family: the three setters and their windows (43_timing_windows.md R109 to
R112). -/

namespace Sys2Proof.Machine

/-! ### One equation per setter, the answered value as a number -/

theorem execSetBreakLen_eq (v : BitVec 32) (s : State) :
    execSetBreakLen v s = .next { s with
      breakLen := clamp v s.cfg.breakMin s.cfg.breakMax
      response := some ⟨.ok, BitVec.ofNat 64 (clamp v s.cfg.breakMin s.cfg.breakMax).toNat⟩ } := by
  rw [BitVec.ofNat_toNat]
  rfl

theorem execSetMabLen_eq (v : BitVec 32) (s : State) :
    execSetMabLen v s = .next { s with
      mabLen := clamp v s.cfg.mabMin s.cfg.mabMax
      response := some ⟨.ok, BitVec.ofNat 64 (clamp v s.cfg.mabMin s.cfg.mabMax).toNat⟩ } := by
  rw [BitVec.ofNat_toNat]
  rfl

theorem execSetBaud_eq (v : BitVec 32) (s : State) :
    execSetBaud v s = .next { s with
      baud := clamp v s.cfg.baudMin s.cfg.baudMax
      outputs := s.outputs ++ [.setBaud (clamp v s.cfg.baudMin s.cfg.baudMax)]
      response := some ⟨.ok, BitVec.ofNat 64 (clamp v s.cfg.baudMin s.cfg.baudMax).toNat⟩ } := by
  rw [BitVec.ofNat_toNat]
  rfl

/-- Settles O51: no setter reads more of the state than its window, and the clamp to a window that is
not empty is the nearest value in it. -/
theorem settersClampAndReturnTheAppliedValue :
    Obligations.SettersClampAndReturnTheAppliedValue := by
  intro s v hbreak hmab hbaud
  exact ⟨_, _, _, clamp_toNat hbreak, clamp_toNat hmab, clamp_toNat hbaud,
    execSetBreakLen_eq v s, execSetMabLen_eq v s, execSetBaud_eq v s⟩

end Sys2Proof.Machine
end

section
/-! PROOFS. The classifier family: an RDM packet completes at its message length plus 2
(44_classifier.md R115, R117, R121). -/

namespace Sys2Proof.Machine

/-! ### The checksum as a number (44_classifier.md R121) -/

theorem byteSum_eq_sum (bs : List Byte) : byteSum bs = (bs.map (·.toNat)).sum := by
  induction bs with
  | nil => rfl
  | cons b bs ih => simp [byteSum, ih]

theorem sum16_eq_be16_iff {bs : List Byte} {hi lo : Byte} :
    sum16 bs = be16 hi lo ↔
      (bs.map (·.toNat)).sum % 2 ^ 16 = hi.toNat * 256 + lo.toNat := by
  rw [← BitVec.toNat_inj, be16_toNat, sum16, BitVec.toNat_ofNat, byteSum_eq_sum]

/-! ### What a packet that begins with the RDM start code is classified as -/

/-- The first `k` of the bytes the buffer is known to hold. -/
theorem memReadMany_take_of_bytesAt {s : State} {bs : List Byte} {k : Nat} (h : BytesAt s 0 bs)
    (hk : k ≤ bs.length) (hc : bs.length ≤ s.cfg.bufCap) :
    memReadMany s 0 k = .ok (bs.take k) := by
  refine memReadMany_ok_iff.mpr ⟨List.length_take_of_le hk, fun j hj => memRead_ok_iff.mpr ?_⟩
  simp only [List.length_take] at hj
  rw [List.getElem_take]
  exact ⟨by omega, h j (by omega)⟩

theorem classify_of_lone_sc {s : State} (h : s.head = 1) (h0 : memRead s 0 = .ok rdmSc) :
    classify s = .ok .pending := by
  simp [classify, h0, State.headNat, h]

theorem classify_of_rdm_pair {s : State} (h : 2 ≤ s.head) (h0 : memRead s 0 = .ok rdmSc)
    (h1 : memRead s 1 = .ok rdmSubSc) : classify s = classifyRdm s s.headNat := by
  have h2 : ¬ s.headNat < 2 := by unfold State.headNat; omega
  simp [classify, h0, h1, h2]

/-! ### `ClassifyRdm`, one equation per outcome (44_classifier.md R117) -/

theorem classifyRdm_of_no_length {s : State} {h : Nat} (hh : h < 3) :
    classifyRdm s h = .ok .pending := if_pos hh

section
variable {s : State} {h : Nat} {len : Byte} (hh : 3 ≤ h) (hlen : memRead s 2 = .ok len)
include hh hlen

theorem classifyRdm_of_length_below_header (h24 : len.toNat < 24) :
    classifyRdm s h = .ok (.complete .rdm .packetSize) := by
  rw [classifyRdm, if_neg (by omega), hlen]
  exact if_pos h24

theorem classifyRdm_of_unfinished (h24 : 24 ≤ len.toNat) (hl : h < len.toNat + 2) :
    classifyRdm s h = .ok .pending := by
  rw [classifyRdm, if_neg (by omega), hlen]
  exact (if_neg (Nat.not_lt.mpr h24)).trans (if_pos hl)

theorem classifyRdm_of_whole {body : List Byte} {hi lo : Byte} (h24 : 24 ≤ len.toNat)
    (hl : len.toNat + 2 ≤ h) (hbody : memReadMany s 0 len.toNat = .ok body)
    (hhi : memRead s len.toNat = .ok hi) (hlo : memRead s (len.toNat + 1) = .ok lo) :
    classifyRdm s h = .ok (checked .rdm (sum16 body) (be16 hi lo)) := by
  rw [classifyRdm, if_neg (by omega), hlen]
  simp only [rdmHeaderLen, if_neg (Nat.not_lt.mpr h24), if_neg (Nat.not_lt.mpr hl), hbody, hhi, hlo]

end

/-- Settles O25, by the number of bytes counted: the start code alone, the pair of start codes, the
message length, and the whole packet. A message length is at most 255, so no cell read is past the
buffer's end. -/
theorem rdmPacketCompletesAtItsLength : Obligations.RdmPacketCompletesAtItsLength := by
  intro s h bs hcap hhead hlen hbs h1 hsc
  have hread : ∀ a, a < h → a < s.cfg.bufCap → memRead s a = .ok (bs.getD a 0) :=
    fun a ha hc => memRead_of_bytesAt hbs (by omega) hc
  have h0 : memRead s 0 = .ok rdmSc := (hread 0 h1 (by omega)).trans (congrArg _ hsc)
  refine ⟨fun h1 => classify_of_lone_sc (by omega) h0, fun h2 hsub => ?_⟩
  have hpair : classify s = classifyRdm s h := by
    rw [classify_of_rdm_pair (by omega) h0 ((hread 1 h2 (by omega)).trans (congrArg _ hsub)),
      State.headNat, hhead, Int.toNat_natCast]
  rw [hpair]
  have hL := (bs.getD 2 0).isLt
  refine ⟨classifyRdm_of_no_length, fun h3 => ?_, fun h3 h24 => ⟨?_, fun hl => ?_⟩⟩
  · exact classifyRdm_of_length_below_header h3 (hread 2 h3 (by omega))
  · exact classifyRdm_of_unfinished h3 (hread 2 h3 (by omega)) h24
  · rw [classifyRdm_of_whole h3 (hread 2 h3 (by omega)) h24 hl
      (memReadMany_take_of_bytesAt hbs (by omega) (by omega)) (hread _ (by omega) (by omega))
      (hread _ (by omega) (by omega)), checked]
    simp only [sum16_eq_be16_iff]

end Sys2Proof.Machine
end

section
/-! PROOFS. The host family: the port's switch (45_host.md R126, R127), the frame buffer (R128, R129),
RX_ARM (R130), the wait commands (R131, R132), the packet record and the transaction number (R133,
R134), and READ_REG (R135). -/

namespace Sys2Proof.Machine

/-! ### BUF_WRITE and BUF_READ (45_host.md R128, R129) -/

/-- An address past the buffer's end is checked before the state (60_exceptions.md R140). -/
theorem execBufWrite_of_badAddr {s : State} {addr : BitVec 16} (data : Byte)
    (h : s.cfg.bufCap ≤ addr.toNat) : execBufWrite addr data s = raise s .invalidArg := if_pos h

section
variable {s : State} {addr : BitVec 16} (ha : addr.toNat < s.cfg.bufCap)
include ha

theorem execBufWrite_of_sending (data : Byte) (h : s.flags.sending = true) :
    execBufWrite addr data s = raise s .invalidState :=
  (if_neg (Nat.not_le.mpr ha)).trans (if_pos h)

theorem execBufWrite_of_not_sending (data : Byte) (h : s.flags.sending = false) :
    execBufWrite addr data s = returnOk (s.store addr.toNat data) 0 :=
  (if_neg (Nat.not_le.mpr ha)).trans (if_neg (by simp [h]))

theorem execBufRead_of_unwritten (h : cellAt s.buf addr.toNat = none) :
    execBufRead addr s = .fault (.unwritten addr.toNat) := by
  have hr : memRead s addr.toNat = .error (.unwritten addr.toNat) := by
    rw [memRead, if_pos ha, h]
  rw [execBufRead, if_neg (Nat.not_le.mpr ha), hr]

theorem execBufRead_of_written {b : Byte} (h : cellAt s.buf addr.toNat = some b) :
    execBufRead addr s = returnOk s (BitVec.ofNat 64 b.toNat) := by
  rw [execBufRead, if_neg (Nat.not_le.mpr ha), memRead_ok_iff.mpr ⟨ha, h⟩, BitVec.ofNat_toNat]

end

theorem execBufRead_of_badAddr {s : State} {addr : BitVec 16} (h : s.cfg.bufCap ≤ addr.toNat) :
    execBufRead addr s = raise s .invalidArg := if_pos h

/-- Settles O54: what the laws of `putCell` say of the one store BUF_WRITE makes. -/
theorem bufWriteStoresOneByte : Obligations.BufWriteStoresOneByte := fun s _ data =>
  ⟨execBufWrite_of_badAddr data, fun ha => execBufWrite_of_sending ha data, fun ha hs =>
    ⟨_, execBufWrite_of_not_sending ha data hs, cellAt_putCell_same s.buf _ data,
      fun _ hne => cellAt_putCell_ne s.buf data hne, Memory.wf_putCell data ha, rfl⟩⟩

/-- Settles O55. -/
theorem bufReadReturnsTheByteOrFaults : Obligations.BufReadReturnsTheByteOrFaults := fun _ _ =>
  ⟨execBufRead_of_badAddr, fun ha =>
    ⟨execBufRead_of_unwritten ha, fun _ => execBufRead_of_written ha⟩⟩

/-! ### ENABLE and DISABLE (45_host.md R126, R127) -/

theorem execEnable_of_enabled {s : State} (h : s.flags.enabled = true) :
    execEnable s = returnOk s 0 := if_pos h

theorem execEnable_of_disabled {s : State} (h : s.flags.enabled = false) :
    execEnable s = returnOk s.enablePort 0 := by
  simp [execEnable, h]

theorem execDisable_of_disabled {s : State} (h : s.flags.enabled = false) :
    execDisable s = returnOk s 0 := by
  simp [execDisable, h]

theorem execDisable_of_enabled {s : State} (h : s.flags.enabled = true) :
    execDisable s = .next { s with
      flags := { s.flags with enabled := false }
      irqEn := s.irqEn &&& 0xC0
      taskWaiting := false
      outputs := s.outputs ++ [.irqMask (s.irqEn &&& 0xC0)] ++
        (if s.taskWaiting = true then [.wake false 0 .none .ok] else [])
      response := some ⟨.ok, 0⟩ } := by
  rw [execDisable, if_pos h]
  simp only [State.wakeIf_eq]
  rfl

theorem State.driving_iff (s : State) :
    s.driving = true ↔ s.flags.sending = true ∧ s.line.rtsRx = false := by
  simp [State.driving]

/-- Everything ENABLE writes and puts out on a disabled port, as one record update. -/
theorem State.enablePort_eq (s : State) :
    s.enablePort = { s with
      flags := { s.flags with enabled := true, hasData := false }
      head := if s.driving = true then s.head else -1
      rxState := if s.driving = true then s.rxState else .waitBreak
      irqEn := if s.line.rtsRx = true then s.irqEn ||| 0x3F else s.irqEn
      outputs := s.outputs ++
        (if s.line.rtsRx = true then [.irqClear 0x3F, .irqMask (s.irqEn ||| 0x3F)] else []) } := by
  cases hd : s.driving <;> cases hl : s.line.rtsRx <;>
    simp [State.enablePort, hd, hl, State.setFlags, Flags.setHasData, State.setRx, State.setIrq,
      State.emit, rxAll]

/-- Settles O52: `State.enablePort_eq` with "drives the bus" spelled out. -/
theorem enableRestoresReception : Obligations.EnableRestoresReception := by
  refine fun s => ⟨execEnable_of_enabled, fun h => (execEnable_of_disabled h).trans ?_⟩
  rw [State.enablePort_eq]
  simp only [← State.driving_iff]
  rfl

/-- Settles O53. -/
theorem disableMasksReceptionOnly : Obligations.DisableMasksReceptionOnly := fun _ =>
  ⟨execDisable_of_disabled, execDisable_of_enabled⟩

/-! ### RX_ARM (45_host.md R130) -/

theorem execRxArm_of_badState {s : State}
    (h : s.flags.enabled = false ∨ s.flags.sending = true) :
    execRxArm s = raise s .invalidState := if_pos h

theorem State.turnToReceive_eq (s : State) :
    s.turnToReceive = { s with
      line := { s.line with rtsRx := true }
      irqEn := s.irqEn ||| 0x3F
      outputs := s.outputs ++ [.setRts .receive, .rxFifoReset, .irqClear 0x3F,
        .irqMask (s.irqEn ||| 0x3F)] } := by
  simp [State.turnToReceive, State.setRts, State.emit, State.setIrq, rxAll]

section
variable {s : State} (he : s.flags.enabled = true) (hs : s.flags.sending = false)
include he hs

theorem execRxArm_of_receiving (h : s.line.rtsRx = true) : execRxArm s = returnOk s 0 := by
  simp [execRxArm, he, hs, h]

theorem execRxArm_of_transmitting (h : s.line.rtsRx = false) :
    execRxArm s =
      returnOk ((s.turnToReceive.setRx (-1) .waitBreak).setFlags (s.flags.setHasData false)) 0 := by
  simp [execRxArm, he, hs, h]

end

/-- Settles O56. -/
theorem rxArmTurnsTheTransceiver : Obligations.RxArmTurnsTheTransceiver := by
  refine fun s => ⟨execRxArm_of_badState, fun he hs => ⟨execRxArm_of_receiving he hs,
    fun hl => (execRxArm_of_transmitting he hs hl).trans ?_⟩⟩
  rw [State.turnToReceive_eq]
  rfl

/-! ### WAIT and WAIT_CANCEL (45_host.md R131, R132) -/

theorem execWait_rx_of_hasData {s : State} (h : s.flags.hasData = true) :
    execWait .rx s = .next { s with
      taskWaiting := false
      outputs := s.outputs ++ [.wake true s.pktSize s.pktKind s.pktErr]
      response := some ⟨.ok, 0⟩ } := if_pos h

theorem execWait_rx_of_not_hasData {s : State} (h : s.flags.hasData = false) :
    execWait .rx s = returnOk (s.setWaiting true) 0 := by
  simp [execWait, h]

theorem execWait_idle_of_idle {s : State} (h : s.flags.idle = true) :
    execWait .idle s = .next { s with
      taskWaiting := false
      outputs := s.outputs ++ [.wake false 0 .none .ok]
      response := some ⟨.ok, 0⟩ } := if_pos h

theorem execWait_idle_of_not_idle {s : State} (h : s.flags.idle = false) :
    execWait .idle s = returnOk (s.setWaiting true) 0 := by
  simp [execWait, h]

/-- Settles O57: a condition that holds finds the token just set, so the wake happens at once. -/
theorem waitSetsTheTokenOrWakesAtOnce : Obligations.WaitSetsTheTokenOrWakesAtOnce := fun _ =>
  ⟨execWait_rx_of_hasData, execWait_rx_of_not_hasData, execWait_idle_of_idle,
    execWait_idle_of_not_idle, rfl⟩

/-! ### Bit patterns as numbers -/

/-- The upper part of a pattern counts in units of the lower part's range. -/
theorem toNat_append_eq_add {m n : Nat} (hi : BitVec m) (lo : BitVec n) :
    (hi ++ lo).toNat = hi.toNat * 2 ^ n + lo.toNat := by
  rw [BitVec.toNat_append, ← Nat.shiftLeft_add_eq_or_of_lt lo.isLt, Nat.shiftLeft_eq]

theorem Flags.bits_toNat (f : Flags) :
    f.bits.toNat = f.enabled.toNat + 2 * f.idle.toNat + 4 * f.sending.toNat +
      8 * f.sentLast.toNat + 16 * f.inBreak.toNat + 32 * f.inMab.toNat + 64 * f.hasData.toNat := by
  simp only [Flags.bits, toNat_append_eq_add, BitVec.toNat_ofBool, BitVec.toNat_ofNat]
  omega

theorem Line.bits_toNat (l : Line) : l.bits.toNat = l.rtsRx.toNat + 2 * l.txInvert.toNat := by
  simp only [Line.bits, toNat_append_eq_add, BitVec.toNat_ofBool]
  omega

theorem RxState.code_toNat_of_mem : ∀ x ∈ rxStateNumbers, x.1.code.toNat = x.2 := by decide

theorem TimerMode.code_toNat_of_mem : ∀ x ∈ timerModeNumbers, x.1.code.toNat = x.2 := by decide

theorem PktKind.code_toNat_of_mem : ∀ x ∈ pktKindNumbers, x.1.code.toNat = x.2 := by decide

theorem ErrCode.code_toNat_of_mem : ∀ x ∈ errCodeNumbers, x.1.code.toNat = x.2 := by decide

/-! ### RX_CONSUME and SET_TN (45_host.md R133, R134) -/

theorem State.packetRecord_toNat (s : State) :
    s.packetRecord.toNat = s.flags.hasData.toNat * 2 ^ 32 + s.pktErr.code.toNat * 2 ^ 24 +
      s.pktKind.code.toNat * 2 ^ 16 + s.pktSize.toNat := by
  simp only [State.packetRecord, toNat_append_eq_add, BitVec.toNat_ofBool, BitVec.toNat_ofNat]
  omega

/-- Settles O58: the record's number, its two codes read from the tables. -/
theorem consumeReturnsTheRecordAndSetTnStores :
    Obligations.ConsumeReturnsTheRecordAndSetTnStores := by
  refine fun s => ⟨fun x hx y hy hk he => ⟨s.packetRecord, ?_, rfl⟩, fun _ => rfl⟩
  rw [State.packetRecord_toNat, hk, he, PktKind.code_toNat_of_mem x hx,
    ErrCode.code_toNat_of_mem y hy]

/-! ### READ_REG (45_host.md R135) -/

section
variable {s : State} {r : Byte} {n : Nat}

/-- READ_REG of a number that names a register answers the number of that register's value. -/
theorem exec_readReg_of_named (reg : Reg) (hr : regOfNumber r = some reg)
    (hn : s.regValue reg = BitVec.ofNat 64 n) :
    exec (.readReg r) s = .next { s with response := some ⟨.ok, BitVec.ofNat 64 n⟩ } := by
  change execReadReg r s = _
  rw [execReadReg, hr, ← hn]
  rfl

theorem exec_readReg_of_toNat (reg : Reg) (hr : regOfNumber r = some reg)
    (hn : (s.regValue reg).toNat = n) :
    exec (.readReg r) s = .next { s with response := some ⟨.ok, BitVec.ofNat 64 n⟩ } :=
  exec_readReg_of_named reg hr (by rw [← hn, BitVec.ofNat_toNat, BitVec.setWidth_eq])

theorem regOfNumber_of_reserved (h : 0x16 ≤ r.toNat) : regOfNumber r = none := by
  unfold regOfNumber
  split
  case h_23 => rfl
  all_goals omega

theorem execReadReg_of_reserved (h : 0x16 ≤ r.toNat) : execReadReg r s = raise s .invalidArg := by
  rw [execReadReg, regOfNumber_of_reserved h]

end

/-- HEAD's pattern is the one register whose width, HEAD_BITS, is a parameter (10_state.md R25). -/
theorem State.headPattern_eq (s : State) :
    s.headPattern = BitVec.ofNat 64 (s.head % 2 ^ s.cfg.headBits).toNat := by
  have h0 : 0 ≤ s.head % 2 ^ s.cfg.headBits := Int.emod_nonneg _ (by positivity)
  rw [State.headPattern, ← BitVec.ofInt_natCast, Int.toNat_of_nonneg h0]

/-- Settles O59: a register that holds a word reads as that word, FLAGS and LINE as the sum of their
bits, and a named value as its table's number. -/
theorem readRegReturnsEachRegister : Obligations.ReadRegReturnsEachRegister := by
  refine fun s => ⟨?_, fun x hx h => ?_, fun x hx h => ?_, fun x hx h => ?_, fun x hx h => ?_,
    fun h => ?_, fun r => execReadReg_of_reserved⟩
  · simp only [List.forall_mem_cons, List.not_mem_nil, false_imp_iff, implies_true, and_true]
    exact ⟨exec_readReg_of_toNat .flags rfl s.flags.bits_toNat,
      exec_readReg_of_named .head rfl s.headPattern_eq,
      exec_readReg_of_toNat .txSize rfl rfl,
      exec_readReg_of_toNat .rxSize rfl rfl,
      exec_readReg_of_toNat .breakLen rfl rfl,
      exec_readReg_of_toNat .mabLen rfl rfl,
      exec_readReg_of_toNat .baud rfl rfl,
      exec_readReg_of_toNat .lastSlotTs rfl rfl,
      exec_readReg_of_toNat .tn rfl rfl,
      exec_readReg_of_toNat .pktSize rfl rfl,
      exec_readReg_of_toNat .irqEn rfl rfl,
      exec_readReg_of_toNat .line rfl s.line.bits_toNat,
      exec_readReg_of_toNat .taskWaiting rfl (BitVec.toNat_ofBool _),
      exec_readReg_of_toNat .snifCtrl rfl (BitVec.toNat_ofBool _),
      exec_readReg_of_toNat .snifNegTs rfl rfl,
      exec_readReg_of_toNat .snifPosTs rfl rfl,
      exec_readReg_of_toNat .snifBreakW rfl rfl⟩
  · have hcode : s.rxState.code.toNat = x.2 := h ▸ RxState.code_toNat_of_mem x hx
    exact exec_readReg_of_toNat .rxState rfl hcode
  · have hcode : s.pktKind.code.toNat = x.2 := h ▸ PktKind.code_toNat_of_mem x hx
    exact exec_readReg_of_toNat .pktKind rfl hcode
  · have hcode : s.pktErr.code.toNat = x.2 := h ▸ ErrCode.code_toNat_of_mem x hx
    exact exec_readReg_of_toNat .pktErr rfl hcode
  · have hcode : s.timerMode.code.toNat = x.2 := h ▸ TimerMode.code_toNat_of_mem x hx
    exact exec_readReg_of_toNat .timerMode rfl hcode
  · exact exec_readReg_of_toNat .snifQCount rfl (Nat.mod_eq_of_lt h)

end Sys2Proof.Machine
end

section
/-! PROOFS. What an operation can do, said once: every next state of every operation, and the steps a
reception is made of. The statements about every operation are read off these two lists. -/

namespace Sys2Proof.Machine

/-! ### The steps of a reception (40_receive.md R73, R76, R78, R79) -/

/-- One step of the receive path. -/
inductive RxStep : State → State → Prop where
  /-- A drain begins: LAST_SLOT_TS, IN_BREAK and IN_MAB. -/
  | stamped (s : State) : RxStep s (s.stampSlot.setFlags (s.flags.setBreakMab false false))
  /-- A byte is stored and counted. -/
  | stored {s : State} (b : Byte) (hr : s.rxState ≠ .waitBreak) (h0 : 0 ≤ s.head) :
      RxStep s (s.takeByte b)
  /-- The response timer is cancelled by a byte of the packet being received. -/
  | cancelled {s : State} (hr : s.rxState = .receiving) : RxStep s s.cancelResp
  /-- The packet being received is finished. -/
  | finished {s : State} (hr : s.rxState = .receiving) (k : PktKind) (e : ErrCode) :
      RxStep s (s.finish k e)
  /-- The RX FIFO is reset. -/
  | fifoReset (s : State) : RxStep s (s.emit .rxFifoReset)

/-- Any number of steps of the receive path. -/
abbrev Received : State → State → Prop := Relation.ReflTransGen RxStep

theorem rxByte_received {s t : State} {b : Byte} (h : rxByte s b = .ok t) : Received s t := by
  have receiving_takeByte : ∀ hr : s.rxState = .receiving,
      (s.takeByte b).rxState = .receiving := fun hr => by simp [hr]
  obtain ⟨-, rfl⟩ | ⟨hr, h0, rfl⟩ | ⟨hr, h0, ⟨-, rfl⟩ | ⟨k, e, -, rfl⟩⟩ := rxByte_cases h
  · exact .refl
  · exact .single (.stored b (by simp [hr]) h0)
  · exact .tail (.single (.stored b (by simp [hr]) h0)) (.cancelled (receiving_takeByte hr))
  · exact .tail (.tail (.single (.stored b (by simp [hr]) h0)) (.cancelled (receiving_takeByte hr)))
      (.finished (by simp [hr]) k e)

theorem drain_received {s t : State} {p : List Byte} (h : drain s p = .ok t) : Received s t :=
  rxBytes_induct (P := Received s) (fun _ _ _ hu hb => hu.trans (rxByte_received hb))
    (.single (.stamped s)) h

theorem drainGood_received {s t : State} {p : List Byte} (h : drainGood s p = .ok t) :
    Received s t := by
  by_cases hp : p = []
  · subst hp; rw [drainGood_nil h]
  · exact drain_received (drainGood_of_ne hp h)

theorem finishIfReceiving_received {s t : State} {e : ErrCode} (h : finishIfReceiving s e = .ok t) :
    Received s t := by
  obtain ⟨-, rfl⟩ | ⟨hr, k, -, rfl⟩ := finishIfReceiving_cases h
  · exact .refl
  · exact .single (.finished hr k e)

/-- The registers a step of the receive path can write. -/
theorem RxStep.frame {s t : State} (h : RxStep s t) : t = { s with
    flags := t.flags, rxState := t.rxState, head := t.head, lastSlotTs := t.lastSlotTs
    pktSize := t.pktSize, pktKind := t.pktKind, pktErr := t.pktErr, timerMode := t.timerMode
    taskWaiting := t.taskWaiting, buf := t.buf, outputs := t.outputs } := by
  cases h with
  | stamped => rfl
  | stored b hr h0 => rw [State.takeByte_eq]
  | cancelled hr => rw [State.cancelResp_eq]
  | finished hr k e => rw [State.finish_eq]
  | fifoReset => rfl

/-- The registers a reception can write. -/
theorem Received.frame {s t : State} (h : Received s t) : t = { s with
    flags := t.flags, rxState := t.rxState, head := t.head, lastSlotTs := t.lastSlotTs
    pktSize := t.pktSize, pktKind := t.pktKind, pktErr := t.pktErr, timerMode := t.timerMode
    taskWaiting := t.taskWaiting, buf := t.buf, outputs := t.outputs } := by
  induction h with
  | refl => rfl
  | tail _ hstep ih =>
    have hframe := hstep.frame
    rw [ih] at hframe
    exact hframe

/-! ### The next states of every operation -/

/-- The event `i` delivers the bytes `p` on a line that is enabled. -/
abbrev Delivers (s : State) (i : Instr) (p : List Byte) : Prop :=
  (i = .rxData p ∧ s.lineOn .rxData = true) ∨ (i = .rxTimeout p ∧ s.lineOn .rxTimeout = true) ∨
    (i = .rxFramingErr p ∧ s.lineOn .rxFramingErr = true)

/-- Every next state of the operation `i` in the state `s`, with the conditions it comes under. -/
inductive Effect (s : State) : Instr → State → Prop where
  /-- An event that is masked, ignored or has nothing to do. -/
  | ignored {i : Instr} (hi : i.isCommand = false) : Effect s i s
  | raised {i : Instr} (hi : i.isCommand = true) (e : ErrCode) : Effect s i (s.respond e 0)
  /-- A command that only returns a value. -/
  | answered {i : Instr} (hi : i.isCommand = true) (v : BitVec 64) : Effect s i (s.respond .ok v)
  | delivered {i : Instr} {p : List Byte} {t : State} (hi : Delivers s i p) (h : Received s t) :
      Effect s i t
  | overflowReset : Effect s .rxOverflow (s.emit .rxFifoReset)
  | overflowFinish (hr : s.rxState = .receiving) (k : PktKind) :
      Effect s .rxOverflow ((s.emit .rxFifoReset).finish k .dataOverflow)
  | clashFinish (hr : s.rxState = .receiving) (k : PktKind) :
      Effect s .rxClash (s.finish k .dataCollision)
  | rxBreak (hon : s.lineOn .rxBreak = true) : Effect s .rxBreak { s with
      rxSize := if 1 ≤ s.head ∧ s.pktErr = .ok then s.clampedHead else s.rxSize
      flags := { s.flags with inBreak := true, inMab := false, hasData := false }
      pktSize := 0, pktKind := .none, pktErr := .ok, head := 0, rxState := .receiving
      timerMode := if s.timerMode = .resp then .off else s.timerMode
      outputs := s.outputs ++ (if s.timerMode = .resp then [.timerPause] else []) }
  | txMasked (space : BitVec 16) (hon : s.lineOn .txData = true) :
      Effect s (.txData space) s.maskTxDataIfDone
  | txPushed (space : BitVec 16) {bs : List Byte} (hon : s.lineOn .txData = true)
      (h0 : 0 ≤ s.head) (hk : bs.length ≤ s.txLeft) :
      Effect s (.txData space) (State.maskTxDataIfDone { s with
        head := s.toHead (s.head + bs.length), outputs := s.outputs ++ [.txFifoWrite bs] })
  | turnedRound (dub : Bool) (hon : s.lineOn .txDone = true) : Effect s .txDone { s with
      lastSlotTs := s.lastNow
      irqEn := s.irqEn &&& ~~~ txAll ||| rxAll
      line := { s.line with rtsRx := true }
      head := if dub = true then 0 else -1
      rxState := if dub = true then .receiving else .waitBreak
      flags := s.flags.setHasData false
      timerMode := .resp
      outputs := s.outputs ++ [.irqMask (s.irqEn &&& ~~~ txAll), .setRts .receive, .rxFifoReset,
        .irqClear rxAll, .irqMask (s.irqEn &&& ~~~ txAll ||| rxAll), .timerArm s.cfg.respTimeout] }
  | transmissionOver (hon : s.lineOn .txDone = true) : Effect s .txDone { s with
      lastSlotTs := s.lastNow
      irqEn := s.irqEn &&& ~~~ txAll
      flags := s.flags.endTx
      head := -1, rxState := .waitBreak, taskWaiting := false
      outputs := s.outputs ++ [.irqMask (s.irqEn &&& ~~~ txAll)] ++
        (if s.taskWaiting = true then [.wake false s.txSize .none .ok] else []) }
  | breakOver (hm : s.timerMode = .brk) : Effect s .timerAlarm { s with
      line := { s.line with txInvert := false }
      flags := { s.flags with inBreak := false, inMab := true }
      timerMode := .mab
      outputs := s.outputs ++ [.setTxInvert false, .timerArm s.mabLen] }
  | mabOver {bs : List Byte} (hm : s.timerMode = .mab) (h0 : 0 ≤ s.head)
      (hk : bs.length ≤ s.txLeft) : Effect s .timerAlarm { s with
        flags := { s.flags with inMab := false }
        head := s.toHead (s.head + bs.length)
        timerMode := .off
        irqEn := s.irqEn ||| txAll
        outputs := s.outputs ++ [.txFifoWrite bs, .timerPause, .irqClear txAll,
          .irqMask (s.irqEn ||| txAll)] }
  | respOver (hm : s.timerMode = .resp) : Effect s .timerAlarm s.stopTimer
  | timedOut (hm : s.timerMode = .resp) (ha : s.awaiting = true) : Effect s .timerAlarm { s with
      timerMode := .off
      pktSize := 0, pktKind := .none, pktErr := .timeout
      flags := s.flags.endTx.setHasData false
      head := -1, rxState := .waitBreak, taskWaiting := false
      outputs := s.outputs ++ [.timerPause] ++
        (if s.taskWaiting = true then [.wake false 0 .none .timeout] else []) }
  | posedge : Effect s .gpioPosedge { s with snifPosTs := s.lastNow }
  | posedgeInBreak (hb : s.flags.inBreak = true) : Effect s .gpioPosedge { s with
      snifBreakW := width32 s.lastNow s.snifNegTs
      flags := s.flags.setBreakMab false true
      snifPosTs := s.lastNow }
  | negedge : Effect s .gpioNegedge { s with snifNegTs := s.lastNow }
  | negedgeInMab (hm : s.flags.inMab = true) : Effect s .gpioNegedge { s with
      snifQ := appendPair s.cfg.snifQDepth s.snifQ ⟨s.snifBreakW, width32 s.lastNow s.snifPosTs⟩
      flags := { s.flags with inMab := false }
      snifNegTs := s.lastNow }
  | enabled : Effect s .enable { s with
      flags := { s.flags with enabled := true, hasData := false }
      head := if s.driving = true then s.head else -1
      rxState := if s.driving = true then s.rxState else .waitBreak
      irqEn := if s.line.rtsRx = true then s.irqEn ||| rxAll else s.irqEn
      outputs := s.outputs ++
        (if s.line.rtsRx = true then [.irqClear rxAll, .irqMask (s.irqEn ||| rxAll)] else [])
      response := some ⟨.ok, 0⟩ }
  | disabled : Effect s .disable { s with
      flags := { s.flags with enabled := false }
      irqEn := s.irqEn &&& ~~~ rxAll
      taskWaiting := false
      outputs := s.outputs ++ [.irqMask (s.irqEn &&& ~~~ rxAll)] ++
        (if s.taskWaiting = true then [.wake false 0 .none .ok] else [])
      response := some ⟨.ok, 0⟩ }
  | breakLenSet (v : BitVec 32) : Effect s (.setBreakLen v) { s with
      breakLen := clamp v s.cfg.breakMin s.cfg.breakMax
      response := some ⟨.ok, (clamp v s.cfg.breakMin s.cfg.breakMax).zeroExtend 64⟩ }
  | mabLenSet (v : BitVec 32) : Effect s (.setMabLen v) { s with
      mabLen := clamp v s.cfg.mabMin s.cfg.mabMax
      response := some ⟨.ok, (clamp v s.cfg.mabMin s.cfg.mabMax).zeroExtend 64⟩ }
  | baudSet (v : BitVec 32) : Effect s (.setBaud v) { s with
      baud := clamp v s.cfg.baudMin s.cfg.baudMax
      outputs := s.outputs ++ [.setBaud (clamp v s.cfg.baudMin s.cfg.baudMax)]
      response := some ⟨.ok, (clamp v s.cfg.baudMin s.cfg.baudMax).zeroExtend 64⟩ }
  | written {addr : BitVec 16} (data : Byte) (ha : addr.toNat < s.cfg.bufCap)
      (hs : s.flags.sending = false) : Effect s (.bufWrite addr data) { s with
        buf := putCell s.buf addr.toNat data, response := some ⟨.ok, 0⟩ }
  | txStarted {n : BitVec 16} (hs : s.flags.sending = false) (h1 : 1 ≤ n.toNat)
      (hc : n.toNat ≤ s.cfg.bufCap) (hw : AllWritten s n.toNat) : Effect s (.txStart n) { s with
        txSize := n, head := 0, rxState := .waitBreak, flags := s.flags.startTx
        irqEn := 0, line := ⟨false, true⟩, timerMode := .brk
        outputs := s.outputs ++ [.irqClear 0xFF, .irqMask 0, .setRts .transmit, .txFifoReset,
          .setTxInvert true, .timerArm s.breakLen]
        response := some ⟨.ok, 0⟩ }
  | armed (hs : s.flags.sending = false) : Effect s .rxArm { s with
      line := { s.line with rtsRx := true }
      irqEn := s.irqEn ||| rxAll
      head := -1, rxState := .waitBreak
      flags := s.flags.setHasData false
      outputs := s.outputs ++ [.setRts .receive, .rxFifoReset, .irqClear rxAll,
        .irqMask (s.irqEn ||| rxAll)]
      response := some ⟨.ok, 0⟩ }
  | waiting (c : WaitCond) : Effect s (.wait c) { s with
      taskWaiting := true, response := some ⟨.ok, 0⟩ }
  | wokenByData (hd : s.flags.hasData = true) : Effect s (.wait .rx) { s with
      taskWaiting := false
      outputs := s.outputs ++ [.wake true s.pktSize s.pktKind s.pktErr]
      response := some ⟨.ok, 0⟩ }
  | wokenByIdle : Effect s (.wait .idle) { s with
      taskWaiting := false
      outputs := s.outputs ++ [.wake false 0 .none .ok]
      response := some ⟨.ok, 0⟩ }
  | waitCancelled : Effect s .waitCancel { s with
      taskWaiting := false, response := some ⟨.ok, 0⟩ }
  | consumed : Effect s .rxConsume { s with
      flags := s.flags.setHasData false, response := some ⟨.ok, s.packetRecord⟩ }
  | aborted (ha : s.awaiting = true) : Effect s .abort { s with
      flags := s.flags.endTx
      timerMode := if s.timerMode = .resp then .off else s.timerMode
      outputs := s.outputs ++ (if s.timerMode = .resp then [.timerPause] else [])
      response := some ⟨.ok, 0⟩ }
  | tnSet (v : Byte) : Effect s (.setTn v) { s with tn := v, response := some ⟨.ok, 0⟩ }
  | snifferSwitched (b : Bool) : Effect s (.snifferCtrl b) { s with
      snifCtrl := b, response := some ⟨.ok, 0⟩ }
  | snifferPopped {p : SnifPair} {rest : List SnifPair} (hq : s.snifQ = p :: rest) :
      Effect s .snifferPop { s with snifQ := rest, response := some ⟨.ok, p.breakW ++ p.mabW⟩ }

/-- How an operation can fault: an event, only in states no run reaches; BUF_READ and TX_START, on a
cell they read. -/
abbrev FaultsBy (s : State) (i : Instr) (f : Fault) : Prop :=
  i.isCommand = false ∨
  (∃ addr : BitVec 16, i = .bufRead addr ∧ addr.toNat < s.cfg.bufCap ∧
    memRead s addr.toNat = .error f) ∨
  ∃ n : BitVec 16, i = .txStart n ∧ n.toNat ≤ s.cfg.bufCap ∧ memReadMany s 0 n.toNat = .error f

/-- An outcome of `i` in `s`: a next state of the list, or a fault. -/
inductive Ends (s : State) (i : Instr) : Host.Outcome State Fault Refusal → Prop where
  | next {t : State} (h : Effect s i t) : Ends s i (.next t)
  | fault {f : Fault} (h : FaultsBy s i f) : Ends s i (.fault f)

theorem Ends.effect {s t : State} {i : Instr} {o : Host.Outcome State Fault Refusal}
    (h : Ends s i o) (ht : o = .next t) : Effect s i t := by
  cases h with
  | next he => cases ht; exact he
  | fault hf => cases ht

theorem Ends.faultsBy {s : State} {i : Instr} {f : Fault}
    {o : Host.Outcome State Fault Refusal} (h : Ends s i o) (hf : o = .fault f) :
    FaultsBy s i f := by
  cases h with
  | next he => cases hf
  | fault h => cases hf; exact h

theorem Ends.ne_refused {s : State} {i : Instr} {o : Host.Outcome State Fault Refusal}
    (h : Ends s i o) (r : Refusal) : o ≠ .refused r := by
  cases h <;> exact nofun

theorem Ends.outcomeOf {s : State} {i : Instr} {x : Except Fault State}
    (hi : i.isCommand = false) (h : ∀ t, x = .ok t → Effect s i t) : Ends s i (outcomeOf x) := by
  cases x with
  | ok t => exact .next (h t rfl)
  | error f => exact .fault (.inl hi)

/-- RX_FRAMING_ERR enabled, where draining the good bytes faults. -/
theorem execRxFramingErr_of_fault {s : State} {p : List Byte} {f : Fault}
    (h : s.lineOn .rxFramingErr = true) (hf : drainGood s p = .error f) :
    execRxFramingErr p s = .fault f := by
  unfold drainGood at hf
  simp only [execRxFramingErr, h, hf, if_true]

section
variable (s : State)

theorem execRxData_effect (p : List Byte) : Ends s (.rxData p) (execRxData p s) := by
  unfold execRxData
  split
  · next hon => exact .outcomeOf rfl fun t ht => .delivered (.inl ⟨rfl, hon⟩) (drain_received ht)
  · exact .next (.ignored rfl)

theorem execRxTimeout_effect (p : List Byte) : Ends s (.rxTimeout p) (execRxTimeout p s) := by
  unfold execRxTimeout
  split
  · next hon => exact .outcomeOf rfl fun t ht => .delivered (.inr (.inl ⟨rfl, hon⟩)) (drain_received ht)
  · exact .next (.ignored rfl)

theorem execRxFramingErr_effect (p : List Byte) :
    Ends s (.rxFramingErr p) (execRxFramingErr p s) := by
  cases hon : s.lineOn .rxFramingErr with
  | false => rw [execRxFramingErr_of_masked hon]; exact .next (.ignored rfl)
  | true =>
    cases hu : drainGood s p with
    | error f =>
      rw [execRxFramingErr_of_fault hon hu]
      exact .fault (.inl rfl)
    | ok u =>
      rw [execRxFramingErr_of_drained hon hu]
      exact .outcomeOf rfl fun t ht => .delivered (.inr (.inr ⟨rfl, hon⟩))
        ((drainGood_received hu).tail (.fifoReset u) |>.trans (finishIfReceiving_received ht))

theorem execRxBreak_effect : Ends s .rxBreak (execRxBreak s) := by
  cases hon : s.lineOn .rxBreak with
  | false => rw [execRxBreak_of_masked hon]; exact .next (.ignored rfl)
  | true => rw [execRxBreak_of_lineOn hon]; exact .next (.rxBreak hon)

theorem execRxOverflow_effect : Ends s .rxOverflow (execRxOverflow s) := by
  unfold execRxOverflow
  split
  · refine .outcomeOf rfl fun t ht => ?_
    obtain ⟨-, rfl⟩ | ⟨hr, k, -, rfl⟩ := finishIfReceiving_cases ht
    · exact .overflowReset
    · exact .overflowFinish (s := s) hr k
  · exact .next (.ignored rfl)

theorem execRxClash_effect : Ends s .rxClash (execRxClash s) := by
  unfold execRxClash
  split
  · refine .outcomeOf rfl fun t ht => ?_
    obtain ⟨-, rfl⟩ | ⟨hr, k, -, rfl⟩ := finishIfReceiving_cases ht
    · exact .ignored rfl
    · exact .clashFinish hr k
  · exact .next (.ignored rfl)

theorem execTxData_effect (space : BitVec 16) : Ends s (.txData space) (execTxData space s) := by
  unfold execTxData
  split
  · next hon =>
    split
    · split
      · exact .fault (.inl rfl)
      · next t ht =>
        obtain ⟨h0, bs, hbs, rfl⟩ := push_cases ht
        have hl := memReadMany_length hbs
        rw [← hl]
        exact .next (.txPushed space hon h0 (by omega))
    · exact .next (.txMasked space hon)
  · exact .next (.ignored rfl)

theorem execTxDone_effect : Ends s .txDone (execTxDone s) := by
  unfold execTxDone
  split
  · next hon =>
    split
    · exact .next (.ignored rfl)
    · split
      · exact .fault (.inl rfl)
      · next resp dub _ =>
        dsimp only
        split
        · rw [State.turnaround_eq]
          simp only [State.setIrq, State.emit, List.append_assoc]
          exact .next (.turnedRound dub hon)
        · rw [State.transmissionOver_eq]
          exact .next (.transmissionOver hon)
  · exact .next (.ignored rfl)

theorem execTimerAlarm_effect : Ends s .timerAlarm (execTimerAlarm s) := by
  cases hm : s.timerMode with
  | off => rw [execTimerAlarm_of_off hm]; exact .next (.ignored rfl)
  | brk => rw [execTimerAlarm_of_brk hm]; exact .next (.breakOver hm)
  | mab =>
    cases hp : push (s.setFlags { s.flags with inMab := false })
        (min s.cfg.txFifoCap s.txLeft) with
    | error f => simp only [execTimerAlarm, hm, hp]; exact .fault (.inl rfl)
    | ok t =>
      rw [execTimerAlarm_of_mab hm hp]
      obtain ⟨h0, bs, hbs, rfl⟩ := push_cases hp
      have hl := memReadMany_length hbs
      simp only [← hl, State.setHead, State.emit, List.append_assoc]
      exact .next (.mabOver hm h0 (by omega))
  | resp =>
    cases ha : s.awaiting with
    | false => rw [execTimerAlarm_of_resp hm ha]; exact .next (.respOver hm)
    | true => rw [execTimerAlarm_of_awaiting hm ha]; exact .next (.timedOut hm ha)

theorem execGpioPosedge_effect : Ends s .gpioPosedge (execGpioPosedge s) := by
  unfold execGpioPosedge
  split
  · exact .next (.ignored rfl)
  · split
    · next hb => exact .next (.posedgeInBreak hb)
    · exact .next .posedge

theorem execGpioNegedge_effect : Ends s .gpioNegedge (execGpioNegedge s) := by
  unfold execGpioNegedge
  split
  · exact .next (.ignored rfl)
  · split
    · next hm => exact .next (.negedgeInMab hm)
    · exact .next .negedge

theorem execEnable_effect : Ends s .enable (execEnable s) := by
  cases he : s.flags.enabled with
  | true => rw [execEnable_of_enabled he]; exact .next (.answered rfl 0)
  | false =>
    rw [execEnable_of_disabled he, State.enablePort_eq]
    exact .next .enabled

theorem execDisable_effect : Ends s .disable (execDisable s) := by
  cases he : s.flags.enabled with
  | false => rw [execDisable_of_disabled he]; exact .next (.answered rfl 0)
  | true => rw [execDisable_of_enabled he]; exact .next .disabled

theorem execBufWrite_effect (addr : BitVec 16) (data : Byte) :
    Ends s (.bufWrite addr data) (execBufWrite addr data s) := by
  unfold execBufWrite
  split
  · exact .next (.raised rfl _)
  · split
    · exact .next (.raised rfl _)
    · next ha hs => exact .next (.written data (by omega) (by simpa using hs))

theorem execBufRead_effect (addr : BitVec 16) : Ends s (.bufRead addr) (execBufRead addr s) := by
  unfold execBufRead
  split
  · exact .next (.raised rfl _)
  · next ha =>
    split
    · next hf => exact .fault (.inr (.inl ⟨addr, rfl, by omega, hf⟩))
    · exact .next (.answered rfl _)

theorem execTxStart_effect (n : BitVec 16) : Ends s (.txStart n) (execTxStart n s) := by
  unfold execTxStart
  split
  · exact .next (.raised rfl _)
  · next hes =>
    split
    · exact .next (.raised rfl _)
    · next hn =>
      split
      · next hf => exact .fault (.inr (.inr ⟨n, rfl, by omega, hf⟩))
      · next bs hbs =>
        obtain ⟨hl, hall⟩ := memReadMany_ok_iff.mp hbs
        have hw : AllWritten s n.toNat := fun a ha => by
          have := (memRead_ok_iff.mp (hall a (by omega))).2
          rw [Nat.zero_add] at this
          simp [this]
        rw [State.startTx_eq]
        exact .next (.txStarted (by simpa using (not_or.mp hes).2) (by omega) (by omega) hw)

theorem execRxArm_effect : Ends s .rxArm (execRxArm s) := by
  unfold execRxArm
  split
  · exact .next (.raised rfl _)
  · next hes =>
    split
    · exact .next (.answered rfl 0)
    · rw [State.turnToReceive_eq]
      exact .next (.armed (by simpa using (not_or.mp hes).2))

theorem execWait_effect (c : WaitCond) : Ends s (.wait c) (execWait c s) := by
  cases c with
  | rx =>
    cases hd : s.flags.hasData with
    | true => rw [execWait_rx_of_hasData hd]; exact .next (.wokenByData hd)
    | false => rw [execWait_rx_of_not_hasData hd]; exact .next (.waiting .rx)
  | idle =>
    cases hd : s.flags.idle with
    | true => rw [execWait_idle_of_idle hd]; exact .next .wokenByIdle
    | false => rw [execWait_idle_of_not_idle hd]; exact .next (.waiting .idle)

theorem execAbort_effect : Ends s .abort (execAbort s) := by
  cases ha : s.awaiting with
  | true => rw [execAbort_of_awaiting ha]; exact .next (.aborted ha)
  | false => simp only [execAbort, ha]; exact .next (.raised rfl _)

theorem execReadReg_effect (r : Byte) : Ends s (.readReg r) (execReadReg r s) := by
  unfold execReadReg
  split
  · exact .next (.raised rfl _)
  · exact .next (.answered rfl _)

theorem execSnifferCtrl_effect (b : Bool) : Ends s (.snifferCtrl b) (execSnifferCtrl b s) := by
  unfold execSnifferCtrl
  split
  · exact .next (.snifferSwitched b)
  · exact .next (.raised rfl _)

theorem execSnifferPop_effect : Ends s .snifferPop (execSnifferPop s) := by
  unfold execSnifferPop
  split
  · split
    · exact .next (.raised rfl _)
    · next hq => exact .next (.snifferPopped hq)
  · exact .next (.raised rfl _)

end

theorem exec_ends (i : Instr) (s : State) : Ends s i (exec i s) := by
  cases i with
  | rxData p => exact execRxData_effect s p
  | rxTimeout p => exact execRxTimeout_effect s p
  | rxBreak => exact execRxBreak_effect s
  | rxFramingErr p => exact execRxFramingErr_effect s p
  | rxOverflow => exact execRxOverflow_effect s
  | rxClash => exact execRxClash_effect s
  | txData space => exact execTxData_effect s space
  | txDone => exact execTxDone_effect s
  | timerAlarm => exact execTimerAlarm_effect s
  | gpioNegedge => exact execGpioNegedge_effect s
  | gpioPosedge => exact execGpioPosedge_effect s
  | enable => exact execEnable_effect s
  | disable => exact execDisable_effect s
  | setBreakLen v => exact .next (.breakLenSet v)
  | setMabLen v => exact .next (.mabLenSet v)
  | setBaud v => exact .next (.baudSet v)
  | bufWrite addr data => exact execBufWrite_effect s addr data
  | bufRead addr => exact execBufRead_effect s addr
  | txStart n => exact execTxStart_effect s n
  | rxArm => exact execRxArm_effect s
  | wait c => exact execWait_effect s c
  | waitCancel => exact .next .waitCancelled
  | rxConsume => exact .next .consumed
  | abort => exact execAbort_effect s
  | setTn v => exact .next (.tnSet v)
  | readReg r => exact execReadReg_effect s r
  | snifferCtrl b => exact execSnifferCtrl_effect s b
  | snifferPop => exact execSnifferPop_effect s

/-- Every next state of an operation is one of the list. -/
theorem exec_effect {i : Instr} {s t : State} (h : exec i s = .next t) : Effect s i t :=
  (exec_ends i s).effect h

/-- No operation writes the parameters, LAST_NOW or the operations still to come. -/
theorem Effect.keeps_surroundings {i : Instr} {s t : State} (h : Effect s i t) :
    t.cfg = s.cfg ∧ t.lastNow = s.lastNow ∧ t.input = s.input := by
  cases h with
  | delivered _ h => rw [h.frame]; exact ⟨rfl, rfl, rfl⟩
  | overflowFinish | clashFinish => simp
  | txMasked | txPushed => rw [State.maskTxDataIfDone_eq]; exact ⟨rfl, rfl, rfl⟩
  | _ => exact ⟨rfl, rfl, rfl⟩

end Sys2Proof.Machine
end

section
/-! PROOFS. The invariant (10_state.md R36 and the facts it rests on): reset meets it, every step keeps
it, and so every reachable state meets the eleven items of R36 and the timing windows of R28. -/

namespace Sys2Proof.Machine

/-! ### What the invariant says of the bus -/

section
variable {s : State}

/-- With SENT_LAST tied to SENDING, a reply is awaited while sending in receive direction. -/
theorem Inv.awaiting_of (hi : Inv s) (hs : s.flags.sending = true) (hr : s.line.rtsRx = true) :
    s.awaiting = true :=
  s.awaiting_iff.mpr ⟨hs, hi.sentLast.trans hs, hr⟩

/-- A RX line is enabled only in receive direction. -/
theorem Inv.rtsRx_of_rxLine (hi : Inv s) (h : s.irqEn.extractLsb' 0 6 ≠ 0) : s.line.rtsRx = true := by
  by_contra hr
  exact h (hi.rxMasked (Bool.eq_false_of_not_eq_true hr))

/-- A packet is received only while the block does not drive the bus. -/
theorem Inv.not_driving_of_receiving (hi : Inv s) (hr : s.rxState ≠ .waitBreak) :
    ¬ (s.flags.sending = true ∧ s.line.rtsRx = false) := fun hd =>
  hr (hi.sendingPacket hd).1

/-- A TX line is enabled only while the block drives the bus with the timer off. -/
theorem Inv.txLine_facts (hi : Inv s) (h : s.lineOn .txData = true ∨ s.lineOn .txDone = true) :
    s.flags.sending = true ∧ s.line.rtsRx = false ∧ s.timerMode = .off := by
  refine hi.txLines fun hm => ?_
  obtain ⟨hd, hn⟩ := State.lineOn_tx_of_masked hm
  simp [hd, hn] at h

/-! ### The steps of a reception keep it -/

theorem Inv.stamped (hi : Inv s) : Inv (s.stampSlot.setFlags (s.flags.setBreakMab false false)) :=
  { hi with
    item4 := fun h => nomatch h.1
    times := ⟨BitVec.le_refl _, hi.times.2⟩ }

theorem Inv.takeByte (hi : Inv s) (b : Byte) (hr : s.rxState ≠ .waitBreak) : Inv (s.takeByte b) := by
  have hhead := State.takeByte_head_of_valid b hi.cfgValid
  have hbuf : Memory.wf s.cfg.bufCap (s.takeByte b).buf = true := by
    rw [State.takeByte_buf]
    split
    · next ha => exact Memory.wf_putCell b ha hi.bufWf
    · exact hi.bufWf
  have hw := State.takeByte_written b hi.receiveReady hr
  rw [State.takeByte_eq] at hhead hbuf hw ⊢
  exact { hi with
    item6 := fun h => absurd h.1 hr
    item7 := fun _ => by rw [hhead]; omega
    bufWf := hbuf
    sendingPacket := fun hd => absurd hd (hi.not_driving_of_receiving hr)
    received := fun _ => hw
    headRange := by rw [hhead]; dsimp only; omega }

/-- Cancelling the response timer (40_receive.md R73). -/
theorem Inv.cancelResp (hi : Inv s) : Inv s.cancelResp := by
  by_cases hm : s.timerMode = .resp
  · rw [State.cancelResp, if_pos hm]
    exact { hi with
      item2 := fun h => by simp at h
      item3 := fun h => by simp at h
      item4 := fun h => (hi.item4 h).imp (fun hb => by simp [hm] at hb) id
      item10 := by simpa [hm] using hi.item10
      txLines := fun h => by have := hi.txLines h; simp [hm] at this }
  · rwa [State.cancelResp_of_ne hm]

/-- Ending an awaited transaction whose timer is no longer armed (40_receive.md R75). -/
theorem Inv.endTx (hi : Inv s) (ha : s.awaiting = true) (hm : s.timerMode ≠ .resp) :
    Inv (s.setFlags s.flags.endTx) := by
  obtain ⟨-, -, hr⟩ := s.awaiting_iff.mp ha
  exact { hi with
    item1 := nofun
    item2 := fun h => by have := hi.item2 h; simp [hr] at this
    item3 := fun h => absurd h hm
    item4 := fun h => nomatch h.2
    item5 := fun h => nomatch h.1
    item6 := fun h => hi.item6 ⟨h.1, by simp [hr]⟩
    sentLast := rfl
    txLines := fun h => by have := hi.txLines h; simp [hr] at this
    sendingPacket := fun h => nomatch h.1 }

theorem State.cancelResp_timerMode_ne (s : State) : s.cancelResp.timerMode ≠ .resp := by
  rw [State.cancelResp_timerMode]
  split
  · simp
  · assumption

theorem Inv.endTransaction (hi : Inv s) : Inv s.endTransaction := by
  by_cases ha : s.awaiting = true
  · have hc : s.endTransaction = s.cancelResp.setFlags s.flags.endTx := by
      simp [State.endTransaction_eq, State.cancelResp_eq, State.setFlags, ha]
    have ha' : s.cancelResp.awaiting = true := by simpa [State.awaiting] using ha
    rw [hc]
    simpa using hi.cancelResp.endTx ha' s.cancelResp_timerMode_ne
  · rwa [State.endTransaction, if_neg ha]

theorem Inv.wakeIf (hi : Inv s) (h : Bool) (n : BitVec 16) (k : PktKind) (e : ErrCode) :
    Inv (s.wakeIf h n k e) := by
  rw [State.wakeIf_eq]
  exact { hi with }

theorem Inv.clampedHead_le (hi : Inv s) : s.clampedHead.toNat ≤ s.cfg.bufCap := by
  obtain ⟨⟨-, hcap, -⟩, -⟩ := hi.cfgValid
  rw [State.clampedHead_toNat hcap]
  omega

theorem Inv.finish (hi : Inv s) (hr : s.rxState = .receiving) (k : PktKind) (e : ErrCode) :
    Inv (s.finish k e) := by
  obtain ⟨hlo, hcap, -⟩ := hi.item9
  have hne : s.rxState ≠ .waitBreak := by simp [hr]
  have recorded : Inv (((s.setPkt s.clampedHead k e).setFlags (s.flags.setHasData true)).setRx
      s.head .postPacket) := { hi with
    item6 := fun h => nomatch h.1
    item7 := fun _ => hi.item7 (.inl hr)
    item8 := fun _ => rfl
    item9 := ⟨hlo, hcap, hi.clampedHead_le⟩
    sendingPacket := fun hd => absurd hd (hi.not_driving_of_receiving hne)
    received := fun _ => hi.received hne }
  exact recorded.endTransaction.wakeIf _ _ _ _

/-- Every step of a reception keeps the invariant. -/
theorem RxStep.inv {t : State} (h : RxStep s t) (hi : Inv s) : Inv t := by
  cases h with
  | stamped => exact hi.stamped
  | stored b hr h0 => exact hi.takeByte b hr
  | cancelled hr => exact hi.cancelResp
  | finished hr k e => exact hi.finish hr k e
  | fifoReset => exact { hi with }

theorem Received.inv {t : State} (h : Received s t) (hi : Inv s) : Inv t := by
  induction h with
  | refl => exact hi
  | tail _ hstep ih => exact hstep.inv ih

/-- RX_BREAK keeps it: its line is enabled, so the transceiver is in receive direction. -/
theorem Inv.rxBreak (hi : Inv s) (hon : s.lineOn .rxBreak = true) : Inv { s with
    rxSize := if 1 ≤ s.head ∧ s.pktErr = .ok then s.clampedHead else s.rxSize
    flags := { s.flags with inBreak := true, inMab := false, hasData := false }
    pktSize := 0, pktKind := .none, pktErr := .ok, head := 0, rxState := .receiving } := by
  have hr : s.line.rtsRx = true := hi.rtsRx_of_rxLine fun hm => by
    simp [(State.lineOn_rx_of_masked hm).2.2.1] at hon
  obtain ⟨⟨hcap, hmax, hle⟩, -⟩ := hi.cfgValid
  have hsize : 1 ≤ (if 1 ≤ s.head ∧ s.pktErr = .ok then s.clampedHead else s.rxSize).toNat ∧
      (if 1 ≤ s.head ∧ s.pktErr = .ok then s.clampedHead else s.rxSize).toNat ≤ s.cfg.bufCap := by
    split
    · next h =>
      have := State.headNat_cast (s := s) (by omega)
      rw [State.clampedHead_toNat hmax]
      omega
    · exact ⟨hi.item9.1, hi.item9.2.1⟩
  exact { hi with
    item4 := fun h => .inr (hi.awaiting_of h.2 hr)
    item6 := fun h => nomatch h.1
    item7 := fun _ => Int.le_refl 0
    item8 := nofun
    item9 := ⟨hsize.1, hsize.2, Nat.zero_le _⟩
    sendingPacket := fun hd => by simp [hr] at hd
    received := fun _ a ha => by simp [State.headNat] at ha
    headRange := by dsimp only; omega }

/-! ### The transmit path keeps it -/

/-- The alarm of the BREAK. -/
theorem Inv.breakOver (hi : Inv s) (hm : s.timerMode = .brk) (o : List Action) : Inv { s with
    line := { s.line with txInvert := false }
    flags := { s.flags with inBreak := false, inMab := true }
    timerMode := .mab, outputs := o } :=
  { hi with
    item2 := fun _ => hi.item2 (.inl hm)
    item3 := nofun
    item4 := fun h => nomatch h.1
    item10 := by simp
    txLines := fun h => by have := hi.txLines h; simp [hm] at this }

/-- Counting pushed bytes that are left keeps HEAD at most TX_SIZE. -/
theorem Inv.pushed (hi : Inv s) (hd : s.flags.sending = true ∧ s.line.rtsRx = false) {k : Nat}
    (hk : k ≤ s.txLeft) (o : List Action) :
    Inv { s with head := s.toHead (s.head + k), outputs := o } := by
  obtain ⟨hw, h0, hle, h1, hcap, hall⟩ := hi.sendingPacket hd
  obtain ⟨⟨-, -, hmax⟩, -⟩ := hi.cfgValid
  have hn := State.headNat_cast h0
  rw [State.txLeft_eq h0] at hk
  have hhead : s.toHead (s.head + k) = s.head + k := State.toHead_add hi.cfgValid h0 (by omega)
  rw [hhead]
  exact { hi with
    item6 := fun h => absurd hd h.2
    item7 := fun h => by simp [hw] at h
    sendingPacket := fun _ => ⟨hw, by dsimp only; omega, by dsimp only; omega, h1, hcap, hall⟩
    received := fun h => absurd hw h
    headRange := by dsimp only; omega }

/-- The end of the MAB, its first bytes pushed: both TX lines are enabled. -/
theorem Inv.mabOver (hi : Inv s) (hm : s.timerMode = .mab) (o : List Action) : Inv { s with
    flags := { s.flags with inMab := false }
    timerMode := .off, irqEn := s.irqEn ||| txAll, outputs := o } := by
  obtain ⟨hs, hr, hmask⟩ := hi.item2 (.inr hm)
  have hrx : (s.irqEn ||| txAll).extractLsb' 0 6 = 0 := (rxLines_or_txAll _).trans hmask
  exact { hi with
    item2 := fun h => by simp at h
    item3 := nofun
    item4 := fun h => (hi.item4 h).imp (fun hb => by simp [hm] at hb) id
    item5 := fun _ => hrx
    item10 := by simpa [hm] using hi.item10
    rxMasked := fun _ => hrx
    txLines := fun _ => ⟨hs, hr, rfl⟩ }

theorem Inv.stopTimer_of_resp (hi : Inv s) (hm : s.timerMode = .resp) : Inv s.stopTimer := by
  have hc := hi.cancelResp
  rwa [State.cancelResp, if_pos hm] at hc

/-- Waiting for a fresh BREAK with no packet at hand, while the block does not drive the bus. -/
theorem Inv.waitBreak (hi : Inv s) (hd : ¬ (s.flags.sending = true ∧ s.line.rtsRx = false)) :
    Inv ((s.setRx (-1) .waitBreak).setFlags (s.flags.setHasData false)) := by
  have hmax := hi.headRange.2
  exact { hi with
    item6 := fun _ => rfl
    item7 := fun h => by simp at h
    item8 := nofun
    sendingPacket := fun h => absurd h hd
    received := fun h => absurd rfl h
    headRange := ⟨Int.le_refl _, by dsimp only [State.setRx, State.setFlags]; omega⟩ }

/-- Enabling no further line keeps it. -/
theorem Inv.fewerLines (hi : Inv s) {m : BitVec 8}
    (hrx : s.irqEn.extractLsb' 0 6 = 0 → m.extractLsb' 0 6 = 0)
    (htx : s.irqEn.extractLsb' 6 2 = 0 → m.extractLsb' 6 2 = 0) (o : List Action) :
    Inv { s with irqEn := m, outputs := o } :=
  { hi with
    item2 := fun h => (hi.item2 h).imp_right (.imp_right hrx)
    item5 := fun h => hrx (hi.item5 h)
    rxMasked := fun h => hrx (hi.rxMasked h)
    txLines := fun h => hi.txLines fun h0 => h (htx h0) }

/-- Enabling the RX lines in receive direction keeps it. -/
theorem Inv.rxUnmasked (hi : Inv s) (hr : s.line.rtsRx = true) (o : List Action) :
    Inv { s with irqEn := s.irqEn ||| rxAll, outputs := o } :=
  { hi with
    item2 := fun h => by have := hi.item2 h; simp [hr] at this
    item5 := fun h => by simp [hr] at h
    rxMasked := fun h => by simp [hr] at h
    txLines := fun h => hi.txLines (by rwa [← txLines_or_rxAll]) }

theorem Inv.maskTxDataIfDone (hi : Inv s) : Inv s.maskTxDataIfDone := by
  have hrx : ∀ m : BitVec 8, m.extractLsb' 0 6 = 0 → (m &&& 0xBF).extractLsb' 0 6 = 0 := by decide
  have htx : ∀ m : BitVec 8, m.extractLsb' 6 2 = 0 → (m &&& 0xBF).extractLsb' 6 2 = 0 := by decide
  rw [State.maskTxDataIfDone_eq]
  split
  · exact hi.fewerLines (hrx _) (htx _) _
  · exact { hi with }

/-- TX_START on a port that is not sending, of a packet that is all written. -/
theorem Inv.txStarted (hi : Inv s) {n : BitVec 16} (h1 : 1 ≤ n.toNat) (hc : n.toNat ≤ s.cfg.bufCap)
    (hw : AllWritten s n.toNat) (o : List Action) : Inv { s with
      txSize := n, head := 0, rxState := .waitBreak, flags := s.flags.startTx
      irqEn := 0, line := ⟨false, true⟩, timerMode := .brk, outputs := o } :=
  { hi with
    item1 := nofun
    item2 := fun _ => ⟨rfl, rfl, rfl⟩
    item3 := nofun
    item4 := fun _ => .inl rfl
    item5 := fun _ => rfl
    item6 := fun h => absurd ⟨rfl, rfl⟩ h.2
    item7 := fun h => by simp at h
    item8 := nofun
    item10 := ⟨fun _ => rfl, fun _ => rfl⟩
    sentLast := rfl
    rxMasked := fun _ => rfl
    txLines := fun h => absurd (show (0 : BitVec 8).extractLsb' 6 2 = 0 by decide) h
    sendingPacket := fun _ => ⟨rfl, Int.le_refl 0, Int.natCast_nonneg _, h1, hc, hw⟩
    received := fun h => absurd rfl h
    headRange := ⟨by simp, Int.natCast_nonneg _⟩ }

/-- The turnaround after TX_DONE: a reply is awaited. -/
theorem Inv.turnedRound (hi : Inv s) (hon : s.lineOn .txDone = true) (dub : Bool)
    (o : List Action) : Inv { s with
      lastSlotTs := s.lastNow
      irqEn := s.irqEn &&& ~~~ txAll ||| rxAll
      line := { s.line with rtsRx := true }
      head := if dub = true then 0 else -1
      rxState := if dub = true then .receiving else .waitBreak
      flags := s.flags.setHasData false
      timerMode := .resp, outputs := o } := by
  obtain ⟨hs, -, hm⟩ := hi.txLine_facts (.inr hon)
  have hno : (s.irqEn &&& ~~~ txAll ||| rxAll).extractLsb' 6 2 = 0 :=
    (txLines_or_rxAll _).trans (txLines_and_not_txAll _)
  have hsl : s.flags.sentLast = true := hi.sentLast.trans hs
  have hinv : s.line.txInvert = false := by simpa [hm] using hi.item10
  have hmax := hi.headRange.2
  have awaiting : State.awaiting { s with
      line := { s.line with rtsRx := true }, flags := s.flags.setHasData false } = true := by
    simp [State.awaiting, Flags.setHasData, hs, hsl]
  exact { hi with
    item2 := fun h => by simp at h
    item3 := fun _ => awaiting
    item4 := fun _ => .inr awaiting
    item5 := fun h => nomatch h.2
    item6 := fun h => by cases dub <;> simp at h ⊢
    item7 := fun h => by cases dub <;> simp at h ⊢
    item8 := nofun
    item10 := by simp [hinv]
    rxMasked := nofun
    txLines := fun h => absurd hno h
    sendingPacket := fun h => nomatch h.2
    received := fun h a ha => by cases dub <;> simp [State.headNat] at h ha
    headRange := by cases dub <;> simp
    times := ⟨BitVec.le_refl _, hi.times.2⟩ }

/-- The end of a transmission that expects no reply. -/
theorem Inv.transmissionOver (hi : Inv s) (hon : s.lineOn .txDone = true) (o : List Action)
    (w : Bool) : Inv { s with
      lastSlotTs := s.lastNow
      irqEn := s.irqEn &&& ~~~ txAll
      flags := s.flags.endTx
      head := -1, rxState := .waitBreak, taskWaiting := w, outputs := o } := by
  obtain ⟨hs, hr, hm⟩ := hi.txLine_facts (.inr hon)
  obtain ⟨hwait, -⟩ := hi.sendingPacket ⟨hs, hr⟩
  have hmax := hi.headRange.2
  exact { hi with
    item1 := nofun
    item2 := fun h => by simp [hm] at h
    item3 := fun h => by simp [hm] at h
    item4 := fun h => nomatch h.2
    item5 := fun h => nomatch h.1
    item6 := fun _ => rfl
    item7 := fun h => by simp at h
    item8 := fun h => by have := hi.item8 h; simp [hwait] at this
    sentLast := rfl
    rxMasked := fun h => (rxLines_and_not_txAll _).trans (hi.rxMasked h)
    txLines := fun h => absurd (txLines_and_not_txAll _) h
    sendingPacket := fun h => nomatch h.1
    received := fun h => absurd rfl h
    headRange := ⟨Int.le_refl _, by dsimp only; omega⟩
    times := ⟨BitVec.le_refl _, hi.times.2⟩ }

/-! ### The host commands and the sniffer keep it -/

/-- The transceiver of a port that is not sending turned to receive. -/
theorem Inv.turnToReceive (hi : Inv s) (hs : s.flags.sending = false) : Inv s.turnToReceive := by
  rw [State.turnToReceive_eq]
  exact { hi with
    item2 := fun h => by have := hi.item2 h; simp [hs] at this
    item3 := fun h => by have := s.awaiting_iff.mp (hi.item3 h); simp [hs] at this
    item4 := fun h => by simp [hs] at h
    item5 := fun h => nomatch h.2
    item6 := fun h => hi.item6 ⟨h.1, by simp [hs]⟩
    rxMasked := nofun
    txLines := fun h => by have := hi.txLines (by rwa [← txLines_or_rxAll]); simp [hs] at this
    sendingPacket := fun h => nomatch h.2 }

/-- ENABLE on a disabled port: the driver of the bus has its RX lines masked and keeps them so. -/
theorem Inv.enablePort (hi : Inv s) : Inv s.enablePort := by
  have switched : Inv (s.setFlags ({ s.flags with enabled := true }.setHasData false)) :=
    { hi with item8 := nofun }
  unfold State.enablePort
  cases hd : s.driving with
  | true =>
    obtain ⟨-, hr⟩ := s.driving_iff.mp hd
    simpa [hr] using switched
  | false =>
    have settled := switched.waitBreak fun h => by simp [s.driving_iff.mpr h] at hd
    cases hr : s.line.rtsRx with
    | true => exact settled.rxUnmasked hr _
    | false => exact settled

theorem Inv.disabled (hi : Inv s) (o : List Action) (w : Bool) : Inv { s with
    flags := { s.flags with enabled := false }
    irqEn := s.irqEn &&& ~~~ rxAll, taskWaiting := w, outputs := o } :=
  { hi.fewerLines (fun _ => rxLines_and_not_rxAll _)
      (fun h => (txLines_and_not_rxAll _).trans h) o with }

/-- A write to a cell keeps the canonical form and makes no cell UNWRITTEN again. -/
theorem Inv.written (hi : Inv s) {a : Nat} (ha : a < s.cfg.bufCap) (b : Byte) :
    Inv (s.store a b) :=
  { hi with
    bufWf := Memory.wf_putCell b ha hi.bufWf
    sendingPacket := fun hd => by
      obtain ⟨hw, h0, hle, h1, hcap, hall⟩ := hi.sendingPacket hd
      exact ⟨hw, h0, hle, h1, hcap, fun c hc => isSome_cellAt_putCell a b (hall c hc)⟩
    received := fun hr c hc => isSome_cellAt_putCell a b (hi.received hr c hc) }

theorem appendPair_length_le {depth : Nat} {q : List SnifPair} (p : SnifPair) (h1 : 1 ≤ depth)
    (hq : q.length ≤ depth) : (appendPair depth q p).length ≤ depth := by
  unfold appendPair
  split
  · simp; omega
  · simp; omega

theorem Inv.respond (hi : Inv s) (e : ErrCode) (v : BitVec 64) : Inv (s.respond e v) := { hi with }

/-- Every operation keeps the invariant. -/
theorem Effect.inv {i : Instr} {t : State} (h : Effect s i t) (hi : Inv s) : Inv t := by
  obtain ⟨-, -, -, -, hdepth, hbreak, hmab, hbaud⟩ := hi.cfgValid
  cases h with
  | ignored => exact hi
  | raised | answered => exact hi.respond _ _
  | delivered _ h => exact h.inv hi
  | overflowReset => exact { hi with }
  | overflowFinish hr k => exact Inv.finish (s := s.emit .rxFifoReset) { hi with } hr k _
  | clashFinish hr k => exact hi.finish hr k _
  | rxBreak hon =>
    have hc := (hi.rxBreak hon).cancelResp
    rwa [State.cancelResp_eq] at hc
  | txMasked space hon => exact hi.maskTxDataIfDone
  | txPushed space hon h0 hk =>
    obtain ⟨hs, hr, -⟩ := hi.txLine_facts (.inl hon)
    exact (hi.pushed ⟨hs, hr⟩ hk _).maskTxDataIfDone
  | turnedRound dub hon => exact hi.turnedRound hon dub _
  | transmissionOver hon => exact hi.transmissionOver hon _ _
  | breakOver hm => exact hi.breakOver hm _
  | mabOver hm h0 hk =>
    obtain ⟨hs, hr, -⟩ := hi.item2 (.inr hm)
    exact (hi.pushed ⟨hs, hr⟩ hk s.outputs).mabOver hm _
  | respOver hm => exact hi.stopTimer_of_resp hm
  | timedOut hm ha =>
    obtain ⟨-, -, hr⟩ := s.awaiting_iff.mp ha
    have ended := (hi.stopTimer_of_resp hm).endTx (by simpa [State.awaiting] using ha) (by simp)
    exact { ended.waitBreak (by simp [Flags.endTx]) with
      item9 := ⟨hi.item9.1, hi.item9.2.1, Nat.zero_le _⟩ }
  | posedge => exact { hi with times := ⟨hi.times.1, hi.times.2.1, BitVec.le_refl _⟩ }
  | posedgeInBreak =>
    exact { hi with
      item4 := fun h => nomatch h.1
      times := ⟨hi.times.1, hi.times.2.1, BitVec.le_refl _⟩ }
  | negedge => exact { hi with times := ⟨hi.times.1, BitVec.le_refl _, hi.times.2.2⟩ }
  | negedgeInMab =>
    exact { hi with
      item11 := appendPair_length_le _ hdepth hi.item11
      times := ⟨hi.times.1, BitVec.le_refl _, hi.times.2.2⟩ }
  | enabled =>
    have he := hi.enablePort
    rw [State.enablePort_eq] at he
    exact he.respond .ok 0
  | disabled => exact (hi.disabled _ _).respond .ok 0
  | breakLenSet v =>
    exact { hi with windows := ⟨clamp_mem (BitVec.le_trans hbreak.1 hbreak.2), hi.windows.2⟩ }
  | mabLenSet v =>
    exact { hi with
      windows := ⟨hi.windows.1, clamp_mem (BitVec.le_trans hmab.1 hmab.2), hi.windows.2.2⟩ }
  | baudSet v =>
    exact { hi with
      windows := ⟨hi.windows.1, hi.windows.2.1, clamp_mem (BitVec.le_trans hbaud.1 hbaud.2)⟩ }
  | written data ha hs => exact (hi.written ha data).respond .ok 0
  | txStarted hs h1 hc hw => exact (hi.txStarted h1 hc hw _).respond .ok 0
  | armed hs =>
    have ht := (hi.turnToReceive hs).waitBreak (by simp [hs])
    rw [State.turnToReceive_eq] at ht
    exact ht.respond .ok 0
  | waiting | wokenByData | wokenByIdle | waitCancelled => exact { hi with }
  | consumed => exact { hi with item8 := nofun }
  | aborted ha =>
    have ended := hi.cancelResp.endTx (by simpa [State.awaiting] using ha) s.cancelResp_timerMode_ne
    rw [State.cancelResp_eq] at ended
    exact ended.respond .ok 0
  | tnSet | snifferSwitched => exact { hi with }
  | snifferPopped hq =>
    have := hi.item11
    exact { hi with item11 := by rw [hq] at this; exact Nat.le_of_succ_le this }

end

/-! ### Steps and runs -/

/-- Everything one step can do: wait, or run a decoded operation that is not stale. -/
theorem step_cases {s t : State} (h : step s = .next t) :
    (s.input = [] ∧ t = s.waitForInput) ∨
    ∃ a rest i, s.input = a :: rest ∧ s.lastNow ≤ a.now ∧ decode s.cfg a.op = .ok i ∧
      exec i (s.take a.now rest) = .next t := by
  unfold step at h
  split at h
  · next hnil => cases h; exact .inl ⟨hnil, rfl⟩
  · next a rest hcons =>
    split at h
    · cases h
    · next hnow =>
      split at h
      · cases h
      · next i hdec => exact .inr ⟨a, rest, i, hcons, BitVec.not_lt.mp hnow, hdec, h⟩

theorem step_of_stale {s : State} {a : Arrival} {rest : List Arrival} (hs : s.input = a :: rest)
    (h : a.now < s.lastNow) : step s = .refused .staleNow := by
  simp [step, hs, h]

/-- No step changes a parameter. -/
theorem step_cfg {s t : State} (h : step s = .next t) : t.cfg = s.cfg := by
  obtain ⟨-, rfl⟩ | ⟨a, rest, i, -, -, -, hexec⟩ := step_cases h
  · rfl
  · exact (exec_effect hexec).keeps_surroundings.1

/-- Settles O9: `State.take` records the time, and no operation writes LAST_NOW or the input. -/
theorem stepRecordsNowAndKeepsParameters : Obligations.StepRecordsNowAndKeepsParameters := by
  refine ⟨fun s a rest hs => ⟨step_of_stale hs, fun t h => ?_⟩, fun s t => step_cfg⟩
  obtain ⟨hnil, -⟩ | ⟨a', rest', i, hcons, hnow, -, hexec⟩ := step_cases h
  · simp [hs] at hnil
  · obtain ⟨rfl, rfl⟩ : a = a' ∧ rest = rest' := by simpa [hs] using hcons
    obtain ⟨-, hlast, hinput⟩ := (exec_effect hexec).keeps_surroundings
    exact ⟨hnow, hlast, hinput⟩

/-- Taking an operation that is not stale keeps the invariant. -/
theorem Inv.take {s : State} (hi : Inv s) {now : Stamp} (h : s.lastNow ≤ now)
    (rest : List Arrival) : Inv (s.take now rest) := by
  obtain ⟨hslot, hneg, hpos⟩ := hi.times
  exact { hi with
    times := ⟨BitVec.le_trans hslot h, BitVec.le_trans hneg h, BitVec.le_trans hpos h⟩ }

/-- Settles O11: the operation is taken, and then `Effect.inv` has a case for every way it can end. -/
theorem stepKeepsInvariant : Obligations.StepKeepsInvariant := by
  intro s t hi h
  obtain ⟨-, rfl⟩ | ⟨a, rest, i, -, hnow, -, hexec⟩ := step_cases h
  · exact { hi with }
  · exact (exec_effect hexec).inv (hi.take hnow rest)

/-- The state after reset meets the invariant under any valid parameters. -/
theorem inv_resetWith {c : Config} (hc : c.Valid) (ins : List Arrival) :
    Inv { State.resetWith c with input := ins } := by
  have valid := hc
  obtain ⟨⟨hlo, hcap, hmax⟩, -, -, -, -, hbreak, hmab, hbaud⟩ := hc
  have hsize : (BitVec.ofNat 16 (min 513 c.bufCap)).toNat = 513 := by
    rw [BitVec.toNat_ofNat]
    omega
  exact
    { item1 := nofun
      item2 := fun h => by cases h <;> contradiction
      item3 := nofun
      item4 := nofun
      item5 := nofun
      item6 := fun _ => rfl
      item7 := fun h => by cases h <;> contradiction
      item8 := nofun
      item9 := by
        change 1 ≤ (BitVec.ofNat 16 (min 513 c.bufCap)).toNat ∧
          (BitVec.ofNat 16 (min 513 c.bufCap)).toNat ≤ c.bufCap ∧ 0 ≤ c.bufCap
        omega
      item10 := by simp [State.resetWith]
      item11 := Nat.zero_le _
      cfgValid := valid
      bufWf := Memory.wf_nil _
      sentLast := rfl
      rxMasked := nofun
      txLines := fun h => absurd (show (0x3F : BitVec 8).extractLsb' 6 2 = 0 by decide) h
      sendingPacket := nofun
      received := fun h => absurd rfl h
      headRange := ⟨Int.le_refl _, by simp [State.resetWith]⟩
      windows := ⟨hbreak, hmab, hbaud⟩
      times := ⟨BitVec.le_refl _, BitVec.le_refl _, BitVec.le_refl _⟩ }

/-- Settles O12. -/
theorem resetMeetsInvariant : Obligations.ResetMeetsInvariant :=
  ⟨inv_resetWith (c := Config.default) (by decide) [], fun _ ins hc => inv_resetWith hc ins⟩

/-- What every step keeps, a run keeps. -/
theorem run_induct {P : State → Prop} (keeps : ∀ s t, P s → step s = .next t → P t) :
    ∀ {k : Nat} {s t : State}, P s → Host.Core.run Sys2Proof.core k s = .next t → P t
  | 0, s, t, hs, h => by cases h; exact hs
  | k + 1, s, t, hs, h => by
    simp only [Host.Core.run] at h
    split at h
    · next u hu => exact run_induct keeps (keeps s u hs hu) h
    · cases h
    · cases h

/-- Every state a run from reset reaches meets the invariant. -/
theorem inv_of_run {c : Config} {ins : List Arrival} {k : Nat} {t : State} (hc : c.Valid)
    (h : Host.Core.run Sys2Proof.core k { State.resetWith c with input := ins } = .next t) : Inv t :=
  run_induct (P := Inv) stepKeepsInvariant (inv_resetWith hc ins) h

/-- A run keeps the parameters it starts with. -/
theorem cfg_of_run {s t : State} {k : Nat} (h : Host.Core.run Sys2Proof.core k s = .next t) :
    t.cfg = s.cfg :=
  run_induct (P := fun u => u.cfg = s.cfg) (fun _ _ hu hstep => (step_cfg hstep).trans hu) rfl h

/-- Settles O13. -/
theorem reachableStatesMeetSpecInvariants : Obligations.ReachableStatesMeetSpecInvariants := by
  refine ⟨fun c ins k t hc h => ⟨(inv_of_run hc h).toSpecInvariant, (inv_of_run hc h).windows⟩,
    fun ins k t h => ?_⟩
  have hcfg : t.cfg = Config.default := cfg_of_run h
  have hw := (inv_of_run (c := Config.default) (by decide) h).windows
  rw [WindowsHold, hcfg] at hw
  exact hw

end Sys2Proof.Machine
end

section
/-! PROOFS. The sniffer never affects the engine (41_sniffer.md R90): the receive and transmit paths
neither read nor need what only the sniffer uses. -/

namespace Sys2Proof.Machine

/-! ### Outcomes that differ only in what the sniffer uses -/

/-- An outcome with its next state, if it has one, changed. -/
def mapNext (f : State → State) :
    Host.Outcome State Fault Refusal → Host.Outcome State Fault Refusal
  | .next t => .next (f t)
  | .fault g => .fault g
  | .refused r => .refused r

/-- Two outcomes alike but for what the sniffer uses of their next states. -/
def AgreeButSniffer (o o' : Host.Outcome State Fault Refusal) : Prop :=
  ∃ v : State, o' = mapNext (·.withSniffer v) o

theorem mapNext_outcomeOf (f : State → State) (x : Except Fault State) :
    mapNext f (outcomeOf x) = outcomeOf (x.map f) := by
  cases x <;> rfl

theorem AgreeButSniffer.ite {c : Prop} [Decidable c] {o p o' p' : Host.Outcome State Fault Refusal}
    (ho : c → AgreeButSniffer o o') (hp : ¬ c → AgreeButSniffer p p') :
    AgreeButSniffer (if c then o else p) (if c then o' else p') := by
  by_cases hc : c
  · rw [if_pos hc, if_pos hc]; exact ho hc
  · rw [if_neg hc, if_neg hc]; exact hp hc

theorem AgreeButSniffer.outcomeOf {x x' : Except Fault State} {v : State}
    (h : x' = x.map (·.withSniffer v)) : AgreeButSniffer (outcomeOf x) (outcomeOf x') :=
  ⟨v, by rw [h, mapNext_outcomeOf]⟩

/-! ### The shared procedures -/

/-- `u` with IN_BREAK and IN_MAB replaced, as an operation that writes the two flags leaves them. -/
def State.withBreakMab (u : State) (b m : Bool) : State := u.setFlags (u.flags.setBreakMab b m)

section
variable (s u : State)

theorem State.takeByte_withSniffer (b : Byte) :
    (s.withSniffer u).takeByte b = (s.takeByte b).withSniffer u := by
  rw [State.takeByte_eq, State.takeByte_eq]
  rfl

theorem State.cancelResp_withSniffer :
    (s.withSniffer u).cancelResp = s.cancelResp.withSniffer u := by
  rw [State.cancelResp_eq, State.cancelResp_eq]
  rfl

theorem State.wakeIf_withSniffer (h : Bool) (n : BitVec 16) (k : PktKind) (e : ErrCode) :
    (s.withSniffer u).wakeIf h n k e = (s.wakeIf h n k e).withSniffer u := by
  rw [State.wakeIf_eq, State.wakeIf_eq]
  rfl

theorem State.endTransaction_withSniffer :
    (s.withSniffer u).endTransaction = s.endTransaction.withSniffer u := by
  have hsame : (s.withSniffer u).awaiting = s.awaiting := rfl
  unfold State.endTransaction
  rw [hsame]
  split
  · exact State.cancelResp_withSniffer (s.setFlags s.flags.endTx) u
  · rfl

theorem State.finish_withSniffer (k : PktKind) (e : ErrCode) :
    (s.withSniffer u).finish k e = (s.finish k e).withSniffer u := by
  unfold State.finish
  dsimp only
  rw [← State.wakeIf_withSniffer, ← State.endTransaction_withSniffer]
  rfl

theorem State.maskTxDataIfDone_withSniffer :
    (s.withSniffer u).maskTxDataIfDone = s.maskTxDataIfDone.withSniffer u := by
  rw [State.maskTxDataIfDone_eq, State.maskTxDataIfDone_eq]
  rfl

theorem classify_withSniffer : classify (s.withSniffer u) = classify s :=
  classify_congr rfl rfl rfl rfl

theorem kindOf_withSniffer : kindOf (s.withSniffer u) = kindOf s := rfl

theorem memReadMany_withSniffer (a k : Nat) :
    memReadMany (s.withSniffer u) a k = memReadMany s a k :=
  memReadMany_congr (s := s.withSniffer u) (s' := s) rfl fun _ _ => rfl

theorem expectsResponse_withSniffer : expectsResponse (s.withSniffer u) = expectsResponse s := by
  unfold expectsResponse
  simp only [memReadMany_withSniffer]
  rfl

theorem settleByte_withSniffer :
    settleByte (s.withSniffer u) = (settleByte s).map (·.withSniffer u) := by
  unfold settleByte
  rw [classify_withSniffer]
  split
  · rfl
  · rfl
  · exact congrArg Except.ok (State.finish_withSniffer s u _ _)

theorem rxByte_withSniffer (b : Byte) :
    rxByte (s.withSniffer u) b = (rxByte s b).map (·.withSniffer u) := by
  have hstate : (s.withSniffer u).rxState = s.rxState := rfl
  have hhead : (s.withSniffer u).head = s.head := rfl
  unfold rxByte
  rw [hstate, hhead, State.takeByte_withSniffer, State.cancelResp_withSniffer]
  split
  · rfl
  · split
    · rfl
    · exact settleByte_withSniffer _ u
  · split <;> rfl

theorem rxBytes_withSniffer : ∀ (p : List Byte) (s : State),
    rxBytes (s.withSniffer u) p = (rxBytes s p).map (·.withSniffer u)
  | [], _ => rfl
  | b :: bs, s => by
    simp only [rxBytes, rxByte_withSniffer]
    cases rxByte s b with
    | error f => rfl
    | ok t => exact rxBytes_withSniffer bs t

/-- A drain leaves IN_BREAK and IN_MAB clear. -/
theorem drain_withSniffer (p : List Byte) : drain (s.withSniffer u) p =
    (drain s p).map (·.withSniffer (u.withBreakMab false false)) :=
  rxBytes_withSniffer (u.withBreakMab false false) p
    (s.stampSlot.setFlags (s.flags.setBreakMab false false))

theorem finishIfReceiving_withSniffer (e : ErrCode) :
    finishIfReceiving (s.withSniffer u) e = (finishIfReceiving s e).map (·.withSniffer u) := by
  have hstate : (s.withSniffer u).rxState = s.rxState := rfl
  unfold finishIfReceiving
  rw [hstate, kindOf_withSniffer]
  split
  · split
    · rfl
    · exact congrArg Except.ok (State.finish_withSniffer s u _ e)
  · rfl

theorem push_withSniffer (k : Nat) :
    push (s.withSniffer u) k = (push s k).map (·.withSniffer u) := by
  have hhead : (s.withSniffer u).head = s.head := rfl
  have hcount : (s.withSniffer u).headNat = s.headNat := rfl
  unfold push
  rw [hhead, hcount, memReadMany_withSniffer]
  split
  · rfl
  · split <;> rfl

end

/-! ### The events of the engine -/

theorem execTimerAlarm_of_fault {s : State} {f : Fault} (h : s.timerMode = .mab)
    (hp : push (s.setFlags { s.flags with inMab := false }) (min s.cfg.txFifoCap s.txLeft) =
      .error f) : execTimerAlarm s = .fault f := by
  simp only [execTimerAlarm, h, hp]

section
variable (s u : State)

theorem execRxData_agree (p : List Byte) :
    AgreeButSniffer (execRxData p s) (execRxData p (s.withSniffer u)) :=
  .ite (fun _ => .outcomeOf (drain_withSniffer s u p)) fun _ => ⟨u, rfl⟩

theorem execRxTimeout_agree (p : List Byte) :
    AgreeButSniffer (execRxTimeout p s) (execRxTimeout p (s.withSniffer u)) :=
  .ite (fun _ => .outcomeOf (drain_withSniffer s u p)) fun _ => ⟨u, rfl⟩

theorem execRxBreak_agree : AgreeButSniffer (execRxBreak s) (execRxBreak (s.withSniffer u)) := by
  cases hon : s.lineOn .rxBreak with
  | false =>
    rw [execRxBreak_of_masked hon, execRxBreak_of_masked (s := s.withSniffer u) hon]
    exact ⟨u, rfl⟩
  | true =>
    rw [execRxBreak_of_lineOn hon, execRxBreak_of_lineOn (s := s.withSniffer u) hon]
    exact ⟨u.withBreakMab true false, rfl⟩

theorem drainGood_withSniffer (p : List Byte) :
    ∃ v, drainGood (s.withSniffer u) p = (drainGood s p).map (·.withSniffer v) := by
  unfold drainGood
  split
  · exact ⟨u, rfl⟩
  · exact ⟨_, drain_withSniffer s u p⟩

theorem execRxFramingErr_agree (p : List Byte) :
    AgreeButSniffer (execRxFramingErr p s) (execRxFramingErr p (s.withSniffer u)) := by
  cases hon : s.lineOn .rxFramingErr with
  | false =>
    rw [execRxFramingErr_of_masked hon, execRxFramingErr_of_masked (s := s.withSniffer u) hon]
    exact ⟨u, rfl⟩
  | true =>
    obtain ⟨v, hv⟩ := drainGood_withSniffer s u p
    cases ht : drainGood s p with
    | error f =>
      rw [ht] at hv
      rw [execRxFramingErr_of_fault hon ht, execRxFramingErr_of_fault (s := s.withSniffer u) hon hv]
      exact ⟨u, rfl⟩
    | ok t =>
      rw [ht] at hv
      rw [execRxFramingErr_of_drained hon ht,
        execRxFramingErr_of_drained (s := s.withSniffer u) hon hv]
      exact .outcomeOf (finishIfReceiving_withSniffer (t.emit .rxFifoReset) v _)

theorem execRxOverflow_agree :
    AgreeButSniffer (execRxOverflow s) (execRxOverflow (s.withSniffer u)) :=
  .ite (fun _ => .outcomeOf (finishIfReceiving_withSniffer (s.emit .rxFifoReset) u _))
    fun _ => ⟨u, rfl⟩

theorem execRxClash_agree : AgreeButSniffer (execRxClash s) (execRxClash (s.withSniffer u)) :=
  .ite (fun _ => .outcomeOf (finishIfReceiving_withSniffer s u _)) fun _ => ⟨u, rfl⟩

theorem execTxData_agree (space : BitVec 16) :
    AgreeButSniffer (execTxData space s) (execTxData space (s.withSniffer u)) := by
  have masked : ∀ t : State,
      AgreeButSniffer (.next t.maskTxDataIfDone) (.next (t.withSniffer u).maskTxDataIfDone) :=
    fun t => ⟨u, congrArg _ (State.maskTxDataIfDone_withSniffer t u)⟩
  refine .ite (fun _ => .ite (fun _ => ?_) fun _ => masked s) fun _ => ⟨u, rfl⟩
  have hleft : (s.withSniffer u).txLeft = s.txLeft := rfl
  rw [hleft, push_withSniffer]
  cases push s (min space.toNat s.txLeft) with
  | error f => exact ⟨u, rfl⟩
  | ok t => exact masked t

theorem execTxDone_agree : AgreeButSniffer (execTxDone s) (execTxDone (s.withSniffer u)) := by
  refine .ite (fun _ => .ite (fun _ => ⟨u, rfl⟩) fun _ => ?_) fun _ => ⟨u, rfl⟩
  rw [expectsResponse_withSniffer]
  cases expectsResponse s with
  | error f => exact ⟨u, rfl⟩
  | ok reply =>
    refine .ite (fun _ => ⟨u, ?_⟩) fun _ => ⟨u, ?_⟩
    · rw [State.turnaround_eq, State.turnaround_eq]
      rfl
    · rw [State.transmissionOver_eq, State.transmissionOver_eq]
      rfl

theorem execTimerAlarm_agree :
    AgreeButSniffer (execTimerAlarm s) (execTimerAlarm (s.withSniffer u)) := by
  cases hm : s.timerMode with
  | off =>
    rw [execTimerAlarm_of_off hm, execTimerAlarm_of_off (s := s.withSniffer u) hm]
    exact ⟨u, rfl⟩
  | brk =>
    rw [execTimerAlarm_of_brk hm, execTimerAlarm_of_brk (s := s.withSniffer u) hm]
    exact ⟨u.withBreakMab false true, rfl⟩
  | mab =>
    have hm' : (s.withSniffer u).timerMode = .mab := hm
    have hp := push_withSniffer (s.setFlags { s.flags with inMab := false })
      (u.withBreakMab u.flags.inBreak false) (min s.cfg.txFifoCap s.txLeft)
    cases ht : push (s.setFlags { s.flags with inMab := false })
        (min s.cfg.txFifoCap s.txLeft) with
    | error f =>
      rw [ht] at hp
      rw [execTimerAlarm_of_fault hm ht, execTimerAlarm_of_fault hm' hp]
      exact ⟨u, rfl⟩
    | ok t =>
      rw [ht] at hp
      rw [execTimerAlarm_of_mab hm ht, execTimerAlarm_of_mab hm' hp]
      exact ⟨u.withBreakMab u.flags.inBreak false, rfl⟩
  | resp =>
    have hm' : (s.withSniffer u).timerMode = .resp := hm
    cases ha : s.awaiting with
    | false =>
      rw [execTimerAlarm_of_resp hm ha, execTimerAlarm_of_resp hm' ha]
      exact ⟨u, rfl⟩
    | true =>
      rw [execTimerAlarm_of_awaiting hm ha, execTimerAlarm_of_awaiting hm' ha]
      exact ⟨u, rfl⟩

/-! ### The host commands -/

theorem execEnable_agree : AgreeButSniffer (execEnable s) (execEnable (s.withSniffer u)) := by
  refine .ite (fun _ => ⟨u, rfl⟩) fun _ => ⟨u, ?_⟩
  rw [State.enablePort_eq, State.enablePort_eq]
  rfl

theorem execDisable_agree : AgreeButSniffer (execDisable s) (execDisable (s.withSniffer u)) := by
  refine .ite (fun _ => ⟨u, ?_⟩) fun _ => ⟨u, rfl⟩
  dsimp only
  rw [State.wakeIf_eq, State.wakeIf_eq]
  rfl

theorem execBufWrite_agree (addr : BitVec 16) (data : Byte) :
    AgreeButSniffer (execBufWrite addr data s) (execBufWrite addr data (s.withSniffer u)) :=
  .ite (fun _ => ⟨u, rfl⟩) fun _ => .ite (fun _ => ⟨u, rfl⟩) fun _ => ⟨u, rfl⟩

theorem execBufRead_agree (addr : BitVec 16) :
    AgreeButSniffer (execBufRead addr s) (execBufRead addr (s.withSniffer u)) := by
  have hread : memRead (s.withSniffer u) addr.toNat = memRead s addr.toNat := rfl
  refine .ite (fun _ => ⟨u, rfl⟩) fun _ => ?_
  rw [hread]
  cases memRead s addr.toNat <;> exact ⟨u, rfl⟩

theorem execTxStart_agree (n : BitVec 16) :
    AgreeButSniffer (execTxStart n s) (execTxStart n (s.withSniffer u)) := by
  refine .ite (fun _ => ⟨u, rfl⟩) fun _ => .ite (fun _ => ⟨u, rfl⟩) fun _ => ?_
  rw [memReadMany_withSniffer]
  cases memReadMany s 0 n.toNat with
  | error f => exact ⟨u, rfl⟩
  | ok bs =>
    refine ⟨u.withBreakMab true false, ?_⟩
    rw [State.startTx_eq, State.startTx_eq]
    rfl

theorem execRxArm_agree : AgreeButSniffer (execRxArm s) (execRxArm (s.withSniffer u)) :=
  .ite (fun _ => ⟨u, rfl⟩) fun _ => .ite (fun _ => ⟨u, rfl⟩) fun _ => ⟨u, rfl⟩

theorem execWait_agree (c : WaitCond) :
    AgreeButSniffer (execWait c s) (execWait c (s.withSniffer u)) := by
  cases c with
  | rx => exact .ite (fun _ => ⟨u, rfl⟩) fun _ => ⟨u, rfl⟩
  | idle => exact .ite (fun _ => ⟨u, rfl⟩) fun _ => ⟨u, rfl⟩

theorem execAbort_agree : AgreeButSniffer (execAbort s) (execAbort (s.withSniffer u)) := by
  refine .ite (fun _ => ⟨u, ?_⟩) fun _ => ⟨u, rfl⟩
  rw [State.cancelResp_eq, State.cancelResp_eq]
  rfl

/-- An engine operation ends alike whatever the sniffer uses of the state holds. -/
theorem exec_agree {i : Instr} (hi : i.isEngine = true) :
    AgreeButSniffer (exec i s) (exec i (s.withSniffer u)) := by
  cases i with
  | rxData p => exact execRxData_agree s u p
  | rxTimeout p => exact execRxTimeout_agree s u p
  | rxBreak => exact execRxBreak_agree s u
  | rxFramingErr p => exact execRxFramingErr_agree s u p
  | rxOverflow => exact execRxOverflow_agree s u
  | rxClash => exact execRxClash_agree s u
  | txData space => exact execTxData_agree s u space
  | txDone => exact execTxDone_agree s u
  | timerAlarm => exact execTimerAlarm_agree s u
  | enable => exact execEnable_agree s u
  | disable => exact execDisable_agree s u
  | setBreakLen | setMabLen | setBaud | waitCancel | rxConsume | setTn => exact ⟨u, rfl⟩
  | bufWrite addr data => exact execBufWrite_agree s u addr data
  | bufRead addr => exact execBufRead_agree s u addr
  | txStart n => exact execTxStart_agree s u n
  | rxArm => exact execRxArm_agree s u
  | wait c => exact execWait_agree s u c
  | abort => exact execAbort_agree s u
  | gpioNegedge | gpioPosedge | readReg | snifferCtrl | snifferPop => cases hi

end

/-- Settles O22: what the next state keeps of the sniffer's is all the two next states differ in. -/
theorem snifferNeverAffectsTheEngine : Obligations.SnifferNeverAffectsTheEngine := by
  intro i s u hi
  obtain ⟨v, hv⟩ := exec_agree s u hi
  refine ⟨fun t ht => ⟨t.withSniffer v, ?_, rfl⟩, fun f hf => ?_⟩
  · rw [hv, ht]; rfl
  · rw [hv, hf]; rfl

end Sys2Proof.Machine
end

section
/-! PROOFS. The operation word (30_encoding.md R58 to R63): the fields of a word that is put together, the
records each format accepts, and that decoding, framing and encoding agree. -/

namespace Sys2Proof

/-! ### The fields of a word (30_encoding.md R59) -/

section
variable (opc : BitVec 8) (arg : BitVec 24)

@[simp] theorem opcOf_mkWord : opcOf (mkWord opc arg) = opc := BitVec.extractLsb'_append_eq_left

@[simp] theorem argOf_mkWord : argOf (mkWord opc arg) = arg := BitVec.extractLsb'_append_eq_right

@[simp] theorem argByte_mkWord : argByte (mkWord opc arg) = arg.extractLsb' 0 8 := by
  rw [argByte, argOf_mkWord]

@[simp] theorem argHalf_mkWord : argHalf (mkWord opc arg) = arg.extractLsb' 0 16 := by
  rw [argHalf, argOf_mkWord]

@[simp] theorem argAddr_mkWord : argAddr (mkWord opc arg) = arg.extractLsb' 8 16 := by
  rw [argAddr, argOf_mkWord]

end

/-- A pattern is its upper part and its lower part, put together. -/
theorem eq_append_of_extract {m n : Nat} {v : BitVec (m + n)} {hi : BitVec m} {lo : BitVec n}
    (hhi : v.extractLsb' n m = hi) (hlo : v.extractLsb' 0 n = lo) : v = hi ++ lo := by
  rw [← hhi, ← hlo, BitVec.extractLsb'_append_extractLsb'_eq_extractLsb' (by simp),
    BitVec.extractLsb'_eq_self]

theorem eq_mkWord {w : Word} {opc : BitVec 8} {arg : BitVec 24} (ho : opcOf w = opc)
    (ha : argOf w = arg) : w = mkWord opc arg := eq_append_of_extract ho ha

/-! ### What each format accepts (30_encoding.md R60, R65) -/

/-- The unused bytes of the last payload word are all zero. -/
abbrev ZeroPadded (op : RawOp) : Prop := ∀ b ∈ op.pad, b = 0

/-- A check that is passed lets the rest decide. -/
theorem ite_error_eq_ok {c : Prop} [Decidable c] {e : DecodeError} {x : Except DecodeError Instr}
    {j : Instr} : (if c then .error e else x) = .ok j ↔ ¬ c ∧ x = .ok j := by
  by_cases hc : c <;> simp [hc]

section
variable {op : RawOp}

theorem noExtra_ok_iff {i j : Instr} :
    noExtra op i = .ok j ↔ op.x = none ∧ op.p = [] ∧ ZeroPadded op ∧ i = j := by
  simp only [noExtra, ite_error_eq_ok]
  simp [ZeroPadded]

theorem readBare_ok_iff {i j : Instr} :
    readBare op i = .ok j ↔ argOf op.w = 0 ∧ op.x = none ∧ op.p = [] ∧ ZeroPadded op ∧ i = j := by
  rw [readBare, ite_error_eq_ok, not_not, noExtra_ok_iff]

theorem readBytes_ok_iff {lo hi : Nat} {mk : List Byte → Instr} {j : Instr} :
    readBytes op lo hi mk = .ok j ↔ argAddr op.w = 0 ∧ op.x = none ∧
      op.p.length = (argByte op.w).toNat ∧ ZeroPadded op ∧ (lo ≤ op.p.length ∧ op.p.length ≤ hi) ∧
      mk op.p = j := by
  simp only [readBytes, ite_error_eq_ok]
  simp [ZeroPadded]

theorem readSpace_ok_iff {hi : Nat} {j : Instr} :
    readSpace op hi = .ok j ↔ (argOf op.w).extractLsb' 16 8 = 0 ∧ op.x = none ∧ op.p = [] ∧
      ZeroPadded op ∧ (1 ≤ (argHalf op.w).toNat ∧ (argHalf op.w).toNat ≤ hi) ∧
      .txData (argHalf op.w) = j := by
  rw [readSpace, ite_error_eq_ok, not_not]
  cases hn : noExtra op (.txData (argHalf op.w)) with
  | error e =>
    have refused : ¬ (op.x = none ∧ op.p = [] ∧ ZeroPadded op) := fun ⟨hx, hp, hz⟩ => by
      have := noExtra_ok_iff.mpr ⟨hx, hp, hz, (rfl : Instr.txData (argHalf op.w) = _)⟩
      rw [hn] at this
      cases this
    simp only [reduceCtorEq, and_false, false_iff]
    exact fun ⟨_, hx, hp, hz, _⟩ => refused ⟨hx, hp, hz⟩
  | ok i =>
    obtain ⟨hx, hp, hz, rfl⟩ := noExtra_ok_iff.mp hn
    have hzero : ZeroPadded op = True := eq_true hz
    simp only [ite_error_eq_ok]
    simp [hx, hp, hzero, Nat.one_le_iff_ne_zero]

theorem readExtended_ok_iff {mk : BitVec 32 → Instr} {j : Instr} :
    readExtended op mk = .ok j ↔
      argOf op.w = 0 ∧ ∃ v, op.x = some v ∧ op.p = [] ∧ ZeroPadded op ∧ mk v = j := by
  rw [readExtended, ite_error_eq_ok, not_not]
  cases hx : op.x with
  | none => simp
  | some v =>
    simp only [ite_error_eq_ok]
    simp [ZeroPadded]

theorem readAddr_ok_iff {j : Instr} :
    readAddr op = .ok j ↔ argByte op.w = 0 ∧ op.x = none ∧ op.p = [] ∧ ZeroPadded op ∧
      .bufRead (argAddr op.w) = j := by
  rw [readAddr, ite_error_eq_ok, not_not, noExtra_ok_iff]

theorem readCount_ok_iff {j : Instr} :
    readCount op = .ok j ↔ (argOf op.w).extractLsb' 16 8 = 0 ∧ op.x = none ∧ op.p = [] ∧
      ZeroPadded op ∧ .txStart (argHalf op.w) = j := by
  rw [readCount, ite_error_eq_ok, not_not, noExtra_ok_iff]

theorem readByteArg_ok_iff {mk : Byte → Instr} {j : Instr} :
    readByteArg op mk = .ok j ↔ argAddr op.w = 0 ∧ op.x = none ∧ op.p = [] ∧ ZeroPadded op ∧
      mk (argByte op.w) = j := by
  rw [readByteArg, ite_error_eq_ok, not_not, noExtra_ok_iff]

theorem readBitArg_ok_iff {mk : Bool → Instr} {j : Instr} :
    readBitArg op mk = .ok j ↔ (argOf op.w).extractLsb' 1 23 = 0 ∧ op.x = none ∧ op.p = [] ∧
      ZeroPadded op ∧ mk ((argOf op.w).getLsbD 0) = j := by
  rw [readBitArg, ite_error_eq_ok, not_not, noExtra_ok_iff]

end

/-! ### Decoding what the encoder writes -/

section
variable (b : Byte) (h : BitVec 16) (f : Bool)

@[simp] theorem extract_addr_append : (h ++ b : BitVec 24).extractLsb' 8 16 = h :=
  BitVec.extractLsb'_append_eq_left

@[simp] theorem extract_byte_append : (h ++ b : BitVec 24).extractLsb' 0 8 = b :=
  BitVec.extractLsb'_append_eq_right

@[simp] theorem extract_top_append : (b ++ h : BitVec 24).extractLsb' 16 8 = b :=
  BitVec.extractLsb'_append_eq_left

@[simp] theorem extract_half_append : (b ++ h : BitVec 24).extractLsb' 0 16 = h :=
  BitVec.extractLsb'_append_eq_right

@[simp] theorem extract_rest_append (r : BitVec 23) :
    (r ++ BitVec.ofBool f : BitVec 24).extractLsb' 1 23 = r := BitVec.extractLsb'_append_eq_left

@[simp] theorem getElem_bit_append (r : BitVec 23) :
    (r ++ BitVec.ofBool f : BitVec 24)[0] = f := by
  have h := BitVec.getLsbD_append (x := r) (y := BitVec.ofBool f) (i := 0)
  simpa using h

end

/-- The record that spells an operation, with padding. -/
def encodePadded (i : Instr) (pad : List Byte) : RawOp := { encode i with pad := pad }

/-- A record that spells a well-formed operation decodes to it, whatever its zero padding. -/
theorem decode_encodePadded {c : Config} {i : Instr} {pad : List Byte} (hc : c.Valid)
    (hw : WellFormed c i = true) (hz : ZeroPadded (encodePadded i pad)) :
    decode c (encodePadded i pad) = .ok i := by
  obtain ⟨-, -, -, ⟨-, hfifo⟩, -⟩ := hc
  cases i with
  | rxData p | rxTimeout p | rxFramingErr p =>
    simp only [WellFormed, decide_eq_true_eq] at hw
    have hlen : p.length = p.length % 256 := (Nat.mod_eq_of_lt (by omega)).symm
    simpa [decode, encodePadded, encode, readBytes_ok_iff, hw, ← hlen] using hz
  | txData space =>
    simp only [WellFormed, decide_eq_true_eq] at hw
    simpa [decode, encodePadded, encode, readSpace_ok_iff, hw] using hz
  | rxBreak | rxOverflow | rxClash | txDone | timerAlarm | gpioNegedge | gpioPosedge =>
    simpa [decode, encodePadded, encode, readBare_ok_iff] using hz
  | enable | disable | rxArm | waitCancel | rxConsume | abort | snifferPop =>
    simpa [decode, encodePadded, encode, readBare_ok_iff] using hz
  | setBreakLen v | setMabLen v | setBaud v =>
    simpa [decode, encodePadded, encode, readExtended_ok_iff] using hz
  | bufWrite addr data =>
    simpa [decode, encodePadded, encode, readAddrData, noExtra_ok_iff] using hz
  | bufRead addr => simpa [decode, encodePadded, encode, readAddr_ok_iff] using hz
  | txStart n => simpa [decode, encodePadded, encode, readCount_ok_iff] using hz
  | wait cond =>
    cases cond <;> simpa [decode, encodePadded, encode, readBitArg_ok_iff, waitOfBit] using hz
  | setTn v | readReg v => simpa [decode, encodePadded, encode, readByteArg_ok_iff] using hz
  | snifferCtrl b => simpa [decode, encodePadded, encode, readBitArg_ok_iff] using hz

/-- Settles O2: the encoder writes no padding. -/
theorem decodeInvertsEncode : Obligations.DecodeInvertsEncode := by
  intro c i hc hw
  have hpad : encode i = encodePadded i [] := by cases i <;> rfl
  rw [hpad]
  exact decode_encodePadded hc hw nofun

/-! ### Framing (30_encoding.md R63) -/

theorem wordBytes_packWord (b0 b1 b2 b3 : Byte) :
    wordBytes (packWord b0 b1 b2 b3) = [b0, b1, b2, b3] := by
  have hword : (packWord b0 b1 b2 b3).toNat =
      b3.toNat * 2 ^ 24 + (b2.toNat * 2 ^ 16 + (b1.toNat * 2 ^ 8 + b0.toNat)) := by
    simp only [packWord, Machine.toNat_append_eq_add]
  simp only [wordBytes, ← BitVec.toNat_inj, BitVec.extractLsb'_toNat, Nat.shiftRight_eq_div_pow,
    List.cons.injEq, and_true, hword]
  omega

/-- Unpacking gives the packed payload back, and zeros to the end of its last word. -/
theorem unpackWords_packWords : ∀ p : List Byte,
    ∃ pad, unpackWords (packWords p) = p ++ pad ∧ ∀ b ∈ pad, b = 0
  | [] => ⟨[], rfl, nofun⟩
  | [b0] => ⟨[0, 0, 0], by simp [packWords, unpackWords, wordBytes_packWord], by simp⟩
  | [b0, b1] => ⟨[0, 0], by simp [packWords, unpackWords, wordBytes_packWord], by simp⟩
  | [b0, b1, b2] => ⟨[0], by simp [packWords, unpackWords, wordBytes_packWord], by simp⟩
  | b0 :: b1 :: b2 :: b3 :: rest => by
    obtain ⟨pad, hpad, hz⟩ := unpackWords_packWords rest
    exact ⟨pad, by simp [packWords, unpackWords, wordBytes_packWord, hpad], hz⟩

/-- A payload of format EB: the words after the operation word are its packed bytes. -/
theorem frameWords_bytes {w : Word} {p : List Byte} (rest : List Word) (hx : isExtended w = false)
    (hn : (argByte w).toNat = p.length) (ha : wordsAfter w = ((argByte w).toNat + 3) / 4) :
    ∃ pad, frameWords (w :: (packWords p ++ rest)) = some (⟨w, none, p, pad⟩, rest) ∧
      ∀ b ∈ pad, b = 0 := by
  obtain ⟨pad, hpad, hz⟩ := unpackWords_packWords p
  have hlen : wordsAfter w = (packWords p).length := by rw [ha, hn, Laws.packWords_length]
  refine ⟨pad, ?_, hz⟩
  simp [frameWords, hx, hlen, hn, hpad]

/-- No word follows the operation word of any other format but CX. -/
theorem frameWords_bare {w : Word} (rest : List Word) (hx : isExtended w = false)
    (ha : wordsAfter w = 0) : frameWords (w :: rest) = some (⟨w, none, [], []⟩, rest) := by
  simp [frameWords, hx, ha, unpackWords]

/-- The words of an operation frame to its record, with zero padding. -/
theorem frameWords_encodeWords {c : Config} {i : Instr} (rest : List Word) (hc : c.Valid)
    (hw : WellFormed c i = true) :
    ∃ pad, frameWords (encodeWords i ++ rest) = some (encodePadded i pad, rest) ∧
      ∀ b ∈ pad, b = 0 := by
  obtain ⟨-, -, -, ⟨-, hfifo⟩, -⟩ := hc
  cases i with
  | rxData p | rxTimeout p | rxFramingErr p =>
    simp only [WellFormed, decide_eq_true_eq] at hw
    have hlen : p.length % 256 = p.length := Nat.mod_eq_of_lt (by omega)
    exact frameWords_bytes rest (by simp [encode, isExtended]) (by simp [encode, hlen])
      (by simp [encode, wordsAfter])
  | setBreakLen v | setMabLen v | setBaud v =>
    exact ⟨[], by simp [encodeWords, encodePadded, encode, packWords, frameWords, isExtended], nofun⟩
  | _ =>
    exact ⟨[], frameWords_bare rest (by simp [encode, isExtended]) (by simp [encode, wordsAfter]),
      nofun⟩

/-- Settles O3. -/
theorem serialStreamGivesOperationsBack : Obligations.SerialStreamGivesOperationsBack := by
  intro c i rest hc hw
  obtain ⟨pad, hframe, hz⟩ := frameWords_encodeWords rest hc hw
  exact ⟨encodePadded i pad, hframe, decode_encodePadded hc hw hz⟩

/-! ### One spelling (30_encoding.md R62, R65, R67) -/

/-- `i` is well-formed and the record is the one the encoder writes for it, with zero padding. -/
abbrev SpelledBy (c : Config) (op : RawOp) (i : Instr) : Prop :=
  WellFormed c i = true ∧ encode i = { op with pad := [] } ∧ ZeroPadded op

section
variable {c : Config} {op : RawOp} {j : Instr} (opc : BitVec 8)
  (hop : (opcOf op.w).toNat = opc.toNat)
include hop

/-- A record with the operation code `opc` whose ARG is known. -/
theorem word_eq {arg : BitVec 24} (ha : argOf op.w = arg) : op.w = mkWord opc arg :=
  eq_mkWord (BitVec.eq_of_toNat_eq hop) ha

theorem readBare_spelled {i : Instr} (hwf : WellFormed c i = true)
    (henc : encode i = ⟨mkWord opc 0, none, [], []⟩) (h : readBare op i = .ok j) :
    SpelledBy c op j := by
  obtain ⟨ha, hx, hp, hz, rfl⟩ := readBare_ok_iff.mp h
  exact ⟨hwf, by rw [henc, ← word_eq opc hop ha, ← hx, ← hp], hz⟩

theorem readBytes_spelled {lo hi : Nat} {mk : List Byte → Instr}
    (hwf : ∀ p : List Byte, lo ≤ p.length ∧ p.length ≤ hi → WellFormed c (mk p) = true)
    (henc : ∀ p, encode (mk p) = ⟨mkWord opc (0#16 ++ BitVec.ofNat 8 p.length), none, p, []⟩)
    (h : readBytes op lo hi mk = .ok j) : SpelledBy c op j := by
  obtain ⟨ha, hx, hl, hz, hr, rfl⟩ := readBytes_ok_iff.mp h
  have harg : argOf op.w = 0#16 ++ argByte op.w := eq_append_of_extract (m := 16) (n := 8) ha rfl
  refine ⟨hwf op.p hr, ?_, hz⟩
  rw [henc, hl, BitVec.ofNat_toNat, BitVec.setWidth_eq, ← word_eq opc hop harg, ← hx]

theorem readExtended_spelled {mk : BitVec 32 → Instr} (hwf : ∀ v, WellFormed c (mk v) = true)
    (henc : ∀ v, encode (mk v) = ⟨mkWord opc 0, some v, [], []⟩)
    (h : readExtended op mk = .ok j) : SpelledBy c op j := by
  obtain ⟨ha, v, hx, hp, hz, rfl⟩ := readExtended_ok_iff.mp h
  exact ⟨hwf v, by rw [henc, ← word_eq opc hop ha, ← hx, ← hp], hz⟩

theorem readByteArg_spelled {mk : Byte → Instr} (hwf : ∀ v, WellFormed c (mk v) = true)
    (henc : ∀ v, encode (mk v) = ⟨mkWord opc (0#16 ++ v), none, [], []⟩)
    (h : readByteArg op mk = .ok j) : SpelledBy c op j := by
  obtain ⟨ha, hx, hp, hz, rfl⟩ := readByteArg_ok_iff.mp h
  have harg : argOf op.w = 0#16 ++ argByte op.w := eq_append_of_extract (m := 16) (n := 8) ha rfl
  exact ⟨hwf _, by rw [henc, ← word_eq opc hop harg, ← hx, ← hp], hz⟩

theorem readBitArg_spelled {mk : Bool → Instr} (hwf : ∀ b, WellFormed c (mk b) = true)
    (henc : ∀ b, encode (mk b) = ⟨mkWord opc (0#23 ++ BitVec.ofBool b), none, [], []⟩)
    (h : readBitArg op mk = .ok j) : SpelledBy c op j := by
  obtain ⟨ha, hx, hp, hz, rfl⟩ := readBitArg_ok_iff.mp h
  have hbit : (argOf op.w).extractLsb' 0 1 = BitVec.ofBool ((argOf op.w).getLsbD 0) := by
    ext k hk
    obtain rfl : k = 0 := by omega
    simp
  have harg : argOf op.w = 0#23 ++ BitVec.ofBool ((argOf op.w).getLsbD 0) :=
    eq_append_of_extract (m := 23) (n := 1) ha hbit
  exact ⟨hwf _, by rw [henc, ← word_eq opc hop harg, ← hx, ← hp], hz⟩

end

section
variable {c : Config} {op : RawOp} {j : Instr}

theorem readSpace_spelled (hop : (opcOf op.w).toNat = 0x16)
    (h : readSpace op c.txFifoCap = .ok j) : SpelledBy c op j := by
  obtain ⟨ha, hx, hp, hz, hr, rfl⟩ := readSpace_ok_iff.mp h
  have harg : argOf op.w = 0#8 ++ argHalf op.w := eq_append_of_extract (m := 8) (n := 16) ha rfl
  exact ⟨by simpa [WellFormed] using hr,
    by rw [encode, ← word_eq 0x16 hop harg, ← hx, ← hp], hz⟩

theorem readAddrData_spelled (hop : (opcOf op.w).toNat = 0x85) (h : readAddrData op = .ok j) :
    SpelledBy c op j := by
  obtain ⟨hx, hp, hz, rfl⟩ := noExtra_ok_iff.mp h
  have harg : argOf op.w = argAddr op.w ++ argByte op.w :=
    eq_append_of_extract (m := 16) (n := 8) rfl rfl
  exact ⟨rfl, by rw [encode, ← word_eq 0x85 hop harg, ← hx, ← hp], hz⟩

theorem readAddr_spelled (hop : (opcOf op.w).toNat = 0x86) (h : readAddr op = .ok j) :
    SpelledBy c op j := by
  obtain ⟨ha, hx, hp, hz, rfl⟩ := readAddr_ok_iff.mp h
  have harg : argOf op.w = argAddr op.w ++ 0#8 :=
    eq_append_of_extract (m := 16) (n := 8) rfl ha
  exact ⟨rfl, by rw [encode, ← word_eq 0x86 hop harg, ← hx, ← hp], hz⟩

theorem readCount_spelled (hop : (opcOf op.w).toNat = 0x87) (h : readCount op = .ok j) :
    SpelledBy c op j := by
  obtain ⟨ha, hx, hp, hz, rfl⟩ := readCount_ok_iff.mp h
  have harg : argOf op.w = 0#8 ++ argHalf op.w := eq_append_of_extract (m := 8) (n := 16) ha rfl
  exact ⟨rfl, by rw [encode, ← word_eq 0x87 hop harg, ← hx, ← hp], hz⟩

end

/-- Settles O4: each arm of the decoder accepts one spelling of its operations. -/
theorem acceptedOperationHasOneSpelling : Obligations.AcceptedOperationHasOneSpelling := by
  intro c op j _ h
  unfold decode at h
  split at h
  · next hop =>
    exact readBytes_spelled 0x10 hop (fun p hr => by simpa [WellFormed] using hr) (fun _ => rfl) h
  · next hop =>
    exact readBytes_spelled 0x11 hop (fun p hr => by simpa [WellFormed] using hr) (fun _ => rfl) h
  · next hop => exact readBare_spelled 0x12 hop rfl rfl h
  · next hop =>
    exact readBytes_spelled 0x13 hop (fun p hr => by simpa [WellFormed] using hr) (fun _ => rfl) h
  · next hop => exact readBare_spelled 0x14 hop rfl rfl h
  · next hop => exact readBare_spelled 0x15 hop rfl rfl h
  · next hop => exact readSpace_spelled hop h
  · next hop => exact readBare_spelled 0x17 hop rfl rfl h
  · next hop => exact readBare_spelled 0x20 hop rfl rfl h
  · next hop => exact readBare_spelled 0x30 hop rfl rfl h
  · next hop => exact readBare_spelled 0x31 hop rfl rfl h
  · next hop => exact readBare_spelled 0x80 hop rfl rfl h
  · next hop => exact readBare_spelled 0x81 hop rfl rfl h
  · next hop => exact readExtended_spelled 0x82 hop (fun _ => rfl) (fun _ => rfl) h
  · next hop => exact readExtended_spelled 0x83 hop (fun _ => rfl) (fun _ => rfl) h
  · next hop => exact readExtended_spelled 0x84 hop (fun _ => rfl) (fun _ => rfl) h
  · next hop => exact readAddrData_spelled hop h
  · next hop => exact readAddr_spelled hop h
  · next hop => exact readCount_spelled hop h
  · next hop => exact readBare_spelled 0x88 hop rfl rfl h
  · next hop =>
    exact readBitArg_spelled (c := c) (mk := waitOfBit) 0x89 hop (fun b => by cases b <;> rfl)
      (fun b => by cases b <;> rfl) h
  · next hop => exact readBare_spelled 0x8A hop rfl rfl h
  · next hop => exact readBare_spelled 0x8B hop rfl rfl h
  · next hop => exact readBare_spelled 0x8C hop rfl rfl h
  · next hop => exact readByteArg_spelled 0x8D hop (fun _ => rfl) (fun _ => rfl) h
  · next hop => exact readByteArg_spelled 0x8E hop (fun _ => rfl) (fun _ => rfl) h
  · next hop => exact readBitArg_spelled 0x8F hop (fun _ => rfl) (fun _ => rfl) h
  · next hop => exact readBare_spelled 0x90 hop rfl rfl h
  · cases h

/-! ### The opcode table (30_encoding.md R62, R65) -/

section
variable {m n : Nat}

theorem exists_append (v : BitVec (m + n)) :
    ∃ (hi : BitVec m) (lo : BitVec n), v = hi ++ lo := ⟨_, _, eq_append_of_extract rfl rfl⟩

/-- Masking the lower part away leaves nothing exactly where the upper part is zero. -/
theorem and_upper_eq_zero_iff {v : BitVec (m + n)} :
    v &&& (BitVec.allOnes m ++ 0#n) = 0 ↔ v.extractLsb' n m = 0 := by
  obtain ⟨hi, lo, rfl⟩ := exists_append v
  have hzero : (0 : BitVec (m + n)) = 0#m ++ 0#n := BitVec.zero_append_zero.symm
  rw [BitVec.and_append, BitVec.and_allOnes, BitVec.and_zero, BitVec.extractLsb'_append_eq_left,
    hzero, BitVec.append_left_inj]
  rfl

/-- Masking the upper part away leaves nothing exactly where the lower part is zero. -/
theorem and_lower_eq_zero_iff {v : BitVec (m + n)} :
    v &&& (0#m ++ BitVec.allOnes n) = 0 ↔ v.extractLsb' 0 n = 0 := by
  obtain ⟨hi, lo, rfl⟩ := exists_append v
  have hzero : (0 : BitVec (m + n)) = 0#m ++ 0#n := BitVec.zero_append_zero.symm
  rw [BitVec.and_append, BitVec.and_allOnes, BitVec.and_zero, BitVec.extractLsb'_append_eq_right,
    hzero, BitVec.append_right_inj]
  rfl

end

theorem mkWord_inj {opc opc' : BitVec 8} {arg arg' : BitVec 24} :
    mkWord opc arg = mkWord opc' arg' ↔ opc = opc' ∧ arg = arg' := by
  constructor
  · intro h
    have ho := congrArg opcOf h
    have ha := congrArg argOf h
    simp only [opcOf_mkWord, argOf_mkWord] at ho ha
    exact ⟨ho, ha⟩
  · rintro ⟨rfl, rfl⟩; rfl

theorem mkWord_and (opc : BitVec 8) (arg mask : BitVec 24) :
    mkWord opc arg &&& mkWord 0xFF mask = mkWord opc (arg &&& mask) := by
  have hones : (0xFF : BitVec 8) = BitVec.allOnes 8 := rfl
  rw [hones]
  exact BitVec.and_append.trans (by rw [BitVec.and_allOnes, mkWord])

/-- `W[7:0]` and `W[15:0]` as numbers. -/
theorem and_byte_toNat (w : Word) : (w &&& 0xFF).toNat = (argByte w).toNat := by
  have hmask : (w &&& 0xFF).toNat = w.toNat % 2 ^ 8 :=
    (BitVec.toNat_and w 0xFF).trans (Nat.and_two_pow_sub_one_eq_mod w.toNat 8)
  simp only [hmask, argByte, argOf, BitVec.extractLsb'_toNat, Nat.shiftRight_zero]
  omega

theorem and_half_toNat (w : Word) : (w &&& 0xFFFF).toNat = (argHalf w).toNat := by
  have hmask : (w &&& 0xFFFF).toNat = w.toNat % 2 ^ 16 :=
    (BitVec.toNat_and w 0xFFFF).trans (Nat.and_two_pow_sub_one_eq_mod w.toNat 16)
  simp only [hmask, argHalf, argOf, BitVec.extractLsb'_toNat, Nat.shiftRight_zero]
  omega

end Sys2Proof

namespace Sys2Proof.Machine

/-- Each row masks OPC in full and its value holds no bit of ARG. -/
theorem opcodeRows_masks : ∀ r ∈ opcodeRows,
    r.mask = mkWord 0xFF (argOf r.mask) ∧ r.value = mkWord (opcOf r.value) 0 := by decide

/-- No two rows share an OPC. -/
theorem opcodeRows_distinct : ∀ r ∈ opcodeRows, ∀ r' ∈ opcodeRows,
    opcOf r.value = opcOf r'.value → r = r' := by decide

theorem opcodeRows_codes : ∀ r ∈ opcodeRows, (opcOf r.value).toNat ∈
    [0x10, 0x11, 0x12, 0x13, 0x14, 0x15, 0x16, 0x17, 0x20, 0x30, 0x31, 0x80, 0x81, 0x82, 0x83, 0x84,
      0x85, 0x86, 0x87, 0x88, 0x89, 0x8A, 0x8B, 0x8C, 0x8D, 0x8E, 0x8F, 0x90] := by decide

/-- A word meets a row's masked bits where its OPC is the row's and the masked bits of ARG are zero. -/
theorem meets_row_iff {r : OpcodeRow} (hr : r ∈ opcodeRows) (w : Word) :
    w &&& r.mask = r.value ↔ opcOf w = opcOf r.value ∧ argOf w &&& argOf r.mask = 0 := by
  obtain ⟨hm, hv⟩ := opcodeRows_masks r hr
  rw [eq_mkWord (w := w) rfl rfl, hm, hv, mkWord_and, mkWord_inj]
  simp

section
variable {c : Config} {op : RawOp}

theorem row_accepts {r : OpcodeRow} {x : Except DecodeError Instr} (hr : r ∈ opcodeRows)
    (hop : (opcOf op.w).toNat = (opcOf r.value).toNat)
    (hx : (∃ j, x = .ok j) ↔
      ZeroPadded op ∧ argOf op.w &&& argOf r.mask = 0 ∧ RowShape.fits c op r.shape) :
    (∃ j, x = .ok j) ↔ (∀ b ∈ op.pad, b = 0) ∧
      ∃ r' ∈ opcodeRows, op.w &&& r'.mask = r'.value ∧ RowShape.fits c op r'.shape := by
  have hopc : opcOf op.w = opcOf r.value := BitVec.eq_of_toNat_eq hop
  refine hx.trans (and_congr_right fun _ => ⟨fun ⟨hm, hf⟩ => ?_, fun ⟨r', hr', hm, hf⟩ => ?_⟩)
  · exact ⟨r, hr, (meets_row_iff hr op.w).mpr ⟨hopc, hm⟩, hf⟩
  · obtain ⟨ho, ha⟩ := (meets_row_iff hr' op.w).mp hm
    obtain rfl := opcodeRows_distinct r hr r' hr' (hopc.symm.trans ho)
    exact ⟨ha, hf⟩

/-! Each format accepts what a row of its shape and mask asks for. -/

theorem readBare_accepts {i : Instr} : (∃ j, readBare op i = .ok j) ↔
    ZeroPadded op ∧ argOf op.w &&& 0xFFFFFF = 0 ∧ RowShape.fits c op .plain := by
  have hmask : argOf op.w &&& 0xFFFFFF = argOf op.w := BitVec.and_allOnes
  simp only [readBare_ok_iff, hmask, RowShape.fits, exists_and_left, exists_eq', and_true]
  tauto

theorem readExtended_accepts {mk : BitVec 32 → Instr} : (∃ j, readExtended op mk = .ok j) ↔
    ZeroPadded op ∧ argOf op.w &&& 0xFFFFFF = 0 ∧ RowShape.fits c op .extended := by
  have hmask : argOf op.w &&& 0xFFFFFF = argOf op.w := BitVec.and_allOnes
  simp only [readExtended_ok_iff, hmask, RowShape.fits]
  cases op.x with
  | none => simp
  | some v => simp; tauto

theorem readBytes_accepts {lo hi slack : Nat} {mk : List Byte → Instr}
    (hhi : c.rxFifoCap - slack = hi) : (∃ j, readBytes op lo hi mk = .ok j) ↔
      ZeroPadded op ∧ argOf op.w &&& 0xFFFF00 = 0 ∧ RowShape.fits c op (.bytes lo slack) := by
  have hmask : argOf op.w &&& 0xFFFF00 = 0 ↔ argAddr op.w = 0 :=
    and_upper_eq_zero_iff (m := 16) (n := 8)
  simp only [readBytes_ok_iff, hmask, RowShape.fits, hhi, and_byte_toNat, exists_and_left, exists_eq',
    and_true]
  tauto

theorem readSpace_accepts : (∃ j, readSpace op c.txFifoCap = .ok j) ↔
    ZeroPadded op ∧ argOf op.w &&& 0xFF0000 = 0 ∧ RowShape.fits c op .room := by
  have hmask : argOf op.w &&& 0xFF0000 = 0 ↔ (argOf op.w).extractLsb' 16 8 = 0 :=
    and_upper_eq_zero_iff (m := 8) (n := 16)
  simp only [readSpace_ok_iff, hmask, RowShape.fits, and_half_toNat, exists_and_left, exists_eq',
    and_true]
  tauto

theorem readAddrData_accepts : (∃ j, readAddrData op = .ok j) ↔
    ZeroPadded op ∧ argOf op.w &&& 0 = 0 ∧ RowShape.fits c op .plain := by
  simp only [readAddrData, noExtra_ok_iff, RowShape.fits, exists_and_left, exists_eq', and_true]
  have hmask : argOf op.w &&& 0 = 0 := BitVec.and_zero
  rw [and_iff_right hmask]
  tauto

theorem readAddr_accepts : (∃ j, readAddr op = .ok j) ↔
    ZeroPadded op ∧ argOf op.w &&& 0xFF = 0 ∧ RowShape.fits c op .plain := by
  have hmask : argOf op.w &&& 0xFF = 0 ↔ argByte op.w = 0 :=
    and_lower_eq_zero_iff (m := 16) (n := 8)
  simp only [readAddr_ok_iff, hmask, RowShape.fits, exists_and_left, exists_eq', and_true]
  tauto

theorem readCount_accepts : (∃ j, readCount op = .ok j) ↔
    ZeroPadded op ∧ argOf op.w &&& 0xFF0000 = 0 ∧ RowShape.fits c op .plain := by
  have hmask : argOf op.w &&& 0xFF0000 = 0 ↔ (argOf op.w).extractLsb' 16 8 = 0 :=
    and_upper_eq_zero_iff (m := 8) (n := 16)
  simp only [readCount_ok_iff, hmask, RowShape.fits, exists_and_left, exists_eq', and_true]
  tauto

theorem readByteArg_accepts {mk : Byte → Instr} : (∃ j, readByteArg op mk = .ok j) ↔
    ZeroPadded op ∧ argOf op.w &&& 0xFFFF00 = 0 ∧ RowShape.fits c op .plain := by
  have hmask : argOf op.w &&& 0xFFFF00 = 0 ↔ argAddr op.w = 0 :=
    and_upper_eq_zero_iff (m := 16) (n := 8)
  simp only [readByteArg_ok_iff, hmask, RowShape.fits, exists_and_left, exists_eq', and_true]
  tauto

theorem readBitArg_accepts {mk : Bool → Instr} : (∃ j, readBitArg op mk = .ok j) ↔
    ZeroPadded op ∧ argOf op.w &&& 0xFFFFFE = 0 ∧ RowShape.fits c op .plain := by
  have hmask : argOf op.w &&& 0xFFFFFE = 0 ↔ (argOf op.w).extractLsb' 1 23 = 0 :=
    and_upper_eq_zero_iff (m := 23) (n := 1)
  simp only [readBitArg_ok_iff, hmask, RowShape.fits, exists_and_left, exists_eq', and_true]
  tauto

end

/-- Settles O5: each arm of the decoder accepts what its row of the table asks for, and no row has an
OPC that is not an arm's. -/
theorem acceptedExactlyByTheOpcodeTable : Obligations.AcceptedExactlyByTheOpcodeTable := by
  intro c op
  unfold decode
  split
  · next hop =>
    exact row_accepts (r := ⟨0x10000000, 0xFFFFFF00, .bytes 1 0⟩) (by decide) hop (readBytes_accepts rfl)
  · next hop =>
    exact row_accepts (r := ⟨0x11000000, 0xFFFFFF00, .bytes 1 0⟩) (by decide) hop (readBytes_accepts rfl)
  · next hop =>
    exact row_accepts (r := ⟨0x12000000, 0xFFFFFFFF, .plain⟩) (by decide) hop readBare_accepts
  · next hop =>
    exact row_accepts (r := ⟨0x13000000, 0xFFFFFF00, .bytes 0 1⟩) (by decide) hop (readBytes_accepts rfl)
  · next hop =>
    exact row_accepts (r := ⟨0x14000000, 0xFFFFFFFF, .plain⟩) (by decide) hop readBare_accepts
  · next hop =>
    exact row_accepts (r := ⟨0x15000000, 0xFFFFFFFF, .plain⟩) (by decide) hop readBare_accepts
  · next hop =>
    exact row_accepts (r := ⟨0x16000000, 0xFFFF0000, .room⟩) (by decide) hop readSpace_accepts
  · next hop =>
    exact row_accepts (r := ⟨0x17000000, 0xFFFFFFFF, .plain⟩) (by decide) hop readBare_accepts
  · next hop =>
    exact row_accepts (r := ⟨0x20000000, 0xFFFFFFFF, .plain⟩) (by decide) hop readBare_accepts
  · next hop =>
    exact row_accepts (r := ⟨0x30000000, 0xFFFFFFFF, .plain⟩) (by decide) hop readBare_accepts
  · next hop =>
    exact row_accepts (r := ⟨0x31000000, 0xFFFFFFFF, .plain⟩) (by decide) hop readBare_accepts
  · next hop =>
    exact row_accepts (r := ⟨0x80000000, 0xFFFFFFFF, .plain⟩) (by decide) hop readBare_accepts
  · next hop =>
    exact row_accepts (r := ⟨0x81000000, 0xFFFFFFFF, .plain⟩) (by decide) hop readBare_accepts
  · next hop =>
    exact row_accepts (r := ⟨0x82000000, 0xFFFFFFFF, .extended⟩) (by decide) hop readExtended_accepts
  · next hop =>
    exact row_accepts (r := ⟨0x83000000, 0xFFFFFFFF, .extended⟩) (by decide) hop readExtended_accepts
  · next hop =>
    exact row_accepts (r := ⟨0x84000000, 0xFFFFFFFF, .extended⟩) (by decide) hop readExtended_accepts
  · next hop =>
    exact row_accepts (r := ⟨0x85000000, 0xFF000000, .plain⟩) (by decide) hop readAddrData_accepts
  · next hop =>
    exact row_accepts (r := ⟨0x86000000, 0xFF0000FF, .plain⟩) (by decide) hop readAddr_accepts
  · next hop =>
    exact row_accepts (r := ⟨0x87000000, 0xFFFF0000, .plain⟩) (by decide) hop readCount_accepts
  · next hop =>
    exact row_accepts (r := ⟨0x88000000, 0xFFFFFFFF, .plain⟩) (by decide) hop readBare_accepts
  · next hop =>
    exact row_accepts (r := ⟨0x89000000, 0xFFFFFFFE, .plain⟩) (by decide) hop readBitArg_accepts
  · next hop =>
    exact row_accepts (r := ⟨0x8A000000, 0xFFFFFFFF, .plain⟩) (by decide) hop readBare_accepts
  · next hop =>
    exact row_accepts (r := ⟨0x8B000000, 0xFFFFFFFF, .plain⟩) (by decide) hop readBare_accepts
  · next hop =>
    exact row_accepts (r := ⟨0x8C000000, 0xFFFFFFFF, .plain⟩) (by decide) hop readBare_accepts
  · next hop =>
    exact row_accepts (r := ⟨0x8D000000, 0xFFFFFF00, .plain⟩) (by decide) hop readByteArg_accepts
  · next hop =>
    exact row_accepts (r := ⟨0x8E000000, 0xFFFFFF00, .plain⟩) (by decide) hop readByteArg_accepts
  · next hop =>
    exact row_accepts (r := ⟨0x8F000000, 0xFFFFFFFE, .plain⟩) (by decide) hop readBitArg_accepts
  · next hop =>
    exact row_accepts (r := ⟨0x90000000, 0xFFFFFFFF, .plain⟩) (by decide) hop readBare_accepts
  · refine ⟨nofun, fun ⟨_, r, hr, hm, _⟩ => ?_⟩
    have hcode := opcodeRows_codes r hr
    rw [← ((meets_row_iff hr op.w).mp hm).1] at hcode
    simp_all

/-- Settles O1: the encoder and the decoder run on the rule's sixteen examples and four bad words. -/
theorem specExampleWordsSpellTheirOperations : Obligations.SpecExampleWordsSpellTheirOperations := by
  unfold Obligations.SpecExampleWordsSpellTheirOperations
  decide

end Sys2Proof.Machine
end

section
/-! PROOFS. What every operation keeps: who writes which register (10_state.md R16), the buffer
(20_memory.md R40, R41, R54), the Wakes (40_receive.md R74, R88, R89), the one timer (42_transmit.md
R98), and the faults (60_exceptions.md R141). -/

namespace Sys2Proof.Machine

/-! ### The buffer (20_memory.md R40, R41) -/

section
variable {s t : State} {i : Instr}

theorem RxStep.isSome_cellAt (h : RxStep s t) {a : Nat} (ha : (cellAt s.buf a).isSome = true) :
    (cellAt t.buf a).isSome = true := by
  cases h with
  | stored b hr h0 =>
    rw [State.takeByte_buf]
    split
    · exact isSome_cellAt_putCell _ b ha
    · exact ha
  | cancelled | finished => simpa using ha
  | stamped | fifoReset => exact ha

theorem Received.isSome_cellAt (h : Received s t) {a : Nat} (ha : (cellAt s.buf a).isSome = true) :
    (cellAt t.buf a).isSome = true := by
  induction h with
  | refl => exact ha
  | tail _ hstep ih => exact hstep.isSome_cellAt ih

/-- Only a byte delivery and BUF_WRITE can write a cell. -/
theorem Effect.buf_cases (h : Effect s i t) :
    t.buf = s.buf ∨ (∃ p, Delivers s i p ∧ Received s t) ∨
      ∃ addr data, i = .bufWrite addr data ∧ s.flags.sending = false ∧
        t.buf = putCell s.buf addr.toNat data := by
  cases h with
  | delivered hi h => exact .inr (.inl ⟨_, hi, h⟩)
  | written data ha hs => exact .inr (.inr ⟨_, data, rfl, hs, rfl⟩)
  | overflowFinish | clashFinish => simp
  | txMasked | txPushed => exact .inl (by rw [State.maskTxDataIfDone_eq])
  | _ => exact .inl rfl

/-- The event delivers bytes: RX_DATA, RX_TIMEOUT or RX_FRAMING_ERR. -/
abbrev DeliversBytes (i : Instr) : Prop :=
  ∃ p, i = .rxData p ∨ i = .rxTimeout p ∨ i = .rxFramingErr p

theorem Delivers.deliversBytes {p : List Byte} (h : Delivers s i p) : DeliversBytes i :=
  ⟨p, h.imp And.left (.imp And.left And.left)⟩

theorem Delivers.isEvent {p : List Byte} (h : Delivers s i p) : i.isCommand = false := by
  obtain ⟨rfl, -⟩ | ⟨rfl, -⟩ | ⟨rfl, -⟩ := h <;> rfl

end

/-- Settles O20. -/
theorem cellsStayWrittenAndFewOperationsWrite :
    Obligations.CellsStayWrittenAndFewOperationsWrite := by
  intro i s t h
  obtain hsame | ⟨p, hi, hrec⟩ | ⟨addr, data, rfl, -, hput⟩ := (exec_effect h).buf_cases
  · exact ⟨fun a ha => by rwa [hsame], fun hne => absurd hsame hne⟩
  · exact ⟨fun a ha => hrec.isSome_cellAt ha, fun _ => .inr hi.deliversBytes⟩
  · exact ⟨fun a ha => by rw [hput]; exact isSome_cellAt_putCell _ data ha,
      fun _ => .inl ⟨addr, data, rfl⟩⟩

/-- No bytes are delivered while the block drives the bus: the RX lines are masked. -/
theorem Inv.not_delivers {s : State} {i : Instr} {p : List Byte} (hi : Inv s)
    (hd : s.flags.sending = true ∧ s.line.rtsRx = false) : ¬ Delivers s i p := by
  obtain ⟨hdata, htimeout, -, hframing, -, -⟩ := State.lineOn_rx_of_masked (hi.item5 hd)
  simp [Delivers, hdata, htimeout, hframing]

/-- TX_SIZE is written only by a TX_START on a port that is not sending. -/
theorem Effect.txSize_cases {s t : State} {i : Instr} (h : Effect s i t) :
    t.txSize = s.txSize ∨ (∃ n, i = .txStart n) ∧ s.flags.sending = false := by
  cases h with
  | delivered _ h => exact .inl (by rw [h.frame])
  | txStarted hs => exact .inr ⟨⟨_, rfl⟩, hs⟩
  | overflowFinish | clashFinish => simp
  | txMasked | txPushed => exact .inl (by rw [State.maskTxDataIfDone_eq])
  | _ => exact .inl rfl

/-- Settles O21: the writers of the buffer and of TX_SIZE are all barred while the bus is driven. -/
theorem packetIsFrozenWhileItIsSent : Obligations.PacketIsFrozenWhileItIsSent := by
  intro i s t hi hs hr h
  have he := exec_effect h
  refine ⟨?_, ?_⟩
  · obtain hsame | ⟨p, hdel, -⟩ | ⟨-, -, -, hns, -⟩ := he.buf_cases
    · exact hsame
    · exact absurd hdel (hi.not_delivers ⟨hs, hr⟩)
    · simp [hs] at hns
  · obtain hsame | ⟨-, hns⟩ := he.txSize_cases
    · exact hsame
    · simp [hs] at hns

/-! ### The Wake token (40_receive.md R74, R88) -/

@[simp] theorem wakeCount_append (as bs : List Action) :
    wakeCount (as ++ bs) = wakeCount as + wakeCount bs := List.countP_append

/-- Actions are only appended, and the token pays for the one Wake among them, if there is one. -/
def PaysForWakes (s t : State) : Prop :=
  ∃ acts, t.outputs = s.outputs ++ acts ∧
    (wakeCount acts = 0 ∧ t.taskWaiting = s.taskWaiting ∨
      wakeCount acts = 1 ∧ s.taskWaiting = true ∧ t.taskWaiting = false)

section
variable {s t u : State} {i : Instr}

theorem PaysForWakes.quiet {acts : List Action} (ho : t.outputs = s.outputs ++ acts)
    (hw : wakeCount acts = 0) (ht : t.taskWaiting = s.taskWaiting) : PaysForWakes s t :=
  ⟨acts, ho, .inl ⟨hw, ht⟩⟩

theorem PaysForWakes.refl (s : State) : PaysForWakes s s :=
  .quiet (List.append_nil _).symm rfl rfl

theorem PaysForWakes.trans (h : PaysForWakes s t) (h' : PaysForWakes t u) : PaysForWakes s u := by
  obtain ⟨acts, ho, hw⟩ := h
  obtain ⟨acts', ho', hw'⟩ := h'
  refine ⟨acts ++ acts', by rw [ho', ho, List.append_assoc], ?_⟩
  rw [wakeCount_append]
  obtain ⟨hn, ht⟩ | ⟨hn, hs, ht⟩ := hw <;> obtain ⟨hn', hu⟩ | ⟨hn', hs', hu⟩ := hw'
  · exact .inl ⟨by omega, hu.trans ht⟩
  · exact .inr ⟨by omega, ht ▸ hs', hu⟩
  · exact .inr ⟨by omega, hs, hu.trans ht⟩
  · simp [ht] at hs'

/-- The Wake a rule puts out if a host waits, after other actions and with the token cleared. -/
theorem PaysForWakes.wakeIf {acts : List Action} {h : Bool} {n : BitVec 16} {k : PktKind}
    {e : ErrCode} (hw : wakeCount acts = 0)
    (ho : t.outputs = s.outputs ++ acts ++ (if s.taskWaiting = true then [.wake h n k e] else []))
    (ht : t.taskWaiting = false) : PaysForWakes s t := by
  rw [List.append_assoc] at ho
  refine ⟨_, ho, ?_⟩
  cases hs : s.taskWaiting with
  | true => exact .inr ⟨by rw [wakeCount_append, hw]; rfl, rfl, ht⟩
  | false => exact .inl ⟨by rw [wakeCount_append, hw]; rfl, ht⟩

theorem wakeCount_timerPause_if (c : Prop) [Decidable c] :
    wakeCount (if c then [.timerPause] else []) = 0 := by
  split <;> rfl

theorem State.finish_pays (s : State) (k : PktKind) (e : ErrCode) : PaysForWakes s (s.finish k e) :=
  .wakeIf (wakeCount_timerPause_if _) (State.finish_outputs s k e) (State.finish_taskWaiting s k e)

theorem RxStep.pays (h : RxStep s t) : PaysForWakes s t := by
  cases h with
  | stamped => exact .quiet (List.append_nil _).symm rfl rfl
  | stored b hr h0 => exact .quiet (acts := []) (by simp) rfl (by simp)
  | cancelled hr =>
    exact .quiet (State.cancelResp_outputs s) (wakeCount_timerPause_if _)
      (State.cancelResp_taskWaiting s)
  | finished hr k e => exact s.finish_pays k e
  | fifoReset => exact .quiet (State.emit_outputs s _) rfl rfl

theorem Received.pays (h : Received s t) : PaysForWakes s t := by
  induction h with
  | refl => exact .refl s
  | tail _ hstep ih => exact ih.trans hstep.pays

theorem State.maskTxDataIfDone_pays (s : State) : PaysForWakes s s.maskTxDataIfDone := by
  rw [State.maskTxDataIfDone_eq]
  exact .quiet rfl (by split <;> rfl) rfl

/-- Every operation pays for its Wake with the token, but for the one WAIT puts out at once and the
token that WAIT and WAIT_CANCEL write. -/
theorem Effect.pays (h : Effect s i t) :
    PaysForWakes s t ∨
    (((∃ c, i = .wait c) ∨ i = .waitCancel) ∧ t.outputs = s.outputs) ∨
    ((∃ c, i = .wait c) ∧ t.taskWaiting = false ∧
      ∃ w, w.isWake = true ∧ t.outputs = s.outputs ++ [w]) := by
  cases h with
  | waiting c => exact .inr (.inl ⟨.inl ⟨c, rfl⟩, rfl⟩)
  | waitCancelled => exact .inr (.inl ⟨.inr rfl, rfl⟩)
  | wokenByData | wokenByIdle => exact .inr (.inr ⟨⟨_, rfl⟩, rfl, _, rfl, rfl⟩)
  | delivered _ h => exact .inl h.pays
  | overflowFinish hr k =>
    exact .inl ((RxStep.fifoReset s).pays.trans (State.finish_pays (s.emit .rxFifoReset) k _))
  | clashFinish hr k => exact .inl (s.finish_pays k _)
  | txMasked => exact .inl s.maskTxDataIfDone_pays
  | txPushed space hon h0 hk =>
    refine .inl (.trans ?_ (State.maskTxDataIfDone_pays _))
    exact .quiet (acts := [.txFifoWrite _]) rfl rfl rfl
  | transmissionOver | timedOut | disabled => exact .inl (.wakeIf (by rfl) rfl rfl)
  | rxBreak | aborted => exact .inl (.quiet rfl (wakeCount_timerPause_if _) rfl)
  | enabled => exact .inl (.quiet rfl (by split <;> rfl) rfl)
  | turnedRound | breakOver | mabOver | respOver | overflowReset | baudSet | txStarted | armed =>
    exact .inl (.quiet rfl rfl rfl)
  | _ => exact .inl (.quiet (List.append_nil _).symm rfl rfl)

end

/-- Settles O16. -/
theorem atMostOneWakeAndItClearsTheToken : Obligations.AtMostOneWakeAndItClearsTheToken := by
  intro i s t h
  obtain ⟨acts, ho, ⟨hn, -⟩ | ⟨hn, hs, ht⟩⟩ | ⟨-, ho⟩ | ⟨hwait, ht, w, hw, ho⟩ :=
    (exec_effect h).pays
  · exact ⟨acts, ho, by omega, fun h1 => by omega⟩
  · exact ⟨acts, ho, by omega, fun _ => ⟨ht, .inl hs⟩⟩
  · exact ⟨[], by simpa using ho, Nat.zero_le _, nofun⟩
  · have hone : wakeCount [w] = 1 := by simp [wakeCount, hw]
    exact ⟨[w], ho, by omega, fun _ => ⟨ht, .inr hwait⟩⟩

/-! ### What a Wake reports (40_receive.md R89) -/

/-- The block holds the packet record `(n, k, e)`, with HAS_DATA set. -/
abbrev HoldsRecord (t : State) (n : BitVec 16) (k : PktKind) (e : ErrCode) : Prop :=
  t.pktSize = n ∧ t.pktKind = k ∧ t.pktErr = e ∧ t.flags.hasData = true

/-- Actions are only appended, and every Wake among them that reports a packet reports one that is
recorded in `t` and was finished (`P t`). -/
def ReportsRecord (P : State → Prop) (s t : State) : Prop :=
  ∃ acts, t.outputs = s.outputs ++ acts ∧
    ∀ n k e, .wake true n k e ∈ acts → HoldsRecord t n k e ∧ P t

section
variable {s t : State} {i : Instr} {P : State → Prop}

theorem ReportsRecord.quiet {acts : List Action} (ho : t.outputs = s.outputs ++ acts)
    (hw : ∀ n k e, .wake true n k e ∉ acts) : ReportsRecord P s t :=
  ⟨acts, ho, fun n k e hmem => absurd hmem (hw n k e)⟩

theorem State.finish_hasData (s : State) (k : PktKind) (e : ErrCode) :
    (s.finish k e).flags.hasData = true := by
  rw [State.finish_flags]
  split <;> rfl

/-- A finish reports the record it writes. -/
theorem State.finish_reports (s : State) (k : PktKind) (e : ErrCode) (hP : P (s.finish k e)) :
    ReportsRecord P s (s.finish k e) := by
  refine ⟨_, (State.finish_outputs s k e).trans (List.append_assoc _ _ _), fun n k' e' hmem => ?_⟩
  have hpause : Action.wake true n k' e' ∉
      (if s.awaiting = true ∧ s.timerMode = .resp then [Action.timerPause] else []) := by
    split <;> simp
  obtain ⟨rfl, rfl, rfl⟩ : n = s.clampedHead ∧ k' = k ∧ e' = e := by
    have hwake := (List.mem_append.mp hmem).resolve_left hpause
    split at hwake
    · simpa using hwake
    · simp at hwake
  exact ⟨⟨by simp, by simp, by simp, s.finish_hasData k' e'⟩, hP⟩

/-- A reception finishes at most one packet, and keeps the record from then on: no packet is received
in POST_PACKET. -/
theorem Received.reports (h : Received s t) :
    ReportsRecord (fun u => u.rxState = .postPacket) s t := by
  induction h with
  | refl => exact .quiet (List.append_nil _).symm nofun
  | @tail u v _ hstep ih =>
    obtain ⟨acts, ho, hacts⟩ := ih
    cases hstep with
    | stamped => exact ⟨acts, ho, hacts⟩
    | stored b hr h0 => rw [State.takeByte_eq]; exact ⟨acts, ho, hacts⟩
    | fifoReset =>
      exact ⟨acts ++ [.rxFifoReset], by simp [ho], fun n k e hmem =>
        hacts n k e (by simpa using hmem)⟩
    | cancelled hr =>
      have hnone : ∀ n k e, .wake true n k e ∉ acts := fun n k e hmem => by
        have := (hacts n k e hmem).2
        simp [hr] at this
      exact .quiet (by rw [State.cancelResp_outputs, ho, List.append_assoc]) fun n k e => by
        simp [hnone]
    | finished hr k e =>
      have hnone : ∀ n k e, .wake true n k e ∉ acts := fun n k e hmem => by
        have := (hacts n k e hmem).2
        simp [hr] at this
      obtain ⟨acts', ho', hacts'⟩ := u.finish_reports (P := fun u => u.rxState = .postPacket) k e
        (State.finish_rxState u k e)
      exact ⟨acts ++ acts', by rw [ho', ho, List.append_assoc], fun n k e hmem =>
        hacts' n k e ((List.mem_append.mp hmem).resolve_left (hnone n k e))⟩

/-- Every Wake of every operation that reports a packet reports the record. -/
theorem Effect.reports (h : Effect s i t) : ReportsRecord (fun _ => True) s t := by
  cases h with
  | delivered _ h =>
    obtain ⟨acts, ho, hacts⟩ := h.reports
    exact ⟨acts, ho, fun n k e hmem => ⟨(hacts n k e hmem).1, trivial⟩⟩
  | overflowFinish hr k =>
    obtain ⟨acts, ho, hacts⟩ :=
      (s.emit .rxFifoReset).finish_reports (P := fun _ => True) k .dataOverflow trivial
    exact ⟨.rxFifoReset :: acts, by simp [ho], fun n k e hmem => hacts n k e (by simpa using hmem)⟩
  | clashFinish hr k => exact s.finish_reports k _ trivial
  | wokenByData hd =>
    refine ⟨_, rfl, fun n k e hmem => ⟨?_, trivial⟩⟩
    obtain ⟨rfl, rfl, rfl⟩ : n = s.pktSize ∧ k = s.pktKind ∧ e = s.pktErr := by simpa using hmem
    exact ⟨rfl, rfl, rfl, hd⟩
  | txMasked =>
    rw [State.maskTxDataIfDone_eq]
    exact .quiet rfl fun n k e => by simp
  | txPushed =>
    rw [State.maskTxDataIfDone_eq]
    exact .quiet (List.append_assoc _ _ _) fun n k e => by simp
  | transmissionOver | timedOut | disabled =>
    exact .quiet (List.append_assoc _ _ _) fun n k e => by simp
  | rxBreak | aborted | enabled | turnedRound | breakOver | mabOver | respOver | overflowReset =>
    exact .quiet rfl fun n k e => by simp
  | baudSet | txStarted | armed | wokenByIdle => exact .quiet rfl fun n k e => by simp
  | _ => exact .quiet (List.append_nil _).symm nofun

end

/-- Settles O17: a finish and WAIT are the two rules that report a packet. -/
theorem wakeCarriesTheRecordedPacket : Obligations.WakeCarriesTheRecordedPacket := by
  refine ⟨fun i s t n k e acts h ho hmem => ?_, fun s y hy he => ?_⟩
  · obtain ⟨acts', ho', hacts⟩ := (exec_effect h).reports
    obtain rfl := List.append_cancel_left (ho.symm.trans ho')
    exact (hacts n k e hmem).1
  · refine ⟨_, _, rfl, rfl, ?_⟩
    have hcode := ErrCode.code_toNat_of_mem y hy
    have hkind := s.pktKind.code.isLt
    have hsize := s.pktSize.isLt
    have hlt := s.pktErr.code.isLt
    rw [← he] at hcode
    rw [State.packetRecord_toNat, hcode]
    omega

/-! ### The one timer (42_transmit.md R98) -/

/-- On a port that is not sending no use of the timer is armed. -/
theorem Inv.timer_off_of_not_sending {s : State} (hi : Inv s) (hs : s.flags.sending = false) :
    s.timerMode = .off := by
  cases hm : s.timerMode with
  | off => rfl
  | brk => have := hi.item2 (.inl hm); simp [hs] at this
  | mab => have := hi.item2 (.inr hm); simp [hs] at this
  | resp => have := s.awaiting_iff.mp (hi.item3 hm); simp [hs] at this

/-- Actions are only appended, and none of them arms the timer. -/
def ArmsNothing (s t : State) : Prop :=
  ∃ acts, t.outputs = s.outputs ++ acts ∧ ∀ d, .timerArm d ∉ acts

section
variable {s t : State} {i : Instr}

theorem ArmsNothing.trans {u : State} (h : ArmsNothing s t) (h' : ArmsNothing t u) :
    ArmsNothing s u := by
  obtain ⟨acts, ho, hn⟩ := h
  obtain ⟨acts', ho', hn'⟩ := h'
  exact ⟨acts ++ acts', by rw [ho', ho, List.append_assoc], fun d => by simp [hn, hn']⟩

theorem State.finish_armsNothing (s : State) (k : PktKind) (e : ErrCode) :
    ArmsNothing s (s.finish k e) :=
  ⟨_, (State.finish_outputs s k e).trans (List.append_assoc _ _ _), fun d => by simp⟩

theorem RxStep.armsNothing (h : RxStep s t) : ArmsNothing s t := by
  cases h with
  | stamped => exact ⟨[], (List.append_nil _).symm, nofun⟩
  | stored b hr h0 => exact ⟨[], by simp, nofun⟩
  | cancelled hr => exact ⟨_, State.cancelResp_outputs s, fun d => by simp⟩
  | finished hr k e => exact s.finish_armsNothing k e
  | fifoReset => exact ⟨_, State.emit_outputs s _, fun d => by simp⟩

theorem Received.armsNothing (h : Received s t) : ArmsNothing s t := by
  induction h with
  | refl => exact ⟨[], (List.append_nil _).symm, nofun⟩
  | tail _ hstep ih => exact ih.trans hstep.armsNothing

/-- The timer is armed by its own alarm, by TX_START on a port that is not sending, and by TX_DONE. -/
theorem Effect.timerArm_cases (h : Effect s i t) :
    ArmsNothing s t ∨ i = .timerAlarm ∨ s.flags.sending = false ∨ s.lineOn .txDone = true := by
  cases h with
  | breakOver => exact .inr (.inl rfl)
  | txStarted hs => exact .inr (.inr (.inl hs))
  | turnedRound _ hon => exact .inr (.inr (.inr hon))
  | delivered _ h => exact .inl h.armsNothing
  | overflowFinish hr k =>
    exact .inl ((RxStep.fifoReset s).armsNothing.trans
      (State.finish_armsNothing (s.emit .rxFifoReset) k _))
  | clashFinish hr k => exact .inl (s.finish_armsNothing k _)
  | txMasked =>
    rw [State.maskTxDataIfDone_eq]
    exact .inl ⟨_, rfl, fun d => by simp⟩
  | txPushed =>
    rw [State.maskTxDataIfDone_eq]
    exact .inl ⟨_, List.append_assoc _ _ _, fun d => by simp⟩
  | transmissionOver | timedOut | disabled =>
    exact .inl ⟨_, List.append_assoc _ _ _, fun d => by simp⟩
  | rxBreak | aborted | enabled | mabOver | respOver | overflowReset | baudSet | armed =>
    exact .inl ⟨_, rfl, fun d => by simp⟩
  | wokenByData | wokenByIdle => exact .inl ⟨_, rfl, fun d => by simp⟩
  | _ => exact .inl ⟨[], (List.append_nil _).symm, nofun⟩

end

/-- Settles O23: TX_START finds a port that is not sending, and TX_DONE the timer off since the end of
the MAB. -/
theorem timerUsesNeverOverlap : Obligations.TimerUsesNeverOverlap := by
  intro i s t acts d hi h ho hmem
  obtain ⟨acts', ho', hn⟩ | halarm | hs | hon := (exec_effect h).timerArm_cases
  · obtain rfl := List.append_cancel_left (ho.symm.trans ho')
    exact absurd hmem (hn d)
  · exact .inr halarm
  · exact .inl (hi.timer_off_of_not_sending hs)
  · obtain ⟨-, -, hm⟩ := hi.txLine_facts (.inr hon)
    exact .inl hm

/-! ### The writers of the registers (10_state.md R16)

Each lemma names the operations under which its registers can change. -/

section
variable {s t : State} {i : Instr}

theorem Effect.flags_writers (h : Effect s i t) (hne : t.flags ≠ s.flags) :
    i.isCommand = false ∨ i = .enable ∨ i = .disable ∨ (∃ n, i = .txStart n) ∨ i = .rxArm ∨
      i = .rxConsume ∨ i = .abort := by
  cases h with
  | delivered hi h => exact .inl hi.isEvent
  | _ => simp_all [Instr.isCommand]

theorem Effect.rxState_writers (h : Effect s i t) (hne : t.rxState ≠ s.rxState) :
    DeliversBytes i ∨ i = .rxBreak ∨ i = .rxOverflow ∨ i = .rxClash ∨ (∃ n, i = .txStart n) ∨
      i = .txDone ∨ i = .timerAlarm ∨ i = .enable ∨ i = .rxArm := by
  cases h with
  | delivered hi h => exact .inl hi.deliversBytes
  | _ => simp_all [State.maskTxDataIfDone_eq]

theorem Effect.head_writers (h : Effect s i t) (hne : t.head ≠ s.head) :
    DeliversBytes i ∨ i = .rxBreak ∨ (∃ n, i = .txStart n ∨ i = .txData n) ∨ i = .txDone ∨
      i = .timerAlarm ∨ i = .enable ∨ i = .rxArm := by
  cases h with
  | delivered hi h => exact .inl hi.deliversBytes
  | _ => simp_all

theorem Effect.timerMode_writers (h : Effect s i t) (hne : t.timerMode ≠ s.timerMode) :
    DeliversBytes i ∨ i = .rxBreak ∨ i = .rxOverflow ∨ i = .rxClash ∨ (∃ n, i = .txStart n) ∨
      i = .txDone ∨ i = .timerAlarm ∨ i = .abort := by
  cases h with
  | delivered hi h => exact .inl hi.deliversBytes
  | _ => simp_all [State.maskTxDataIfDone_eq]

theorem Effect.taskWaiting_writers (h : Effect s i t) (hne : t.taskWaiting ≠ s.taskWaiting) :
    (∃ c, i = .wait c) ∨ i = .waitCancel ∨
      ∃ acts, t.outputs = s.outputs ++ acts ∧ wakeCount acts = 1 := by
  obtain ⟨acts, ho, ⟨-, hsame⟩ | ⟨hn, -⟩⟩ | ⟨hi, -⟩ | ⟨hwait, -⟩ := h.pays
  · exact absurd hsame hne
  · exact .inr (.inr ⟨acts, ho, hn⟩)
  · exact hi.imp_right .inl
  · exact .inl hwait

theorem Effect.lastSlotTs_writers (h : Effect s i t) (hne : t.lastSlotTs ≠ s.lastSlotTs) :
    DeliversBytes i ∨ i = .txDone := by
  cases h with
  | delivered hi h => exact .inl hi.deliversBytes
  | _ => simp_all [State.maskTxDataIfDone_eq]

theorem Effect.pkt_writers (h : Effect s i t)
    (hne : t.pktSize ≠ s.pktSize ∨ t.pktKind ≠ s.pktKind ∨ t.pktErr ≠ s.pktErr) :
    DeliversBytes i ∨ i = .rxBreak ∨ i = .rxOverflow ∨ i = .rxClash ∨ i = .timerAlarm := by
  cases h with
  | delivered hi h => exact .inl hi.deliversBytes
  | _ => simp_all [State.maskTxDataIfDone_eq]

theorem Effect.line_writers (h : Effect s i t) (hne : t.line ≠ s.line) :
    (∃ n, i = .txStart n) ∨ i = .timerAlarm ∨ i = .txDone ∨ i = .rxArm := by
  cases h with
  | delivered hi h => exact absurd (by rw [h.frame]) hne
  | _ => simp_all [State.maskTxDataIfDone_eq]

theorem Effect.irqEn_writers (h : Effect s i t) (hne : t.irqEn ≠ s.irqEn) :
    (∃ n, i = .txStart n) ∨ i = .timerAlarm ∨ (∃ n, i = .txData n) ∨ i = .txDone ∨ i = .enable ∨
      i = .disable ∨ i = .rxArm := by
  cases h with
  | delivered hi h => exact absurd (by rw [h.frame]) hne
  | _ => simp_all

/-- The registers with one kind of writer each. -/
theorem Effect.setting_writers (h : Effect s i t) :
    (t.rxSize ≠ s.rxSize → i = .rxBreak) ∧ (t.breakLen ≠ s.breakLen → ∃ v, i = .setBreakLen v) ∧
    (t.mabLen ≠ s.mabLen → ∃ v, i = .setMabLen v) ∧ (t.baud ≠ s.baud → ∃ v, i = .setBaud v) ∧
    (t.tn ≠ s.tn → ∃ v, i = .setTn v) := by
  cases h with
  | delivered hi h => rw [h.frame]; simp
  | _ => simp [State.maskTxDataIfDone_eq]

theorem Effect.sniffer_writers (h : Effect s i t) :
    (t.snifCtrl ≠ s.snifCtrl → ∃ b, i = .snifferCtrl b) ∧
    (t.snifNegTs ≠ s.snifNegTs → i = .gpioNegedge) ∧
    (t.snifPosTs ≠ s.snifPosTs → i = .gpioPosedge) ∧
    (t.snifBreakW ≠ s.snifBreakW → i = .gpioPosedge) ∧
    (t.snifQ ≠ s.snifQ → i = .gpioNegedge ∨ i = .snifferPop) := by
  cases h with
  | delivered hi h => rw [h.frame]; simp
  | _ => simp [State.maskTxDataIfDone_eq]

end

/-- Settles O18: the writers lemmas, one per column entry of R16. -/
theorem registersChangeOnlyByTheirWriters : Obligations.RegistersChangeOnlyByTheirWriters := by
  intro i s t h
  have he := exec_effect h
  obtain ⟨hrx, hbreak, hmab, hbaud, htn⟩ := he.setting_writers
  have htx : t.txSize ≠ s.txSize → ∃ n, i = .txStart n := fun hne =>
    (he.txSize_cases.resolve_left hne).1
  exact ⟨he.flags_writers, he.rxState_writers, he.head_writers, he.timerMode_writers,
    he.taskWaiting_writers, htx, hrx, hbreak, hmab, hbaud, he.lastSlotTs_writers, htn,
    he.pkt_writers, he.line_writers, he.irqEn_writers, he.sniffer_writers⟩

/-! ### Faults (60_exceptions.md R141) -/

section
variable {s : State} (hi : Inv s)
include hi

theorem Inv.execRxFramingErr_completes (p : List Byte) :
    ∃ t, execRxFramingErr p s = .next t := by
  obtain ⟨hoff, hon⟩ := framingErrorFinishesThePacket s p
  cases hl : s.lineOn .rxFramingErr with
  | false => exact ⟨s, hoff hl⟩
  | true =>
    obtain ⟨u, -, -, -, hr, hne⟩ := hon hl hi
    by_cases h : u.rxState = .receiving
    · obtain ⟨k, -, ht⟩ := hr h
      exact ⟨_, ht⟩
    · exact ⟨_, hne h⟩

theorem Inv.execRxOverflow_completes : ∃ t, execRxOverflow s = .next t := by
  obtain ⟨hoff, -, hne, hr⟩ := overflowAndClashFinishThePacket s
  cases hl : s.lineOn .rxOverflow with
  | false => exact ⟨s, hoff hl⟩
  | true =>
    by_cases h : s.rxState = .receiving
    · obtain ⟨k, -, ht, -⟩ := hr h hi
      exact ⟨_, ht hl⟩
    · exact ⟨_, (hne h).1 hl⟩

theorem Inv.execRxClash_completes : ∃ t, execRxClash s = .next t := by
  obtain ⟨-, hoff, hne, hr⟩ := overflowAndClashFinishThePacket s
  cases hl : s.lineOn .rxClash with
  | false => exact ⟨s, hoff hl⟩
  | true =>
    by_cases h : s.rxState = .receiving
    · obtain ⟨k, -, -, ht⟩ := hr h hi
      exact ⟨_, ht hl⟩
    · exact ⟨_, (hne h).2 hl⟩

theorem Inv.execTxDone_completes : ∃ t, execTxDone s = .next t := by
  obtain ⟨hoff, hleft, hdone⟩ := txDoneTurnsRoundOrEnds s
  cases hl : s.lineOn .txDone with
  | false => exact ⟨s, hoff hl⟩
  | true =>
    by_cases h : s.head < s.txSize.toNat
    · exact ⟨s, hleft hl h⟩
    · obtain ⟨resp, dub, -, hreply, hover⟩ := hdone hl (by omega) hi
      by_cases hr : resp = true ∧ s.flags.enabled = true
      · exact ⟨_, hreply hr⟩
      · exact ⟨_, hover hr⟩

theorem Inv.execTimerAlarm_completes : ∃ t, execTimerAlarm s = .next t := by
  obtain ⟨hoff, hbrk, hmab, hresp, hawait⟩ := timerAlarmEndsWhatItTimed s
  cases hm : s.timerMode with
  | off => exact ⟨s, hoff hm⟩
  | brk => exact ⟨_, hbrk hm⟩
  | mab =>
    obtain ⟨bs, -, -, ht⟩ := hmab hm hi
    exact ⟨_, ht⟩
  | resp =>
    cases ha : s.awaiting with
    | false => exact ⟨_, hresp hm ha⟩
    | true => exact ⟨_, hawait hm ha⟩

/-- No event faults. -/
theorem Inv.exec_event_completes {i : Instr} (he : i.isCommand = false) :
    ∃ t, exec i s = .next t := by
  cases i with
  | rxData p | rxTimeout p =>
    obtain ⟨t, ht, -⟩ := hi.receiveReady.drain_ok p
    simp only [exec, execRxData, execRxTimeout, ht]
    split <;> exact ⟨_, rfl⟩
  | rxBreak =>
    cases hl : s.lineOn .rxBreak with
    | false => exact ⟨s, (rxBreakOpensAPacket s).1 hl⟩
    | true => exact ⟨_, (rxBreakOpensAPacket s).2 hl⟩
  | rxFramingErr p => exact hi.execRxFramingErr_completes p
  | rxOverflow => exact hi.execRxOverflow_completes
  | rxClash => exact hi.execRxClash_completes
  | txData space =>
    cases hl : s.lineOn .txData with
    | false => exact ⟨s, (txDataPushesUntilNoneAreLeft s space).1 hl⟩
    | true =>
      obtain ⟨bs, -, -, ht⟩ := (txDataPushesUntilNoneAreLeft s space).2 hi hl
      exact ⟨_, ht⟩
  | txDone => exact hi.execTxDone_completes
  | timerAlarm => exact hi.execTimerAlarm_completes
  | gpioPosedge | gpioNegedge =>
    simp only [exec, execGpioPosedge, execGpioNegedge]
    split
    · exact ⟨_, rfl⟩
    · split <;> exact ⟨_, rfl⟩
  | enable | disable | setBreakLen | setMabLen | setBaud | bufWrite | bufRead | txStart => cases he
  | rxArm | wait | waitCancel | rxConsume | abort | setTn | readReg => cases he
  | snifferCtrl | snifferPop => cases he

end

/-- Settles O14: of the ways to fault, the invariant rules out the events. -/
theorem onlyReadsOfUnwrittenCellsFault : Obligations.OnlyReadsOfUnwrittenCellsFault := by
  refine ⟨fun i s f hi hf => ?_, fun i s hi he => hi.exec_event_completes he,
    fun i s r => (exec_ends i s).ne_refused r⟩
  obtain he | ⟨addr, rfl, ha, hread⟩ | ⟨n, rfl, hn, hread⟩ := (exec_ends i s).faultsBy hf
  · obtain ⟨t, ht⟩ := hi.exec_event_completes he
    rw [hf] at ht
    cases ht
  · obtain ⟨rfl, hnone⟩ := memRead_error ha hread
    exact ⟨_, rfl, hnone, .inl ⟨addr, rfl, rfl⟩⟩
  · obtain ⟨j, hj, hcell, -⟩ := memReadMany_error hread
    rw [Nat.zero_add] at hcell
    obtain ⟨rfl, hnone⟩ := memRead_error (by omega) hcell
    exact ⟨_, rfl, hnone, .inr ⟨n, rfl, hj⟩⟩

end Sys2Proof.Machine
end

section
/-! PROOFS. The classifier's reach (44_classifier.md R115), plain frames (R116, R120) and discovery
responses (R118, R119, 20_memory.md R47). -/

namespace Sys2Proof.Machine

/-! ### What the classifier reads (44_classifier.md R115) -/

section
variable {s s' : State}

/-- Past the buffer's end a read answers alike whatever the cells hold. -/
theorem memRead_congr_of_lt {a : Nat} (hc : s.cfg.bufCap = s'.cfg.bufCap)
    (h : a < s.cfg.bufCap → cellAt s.buf a = cellAt s'.buf a) : memRead s a = memRead s' a := by
  by_cases ha : a < s.cfg.bufCap
  · exact memRead_congr hc (h ha)
  · simp [memRead, ha, ← hc]

theorem memReadMany_congr_of_reads : ∀ {k a : Nat},
    (∀ j, j < k → memRead s (a + j) = memRead s' (a + j)) → memReadMany s a k = memReadMany s' a k
  | 0, _, _ => rfl
  | k + 1, a, h => by
    have hrest : memReadMany s (a + 1) k = memReadMany s' (a + 1) k :=
      memReadMany_congr_of_reads fun j hj => by
        have := h (j + 1) (by omega)
        rwa [show a + 1 + j = a + (j + 1) by omega]
    have hfirst : memRead s a = memRead s' a := h 0 (by omega)
    simp only [memReadMany, hfirst, hrest]

section
variable {h : Nat} (hread : ∀ a, a < h → memRead s a = memRead s' a)
include hread

theorem memReadMany_congr_below {a k : Nat} (hk : a + k ≤ h) :
    memReadMany s a k = memReadMany s' a k :=
  memReadMany_congr_of_reads fun j hj => hread (a + j) (by omega)

theorem classifyRdm_congr_below : classifyRdm s h = classifyRdm s' h := by
  unfold classifyRdm
  by_cases h3 : h < 3
  · simp only [h3, if_true]
  · rw [hread 2 (by omega)]
    cases memRead s' 2 with
    | error f => rfl
    | ok len =>
      by_cases hl : h < len.toNat + 2
      · simp only [hl, if_true]
      · dsimp only
        rw [memReadMany_congr_below hread (a := 0) (k := len.toNat) (by omega),
          hread len.toNat (by omega), hread (len.toNat + 1) (by omega)]

theorem classifyDisc_congr_below : classifyDisc s h = classifyDisc s' h := by
  unfold classifyDisc
  rw [memReadMany_congr_below hread (a := 0) (k := min h 8) (by omega)]
  cases memReadMany s' 0 (min h 8) with
  | error f => rfl
  | ok bs =>
    by_cases hl : h < preambleLen bs + 17
    · simp only [hl, if_true]
    · dsimp only
      rw [memReadMany_congr_below hread (a := preambleLen bs + 1) (k := 16) (by omega)]

end

end

/-- Settles O24: every read is of a cell below HEAD. -/
theorem classifierReadsOnlyBelowHead : Obligations.ClassifierReadsOnlyBelowHead := by
  intro s s' hcap hhead hsize h1 hcells
  have hcount : s.headNat = s'.headNat := congrArg Int.toNat hhead
  have hread : ∀ a, a < s.headNat → memRead s a = memRead s' a := fun a ha =>
    memRead_congr_of_lt hcap fun hc => hcells a (by omega)
  have hpos : 1 ≤ s.headNat := by unfold State.headNat; omega
  have hdmx : classifyDmx s s.headNat = classifyDmx s' s.headNat := by
    unfold classifyDmx
    rw [hsize]
  unfold classify
  rw [← hcount, hread 0 (by omega), hdmx, classifyDisc_congr_below hread,
    classifyRdm_congr_below hread]
  by_cases h2 : s.headNat < 2
  · simp only [h2, if_true]
  · rw [hread 1 (by omega)]

/-! ### Plain frames (44_classifier.md R116, R120) -/

section
variable {s : State} {b0 : Byte} (h0 : memRead s 0 = .ok b0)
include h0

/-- A first byte that begins neither RDM packet makes the frame plain. -/
theorem classify_of_plain_start (hsc : b0 ≠ rdmSc) (hpre : b0 ≠ rdmPreamble)
    (hdel : b0 ≠ rdmDelimiter) : classify s = .ok (classifyDmx s s.headNat) := by
  simp [classify, h0, hsc, hpre, hdel]

/-- A second byte that does not complete the RDM start makes the frame plain. -/
theorem classify_of_plain_second {b1 : Byte} (hsc : b0 = rdmSc) (h2 : 2 ≤ s.headNat)
    (h1 : memRead s 1 = .ok b1) (hsub : b1 ≠ rdmSubSc) :
    classify s = .ok (classifyDmx s s.headNat) := by
  have hlt : ¬ s.headNat < 2 := by omega
  simp [classify, h0, hsc, hlt, h1, hsub]

/-- A preamble byte or the delimiter begins a discovery response. -/
theorem classify_of_disc_start (h : b0 = rdmPreamble ∨ b0 = rdmDelimiter) :
    classify s = classifyDisc s s.headNat := by
  have hsc : b0 ≠ rdmSc := by
    obtain rfl | rfl := h <;> decide
  simp [classify, h0, hsc, h]

end

/-- Settles O29. -/
theorem plainFrameCompletesAtRxSize : Obligations.PlainFrameCompletesAtRxSize := by
  intro s h bs hhead hlen hbs hplain
  have hcount : s.headNat = h := by simp [State.headNat, hhead]
  have hread : ∀ a, a < bs.length → memRead s a = .ok (bs.getD a 0) := fun a ha =>
    memRead_of_bytesAt hbs ha (by omega)
  have hdmx : classify s = .ok (classifyDmx s s.headNat) := by
    obtain ⟨h1, hsc, hpre, hdel⟩ | ⟨h2, hsc, hsub⟩ := hplain
    · exact classify_of_plain_start (hread 0 h1) hsc hpre hdel
    · exact classify_of_plain_second (hread 0 (by omega)) hsc (by omega) (hread 1 h2) hsub
  rw [hdmx, classifyDmx, hcount]

/-! ### `ClassifyDisc`, one equation per outcome (44_classifier.md R118) -/

theorem preambleLen_replicate_append (p : Nat) (bs : List Byte) :
    preambleLen (List.replicate p rdmPreamble ++ bs) = p + preambleLen bs := by
  induction p with
  | zero => simp
  | succ p ih => simp [List.replicate_succ, preambleLen, ih]; omega

theorem preambleLen_replicate (p : Nat) : preambleLen (List.replicate p rdmPreamble) = p := by
  simpa [preambleLen] using preambleLen_replicate_append p []

theorem preambleLen_cons_of_ne {b : Byte} (bs : List Byte) (h : b ≠ rdmPreamble) :
    preambleLen (b :: bs) = 0 := by
  simp [preambleLen, h]

section
variable {s : State} {h : Nat} {start : List Byte}
  (hstart : memReadMany s 0 (min h 8) = .ok start)
include hstart

/-- Preamble bytes alone: pending up to seven, an invalid response from eight on. -/
theorem classifyDisc_of_preamble (hn : start.length ≤ preambleLen start) :
    classifyDisc s h = .ok (if h ≥ 8 then .complete .rdmDiscResp .invalidResponse else .pending) := by
  have hnone : start[preambleLen start]? = none := List.getElem?_eq_none hn
  simp only [classifyDisc, hstart, hnone]
  split <;> rfl

variable {d : Byte} (hd : start[preambleLen start]? = some d)
include hd

theorem classifyDisc_of_no_delimiter (hne : d ≠ rdmDelimiter) :
    classifyDisc s h = .ok (.complete .rdmDiscResp .invalidResponse) := by
  simp [classifyDisc, hstart, hd, hne]

theorem classifyDisc_of_unfinished (hdel : d = rdmDelimiter) (hl : h < preambleLen start + 17) :
    classifyDisc s h = .ok .pending := by
  simp [classifyDisc, hstart, hd, hdel, hl]

theorem classifyDisc_of_whole {e : List Byte} (hdel : d = rdmDelimiter)
    (hl : preambleLen start + 17 ≤ h) (he : memReadMany s (preambleLen start + 1) 16 = .ok e) :
    classifyDisc s h = .ok (checkDisc e) := by
  have hnl : ¬ h < preambleLen start + 17 := by omega
  simp [classifyDisc, hstart, hd, hdel, hnl, he]

end

/-! ### The first eight bytes of a discovery response -/

section
variable {p : Nat} {b : Byte} {rest : List Byte}

/-- The first bytes of preamble, one more byte and the rest, cut after at most eight. -/
theorem take_preamble {k : Nat} (hk : p < k) :
    ∃ rest', (List.replicate p rdmPreamble ++ b :: rest).take k =
      List.replicate p rdmPreamble ++ b :: rest' := by
  obtain ⟨j, rfl⟩ : ∃ j, k = p + (j + 1) := ⟨k - p - 1, by omega⟩
  exact ⟨rest.take j, by simp [List.take_append]⟩

theorem preamble_then_byte (rest : List Byte) (hb : b ≠ rdmPreamble) :
    preambleLen (List.replicate p rdmPreamble ++ b :: rest) = p ∧
      (List.replicate p rdmPreamble ++ b :: rest)[p]? = some b := by
  rw [preambleLen_replicate_append, preambleLen_cons_of_ne rest hb]
  simp

end

/-- A byte of decoded pairs comes from its two encoded bytes. -/
theorem laneDecodeAll_getD : ∀ (k : Nat) (e : List Byte), 2 * k + 1 < e.length →
    (laneDecodeAll e).getD k 0 = laneDecode (e.getD (2 * k) 0) (e.getD (2 * k + 1) 0)
  | 0, lo :: hi :: rest, _ => rfl
  | k + 1, lo :: hi :: rest, h => by
    simp only [List.length_cons] at h
    have ih := laneDecodeAll_getD k rest (by omega)
    rw [show 2 * (k + 1) = 2 * k + 1 + 1 by omega]
    simpa only [laneDecodeAll, List.getD_cons_succ] using ih

/-- The checksum check of a whole discovery response, its sums as numbers. -/
theorem checkDisc_eq {e : List Byte} (h : e.length = 16) :
    checkDisc e = .complete .rdmDiscResp
      (if ((e.take 12).map (·.toNat)).sum % 2 ^ 16 =
          (laneDecode (e.getD 12 0) (e.getD 13 0)).toNat * 256 +
            (laneDecode (e.getD 14 0) (e.getD 15 0)).toNat
        then .ok else .invalidCrc) := by
  rw [checkDisc, checked, laneDecodeAll_getD 6 e (by omega), laneDecodeAll_getD 7 e (by omega)]
  simp only [sum16_eq_be16_iff]

/-- A run of the bytes the buffer is known to hold. -/
theorem memReadMany_drop_of_bytesAt {s : State} {bs : List Byte} {a k : Nat} (h : BytesAt s 0 bs)
    (hk : a + k ≤ bs.length) (hc : bs.length ≤ s.cfg.bufCap) :
    memReadMany s a k = .ok ((bs.drop a).take k) := by
  refine memReadMany_ok_iff.mpr ⟨by simp; omega, fun j hj => memRead_ok_iff.mpr ?_⟩
  simp only [List.length_take, List.length_drop] at hj
  have hcell := h (a + j) (by omega)
  rw [Nat.zero_add] at hcell
  rw [List.getElem_take, List.getElem_drop]
  exact ⟨by omega, hcell⟩

/-! ### Discovery responses the buffer is known to hold (44_classifier.md R118) -/

/-- The buffer holds the bytes `bs` of the packet HEAD counts, as far as it reaches. -/
structure HoldsPacket (s : State) (h : Nat) (bs : List Byte) : Prop where
  cap : 513 ≤ s.cfg.bufCap
  head : s.head = h
  length : bs.length = min h s.cfg.bufCap
  bytes : BytesAt s 0 bs

section
variable {s : State} {h p : Nat} {bs rest : List Byte} (hs : HoldsPacket s h bs)
include hs

theorem HoldsPacket.classify_eq {b0 : Byte} (h0 : bs.head? = some b0)
    (hb0 : b0 = rdmPreamble ∨ b0 = rdmDelimiter) : classify s = classifyDisc s h := by
  obtain ⟨hcap, hhead, hlen, hbs⟩ := hs
  obtain ⟨tl, rfl⟩ := List.head?_eq_some_iff.mp h0
  have hread := memRead_of_bytesAt (a := 0) hbs (by simp) (by omega)
  rw [classify_of_disc_start hread hb0, State.headNat, hhead, Int.toNat_natCast]

/-- The bytes `ClassifyDisc` looks for the delimiter in. -/
theorem HoldsPacket.read_start : memReadMany s 0 (min h 8) = .ok (bs.take 8) := by
  obtain ⟨hcap, -, hlen, hbs⟩ := hs
  have hcut : bs.take (min h 8) = bs.take 8 := List.take_eq_take_iff.mpr (by omega)
  rw [memReadMany_take_of_bytesAt hbs (by omega) (by omega), hcut]

theorem HoldsPacket.preamble_pending (hp : bs = List.replicate p rdmPreamble) (h1 : 1 ≤ p)
    (h7 : p ≤ 7) : classify s = .ok .pending := by
  have hcap := hs.cap
  have hlen := hs.length
  rw [hp, List.length_replicate] at hlen
  have hstart := hs.read_start
  rw [hp, List.take_replicate] at hstart
  obtain ⟨q, rfl⟩ : ∃ q, p = q + 1 := ⟨p - 1, by omega⟩
  rw [hs.classify_eq (by rw [hp]; rfl) (.inl rfl),
    classifyDisc_of_preamble hstart (by rw [preambleLen_replicate, List.length_replicate]),
    if_neg (by omega)]

theorem HoldsPacket.preamble_invalid (hp : bs = List.replicate 8 rdmPreamble ++ rest) :
    classify s = .ok (.complete .rdmDiscResp .invalidResponse) := by
  have hlen := hs.length
  rw [hp, List.length_append, List.length_replicate] at hlen
  have hstart := hs.read_start
  rw [hp, List.take_left' (List.length_replicate ..)] at hstart
  rw [hs.classify_eq (by rw [hp]; rfl) (.inl rfl),
    classifyDisc_of_preamble hstart (by rw [preambleLen_replicate, List.length_replicate]),
    if_pos (by omega)]

variable {b : Byte} (hp : bs = List.replicate p rdmPreamble ++ b :: rest) (h7 : p ≤ 7)
  (hb : b ≠ rdmPreamble)
include hp h7 hb

/-- The byte after the preamble is among the first eight. -/
theorem HoldsPacket.byte_after_preamble : ∃ start, memReadMany s 0 (min h 8) = .ok start ∧
    preambleLen start = p ∧ start[preambleLen start]? = some b := by
  obtain ⟨rest', htake⟩ := take_preamble (b := b) (rest := rest) (show p < 8 by omega)
  obtain ⟨hpre, hget⟩ := preamble_then_byte (p := p) rest' hb
  exact ⟨_, by rw [hs.read_start, hp, htake], hpre, by rw [hpre]; exact hget⟩

theorem HoldsPacket.no_delimiter_invalid (h1 : 1 ≤ p) (hdel : b ≠ rdmDelimiter) :
    classify s = .ok (.complete .rdmDiscResp .invalidResponse) := by
  obtain ⟨start, hstart, -, hget⟩ := hs.byte_after_preamble hp h7 hb
  obtain ⟨q, rfl⟩ : ∃ q, p = q + 1 := ⟨p - 1, by omega⟩
  rw [hs.classify_eq (by rw [hp]; rfl) (.inl rfl), classifyDisc_of_no_delimiter hstart hget hdel]

end

section
variable {s : State} {h p : Nat} {bs rest : List Byte} (hs : HoldsPacket s h bs)
  (hp : bs = List.replicate p rdmPreamble ++ rdmDelimiter :: rest) (h7 : p ≤ 7)
include hs hp

theorem HoldsPacket.classify_of_delimiter : classify s = classifyDisc s h := by
  cases p with
  | zero => exact hs.classify_eq (by rw [hp]; rfl) (.inr rfl)
  | succ q => exact hs.classify_eq (by rw [hp]; rfl) (.inl rfl)

include h7

theorem HoldsPacket.disc_pending (hl : h < p + 17) : classify s = .ok .pending := by
  obtain ⟨start, hstart, rfl, hget⟩ := hs.byte_after_preamble hp h7 (by decide)
  rw [hs.classify_of_delimiter hp, classifyDisc_of_unfinished hstart hget rfl hl]

theorem HoldsPacket.disc_complete (hl : p + 17 ≤ h) : classify s = .ok (.complete .rdmDiscResp
    (if ((rest.take 12).map (·.toNat)).sum % 2 ^ 16 =
        (laneDecode (rest.getD 12 0) (rest.getD 13 0)).toNat * 256 +
          (laneDecode (rest.getD 14 0) (rest.getD 15 0)).toNat
      then .ok else .invalidCrc)) := by
  obtain ⟨start, hstart, rfl, hget⟩ := hs.byte_after_preamble hp h7 (by decide)
  have hrest : memReadMany s (preambleLen start + 1) 16 = .ok (rest.take 16) := by
    have hlen := hs.length
    have hcap := hs.cap
    have hdrop : bs.drop (preambleLen start + 1) = rest := by simp [hp, List.drop_append]
    rw [memReadMany_drop_of_bytesAt hs.bytes (by omega) (by omega), hdrop]
  have hlong : 16 ≤ rest.length := by
    have hlen := hs.length
    have hcap := hs.cap
    rw [hp] at hlen
    simp only [List.length_append, List.length_replicate, List.length_cons] at hlen
    omega
  rw [hs.classify_of_delimiter hp, classifyDisc_of_whole hstart hget rfl hl hrest,
    checkDisc_eq (List.length_take_of_le hlong)]
  simp [List.take_take]

end

/-- Settles O26. -/
theorem discoveryResponseCompletesAtItsLength :
    Obligations.DiscoveryResponseCompletesAtItsLength := by
  intro s h p bs rest hcap hhead hlen hbs
  have hs : HoldsPacket s h bs := ⟨hcap, hhead, hlen, hbs⟩
  exact ⟨fun hp h1 h7 => hs.preamble_pending hp h1 h7,
    fun hp h7 => ⟨fun hl => hs.disc_pending hp h7 hl, fun hl => hs.disc_complete hp h7 hl⟩,
    fun hp => hs.preamble_invalid hp,
    fun b hp h1 h7 hpre hdel => hs.no_delimiter_invalid hp h7 hpre h1 hdel⟩

/-! ### Encoded discovery responses (20_memory.md R47, 44_classifier.md R119) -/

/-- Settles O28: the even bit lanes come from the first byte of the pair and the odd from the second. -/
theorem laneDecodeInvertsLaneEncode : Obligations.LaneDecodeInvertsLaneEncode := by
  unfold Obligations.LaneDecodeInvertsLaneEncode
  decide


/-- A 16-bit value is the big-endian pair of its bytes. -/
theorem eq_be16_extract (v : BitVec 16) : v = be16 (v.extractLsb' 8 8) (v.extractLsb' 0 8) :=
  eq_append_of_extract (m := 8) (n := 8) rfl rfl

/-- The encoded UID and the encoded checksum of its encoded bytes, high byte first. -/
def discBody (uid : List Byte) : List Byte :=
  laneEncodeAll uid ++ laneEncodeAll [(sum16 (laneEncodeAll uid)).extractLsb' 8 8,
    (sum16 (laneEncodeAll uid)).extractLsb' 0 8]

section
variable {uid : List Byte} (hu : uid.length = 6)
include hu

theorem discBody_length : (discBody uid).length = 16 := by
  simp [discBody, laneEncodeAll_length, hu]

theorem discBody_take : (discBody uid).take 12 = laneEncodeAll uid :=
  List.take_left' (by rw [laneEncodeAll_length, hu])

/-- The checksum bytes are the last four of the body. -/
theorem discBody_getD (k : Nat) : (discBody uid).getD (12 + k) 0 =
    (laneEncodeAll [(sum16 (laneEncodeAll uid)).extractLsb' 8 8,
      (sum16 (laneEncodeAll uid)).extractLsb' 0 8]).getD k 0 := by
  have h12 : (laneEncodeAll uid).length = 12 := by rw [laneEncodeAll_length, hu]
  rw [discBody, List.getD_append_right _ _ _ _ (by omega), h12, Nat.add_sub_cancel_left]

/-- The checksum of an encoded discovery response is right. -/
theorem discBody_checksum : (((discBody uid).take 12).map (·.toNat)).sum % 2 ^ 16 =
    (laneDecode ((discBody uid).getD 12 0) ((discBody uid).getD 13 0)).toNat * 256 +
      (laneDecode ((discBody uid).getD 14 0) ((discBody uid).getD 15 0)).toNat := by
  have hhi : laneDecode ((discBody uid).getD 12 0) ((discBody uid).getD 13 0) =
      (sum16 (laneEncodeAll uid)).extractLsb' 8 8 := by
    rw [discBody_getD hu 0, discBody_getD hu 1]
    exact laneDecodeInvertsLaneEncode _
  have hlo : laneDecode ((discBody uid).getD 14 0) ((discBody uid).getD 15 0) =
      (sum16 (laneEncodeAll uid)).extractLsb' 0 8 := by
    rw [discBody_getD hu 2, discBody_getD hu 3]
    exact laneDecodeInvertsLaneEncode _
  rw [hhi, hlo, discBody_take hu]
  exact sum16_eq_be16_iff.mp (eq_be16_extract _)

end

/-- Settles O27: cut in its preamble the response is preamble alone, cut after its delimiter it is a
response not yet whole, and whole its checksum is right. -/
theorem everyEncodedDiscoveryResponseIsAccepted :
    Obligations.EveryEncodedDiscoveryResponseIsAccepted := by
  intro uid p s h packet hu h7 hcap hpacket h1 hle hhead hbs
  replace hpacket : packet = List.replicate p rdmPreamble ++ rdmDelimiter :: discBody uid := hpacket
  have hlength : packet.length = p + 17 := by simp [hpacket, discBody_length hu]
  have hs : HoldsPacket s h (packet.take h) :=
    ⟨hcap, hhead, by rw [List.length_take]; omega, hbs⟩
  refine ⟨hlength, fun hl => ?_, fun hw => ?_⟩
  · by_cases hp : h ≤ p
    · refine hs.preamble_pending ?_ h1 (hp.trans h7)
      rw [hpacket, List.take_append_of_le_length (by simpa using hp), List.take_replicate,
        Nat.min_eq_left hp]
    · obtain ⟨rest', htake⟩ :=
        take_preamble (b := rdmDelimiter) (rest := discBody uid) (Nat.lt_of_not_le hp)
      exact hs.disc_pending (hpacket ▸ htake) h7 hl
  · rw [hs.disc_complete (rest := discBody uid)
      (by rw [List.take_of_length_le (by omega), hpacket]) h7 hw.ge,
      if_pos (discBody_checksum hu)]

end Sys2Proof.Machine
end

section
/-! PROOFS. The drain (40_receive.md R78 to R81, R84): what it stores and counts, what it changes beside,
and the byte that finishes a packet (R76, 44_classifier.md R120). -/

namespace Sys2Proof.Machine

/-! ### A drain begins by stamping the slot (40_receive.md R79) -/

/-- The state a drain's first byte is taken in. -/
def State.stamped (s : State) : State :=
  s.stampSlot.setFlags (s.flags.setBreakMab false false)

theorem drain_eq (s : State) (p : List Byte) : drain s p = rxBytes s.stamped p := rfl

/-- The slot has been stamped at the time of the operation: IN_BREAK and IN_MAB are clear. -/
structure IsStamped (s : State) : Prop where
  slot : s.lastSlotTs = s.lastNow
  inBreak : s.flags.inBreak = false
  inMab : s.flags.inMab = false

theorem State.stamped_isStamped (s : State) : IsStamped s.stamped := ⟨rfl, rfl, rfl⟩

/-- Stamping again at the same time changes nothing. -/
theorem IsStamped.stamped_eq {s : State} (h : IsStamped s) : s.stamped = s := by
  obtain ⟨hslot, hbreak, hmab⟩ := h
  calc s.stamped
      = { s with
          lastSlotTs := s.lastSlotTs
          flags := s.flags.setBreakMab s.flags.inBreak s.flags.inMab } := by
        rw [hslot, hbreak, hmab]; rfl
    _ = s := rfl

section
variable {s t : State}

theorem State.finish_inBreak (s : State) (k : PktKind) (e : ErrCode) :
    (s.finish k e).flags.inBreak = s.flags.inBreak := by
  rw [State.finish_flags]
  split <;> rfl

theorem State.finish_inMab (s : State) (k : PktKind) (e : ErrCode) :
    (s.finish k e).flags.inMab = s.flags.inMab := by
  rw [State.finish_flags]
  split <;> rfl

theorem State.finish_enabled (s : State) (k : PktKind) (e : ErrCode) :
    (s.finish k e).flags.enabled = s.flags.enabled := by
  rw [State.finish_flags]
  split <;> rfl

theorem RxStep.isStamped (h : RxStep s t) (hs : IsStamped s) : IsStamped t := by
  obtain ⟨hslot, hbreak, hmab⟩ := hs
  cases h with
  | stamped => exact ⟨rfl, rfl, rfl⟩
  | stored | cancelled => exact ⟨by simpa using hslot, by simpa using hbreak, by simpa using hmab⟩
  | finished hr k e =>
    exact ⟨by simpa using hslot, by rwa [State.finish_inBreak], by rwa [State.finish_inMab]⟩
  | fifoReset => exact ⟨hslot, hbreak, hmab⟩

theorem Received.isStamped (h : Received s t) (hs : IsStamped s) : IsStamped t := by
  induction h with
  | refl => exact hs
  | tail _ hstep ih => exact hstep.isStamped ih

theorem rxBytes_received {p : List Byte} (h : rxBytes s p = .ok t) : Received s t :=
  rxBytes_induct (P := Received s) (fun _ _ _ hu hb => hu.trans (rxByte_received hb)) .refl h

/-- A drain leaves the slot stamped. -/
theorem drain_isStamped {p : List Byte} (h : drain s p = .ok t) : IsStamped t :=
  (rxBytes_received h).isStamped s.stamped_isStamped

/-- A reception keeps ENABLED, and does not go back to waiting for a BREAK. -/
theorem Received.keeps (h : Received s t) : t.flags.enabled = s.flags.enabled ∧
    (s.rxState ≠ .waitBreak → t.rxState ≠ .waitBreak) := by
  induction h with
  | refl => exact ⟨rfl, id⟩
  | tail _ hstep ih =>
    cases hstep with
    | stored | cancelled => simpa using ih
    | finished hr k e => exact ⟨by rw [State.finish_enabled]; exact ih.1, fun _ => by simp⟩
    | stamped | fifoReset => exact ih

end

/-! ### What a drain does in WAIT_BREAK and in POST_PACKET (40_receive.md R78) -/

theorem rxBytes_of_waitBreak {s : State} (h : s.rxState = .waitBreak) :
    ∀ p : List Byte, rxBytes s p = .ok s
  | [] => rfl
  | b :: bs => by
    have hbyte : rxByte s b = .ok s := by simp [rxByte, h]
    simp only [rxBytes, hbyte, rxBytes_of_waitBreak h bs]

/-- Settles O32. -/
theorem bytesBeforeBreakAreDiscarded : Obligations.BytesBeforeBreakAreDiscarded := by
  rintro s u p hr rfl
  have hdrain : drain s p = .ok s.stamped := rxBytes_of_waitBreak (s := s.stamped) hr p
  refine ⟨fun hon => ?_, fun hon => ?_, fun hon hp => ?_⟩
  · simp only [exec, execRxData, hon, hdrain, if_true]
    rfl
  · simp only [exec, execRxTimeout, hon, hdrain, if_true]
    rfl
  · have hgood : drainGood s p = .ok s.stamped := by rw [drainGood, if_neg hp, hdrain]
    have hne : (s.stamped.emit .rxFifoReset).rxState ≠ .receiving := by
      simp [State.stamped, hr]
    exact (execRxFramingErr_of_drained hon hgood).trans
      (congrArg outcomeOf (finishIfReceiving_of_ne .improperSlot hne))

/-! ### What a drain stores and counts (40_receive.md R78, R79) -/

/-- From `s` to `t` the bytes `p` are counted, up to HEAD_MAX, those that fit are stored from HEAD on,
and no other cell is written. -/
structure StoresAndCounts (s t : State) (p : List Byte) : Prop where
  head : t.head = (min (s.headNat + p.length) s.cfg.headMax : Nat)
  stored : ∀ j, (h : j < p.length) → s.headNat + j < s.cfg.bufCap →
    cellAt t.buf (s.headNat + j) = some p[j]
  others : ∀ a, a < s.headNat ∨ min (s.headNat + p.length) s.cfg.bufCap ≤ a →
    cellAt t.buf a = cellAt s.buf a

section
variable {s t u : State} {b : Byte} {p : List Byte}

/-- Outside WAIT_BREAK a byte that is taken leaves HEAD and the buffer as `takeByte` does. -/
theorem rxByte_takes (h : rxByte s b = .ok t) (hr : s.rxState ≠ .waitBreak) :
    t.head = (s.takeByte b).head ∧ t.buf = (s.takeByte b).buf ∧ t.rxState ≠ .waitBreak ∧
      t.cfg = s.cfg := by
  obtain ⟨hw, -⟩ | ⟨hp, -, rfl⟩ | ⟨hrec, -, ⟨-, rfl⟩ | ⟨k, e, -, rfl⟩⟩ := rxByte_cases h
  · exact absurd hw hr
  · exact ⟨rfl, rfl, by simp [hp], by simp⟩
  all_goals simp [hrec]

theorem Inv.storesAndCounts_nil (hi : Inv s) (hr : s.rxState ≠ .waitBreak) :
    StoresAndCounts s s [] := by
  have h0 := State.headNat_cast (hi.receiveReady.head_nonneg hr)
  have hmax := hi.headRange.2
  exact ⟨by simp only [List.length_nil]; omega, nofun, fun _ _ => rfl⟩

/-- A byte is stored and counted, and then the rest. -/
theorem Inv.storesAndCounts_cons (hi : Inv s) (hr : s.rxState ≠ .waitBreak)
    (hhead : u.head = (s.takeByte b).head) (hbuf : u.buf = (s.takeByte b).buf)
    (hcfg : u.cfg = s.cfg) (hrest : StoresAndCounts u t p) : StoresAndCounts s t (b :: p) := by
  obtain ⟨⟨-, -, hcapmax⟩, -⟩ := hi.cfgValid
  have h0 := State.headNat_cast (hi.receiveReady.head_nonneg hr)
  have hmax := hi.headRange.2
  have hcount : u.headNat = min (s.headNat + 1) s.cfg.headMax := by
    rw [State.headNat, hhead]
    exact State.takeByte_headNat b hi.cfgValid
  have hcell : ∀ a, cellAt u.buf a =
      if s.headNat < s.cfg.bufCap ∧ a = s.headNat then some b else cellAt s.buf a := by
    intro a
    rw [hbuf, State.takeByte_buf]
    by_cases hc : s.headNat < s.cfg.bufCap <;> simp [hc, cellAt_putCell]
  obtain ⟨hthead, hstored, hothers⟩ := hrest
  rw [hcfg] at hthead hstored hothers
  refine ⟨?_, fun j hj hc => ?_, fun a ha => ?_⟩
  · rw [hthead, List.length_cons]
    omega
  · cases j with
    | zero =>
      rw [hothers _ (.inl (by omega)), hcell, if_pos ⟨hc, rfl⟩]
      rfl
    | succ j =>
      have hnext : s.headNat + (j + 1) = u.headNat + j := by omega
      rw [hnext, hstored j (by simpa using hj) (by omega)]
      rfl
  · rw [List.length_cons] at ha
    rw [hothers a (by omega), hcell, if_neg (by omega)]

theorem Inv.rxBytes_stores : ∀ {p : List Byte} {s : State}, Inv s → s.rxState ≠ .waitBreak →
    rxBytes s p = .ok t → StoresAndCounts s t p
  | [], s, hi, hr, h => by cases h; exact hi.storesAndCounts_nil hr
  | b :: bs, s, hi, hr, h => by
    simp only [rxBytes] at h
    split at h
    · cases h
    · next u hu =>
      obtain ⟨hhead, hbuf, hur, hcfg⟩ := rxByte_takes hu hr
      exact hi.storesAndCounts_cons hr hhead hbuf hcfg
        (Inv.rxBytes_stores ((rxByte_received hu).inv hi) hur h)

theorem Inv.drain_stores (hi : Inv s) (hr : s.rxState ≠ .waitBreak) (h : drain s p = .ok t) :
    StoresAndCounts s t p := by
  obtain ⟨hhead, hstored, hothers⟩ := Inv.rxBytes_stores hi.stamped hr h
  exact ⟨hhead, hstored, hothers⟩

end

/-- An event that delivers bytes drains them; RX_FRAMING_ERR then resets the FIFO and may finish the
packet, which moves neither HEAD nor a cell. -/
theorem delivery_drains {s t : State} {i : Instr} {p : List Byte}
    (hi : (i = .rxData p ∧ s.lineOn .rxData = true) ∨
      (i = .rxTimeout p ∧ s.lineOn .rxTimeout = true) ∨
      (i = .rxFramingErr p ∧ p ≠ [] ∧ s.lineOn .rxFramingErr = true))
    (h : exec i s = .next t) :
    ∃ u, drain s p = .ok u ∧ Received u t ∧ t.head = u.head ∧ t.buf = u.buf := by
  obtain ⟨rfl, hon⟩ | ⟨rfl, hon⟩ | ⟨rfl, hp, hon⟩ := hi
  · simp only [exec, execRxData, hon, if_true] at h
    exact ⟨t, outcomeOf_next h, .refl, rfl, rfl⟩
  · simp only [exec, execRxTimeout, hon, if_true] at h
    exact ⟨t, outcomeOf_next h, .refl, rfl, rfl⟩
  · cases hu : drain s p with
    | error f =>
      have hgood : drainGood s p = .error f := by rw [drainGood, if_neg hp, hu]
      rw [exec, execRxFramingErr_of_fault hon hgood] at h
      cases h
    | ok u =>
      have hgood : drainGood s p = .ok u := by rw [drainGood, if_neg hp, hu]
      rw [exec, execRxFramingErr_of_drained hon hgood] at h
      have hfin := outcomeOf_next h
      refine ⟨u, rfl, (Relation.ReflTransGen.single (.fifoReset u)).trans
        (finishIfReceiving_received hfin), ?_⟩
      obtain ⟨-, rfl⟩ | ⟨-, k, -, rfl⟩ := finishIfReceiving_cases hfin
      · exact ⟨rfl, rfl⟩
      · simp

/-- Settles O31. -/
theorem drainStoresAndCountsEveryByte : Obligations.DrainStoresAndCountsEveryByte := by
  intro s p i hi hr hdel
  have hevent : i.isCommand = false := by
    obtain ⟨rfl, -⟩ | ⟨rfl, -⟩ | ⟨rfl, -⟩ := hdel <;> rfl
  obtain ⟨t, ht⟩ := hi.exec_event_completes hevent
  obtain ⟨u, hu, hut, hhead, hbuf⟩ := delivery_drains hdel ht
  obtain ⟨huhead, hstored, hothers⟩ := hi.drain_stores hr hu
  have hst : Received s t := (drain_received hu).trans hut
  have hstamped : IsStamped t := hut.isStamped (drain_isStamped hu)
  obtain ⟨henabled, hrx⟩ := hst.keeps
  refine ⟨t, ht, ?_, ?_, ?_, ?_, henabled, hstamped.inBreak, hstamped.inMab, ?_⟩
  · rw [hhead, huhead]
  · rwa [hbuf]
  · rwa [hbuf]
  · cases h : t.rxState with
    | waitBreak => exact absurd h (hrx hr)
    | receiving => exact .inl rfl
    | postPacket => exact .inr rfl
  · have hnow : t.lastNow = s.lastNow := by rw [hst.frame]
    have hframe := hst.frame
    rwa [hstamped.slot, hnow] at hframe

/-- In POST_PACKET only HEAD and the buffer change. -/
theorem rxBytes_of_postPacket : ∀ {p : List Byte} {s t : State}, s.rxState = .postPacket →
    rxBytes s p = .ok t → t = { s with head := t.head, buf := t.buf }
  | [], s, t, hr, h => by cases h; rfl
  | b :: bs, s, t, hr, h => by
    simp only [rxBytes] at h
    split at h
    · cases h
    · next u hu =>
      have hbyte : u = { s with head := u.head, buf := u.buf } := by
        obtain ⟨-, rfl⟩ | ⟨-, -, rfl⟩ | ⟨hrec, -⟩ := rxByte_cases hu
        · rfl
        · rw [State.takeByte_eq]
        · simp [hr] at hrec
      have hrest := rxBytes_of_postPacket (p := bs) (by rw [hbyte]; exact hr) h
      rw [hbyte] at hrest
      exact hrest

/-- Settles O33. -/
theorem bytesAfterThePacketFinishNothing : Obligations.BytesAfterThePacketFinishNothing := by
  intro s p i hi hr hdel
  have hne : s.rxState ≠ .waitBreak := by simp [hr]
  obtain ⟨t, ht, -⟩ := hi.receiveReady.drain_ok p
  have hexec : exec i s = .next t := by
    obtain ⟨rfl, hon⟩ | ⟨rfl, hon⟩ := hdel
    · simp only [exec, execRxData, hon, ht, if_true, outcomeOf_ok]
    · simp only [exec, execRxTimeout, hon, ht, if_true, outcomeOf_ok]
  obtain ⟨hhead, hstored, hothers⟩ := hi.drain_stores hne ht
  have hframe := rxBytes_of_postPacket (s := s.stamped) hr ht
  rw [hhead] at hframe
  push_cast at hframe
  exact ⟨t, hexec, hstored, hothers, hframe⟩

/-! ### One byte and then the rest (40_receive.md R78, R79) -/

theorem execRxData_of_lineOn {s : State} (p : List Byte) (h : s.lineOn .rxData = true) :
    execRxData p s = outcomeOf (drain s p) := if_pos h

theorem execRxTimeout_of_lineOn {s : State} (p : List Byte) (h : s.lineOn .rxTimeout = true) :
    execRxTimeout p s = outcomeOf (drain s p) := if_pos h

/-- A payload of one byte does what the byte does after the slot is stamped. -/
theorem drain_singleton (s : State) (b : Byte) : drain s [b] = rxByte s.stamped b := by
  simp only [drain_eq, rxBytes]
  cases rxByte s.stamped b <;> rfl

/-- Once the first byte is taken the rest of the payload is drained from there. -/
theorem drain_cons {s u : State} {b : Byte} (p : List Byte) (h : drain s [b] = .ok u) :
    drain s (b :: p) = drain u p := by
  have hu : u.stamped = u := (drain_isStamped h).stamped_eq
  rw [drain_singleton] at h
  simp only [drain_eq, rxBytes, h, hu]

theorem drain_cons_error {s : State} {b : Byte} {f : Fault} (p : List Byte)
    (h : drain s [b] = .error f) : drain s (b :: p) = .error f := by
  rw [drain_singleton] at h
  simp only [drain_eq, rxBytes, h]

/-- A drain does not change which lines are on. -/
theorem drain_lineOn {s u : State} {p : List Byte} (h : drain s p = .ok u) (l : UartLine) :
    u.lineOn l = s.lineOn l := by
  rw [State.lineOn, drain_irqEn h, State.lineOn]

/-- In RECEIVING the byte is stored and counted, the timer cancelled and the packet classified. -/
theorem drain_of_receiving {s : State} (b : Byte) (hr : s.rxState = .receiving) (h0 : 0 ≤ s.head) :
    drain s [b] = settleByte (s.stamped.takeByte b).cancelResp := by
  have hr' : s.stamped.rxState = .receiving := hr
  have h0' : ¬ s.stamped.head < 0 := not_lt.mpr h0
  rw [drain_singleton, rxByte, hr']
  exact if_neg h0'

/-- So for either line that delivers one byte. -/
theorem exec_byte_of_receiving {s : State} {b : Byte} {i : Instr}
    (hdel : (i = .rxData [b] ∧ s.lineOn .rxData = true) ∨
      (i = .rxTimeout [b] ∧ s.lineOn .rxTimeout = true))
    (hr : s.rxState = .receiving) (h0 : 0 ≤ s.head) :
    exec i s = outcomeOf (settleByte (s.stamped.takeByte b).cancelResp) := by
  rw [← drain_of_receiving b hr h0]
  obtain ⟨rfl, hon⟩ | ⟨rfl, hon⟩ := hdel
  · exact execRxData_of_lineOn _ hon
  · exact execRxTimeout_of_lineOn _ hon

/-- Settles O34. -/
theorem receivedByteIsStoredThenClassified : Obligations.ReceivedByteIsStoredThenClassified := by
  refine ⟨fun s u b i hdel hr h0 hu => ?_, fun s b p => ⟨fun hon => ?_, fun hon => ?_, ?_⟩⟩
  · have hexec : exec i s = outcomeOf (settleByte u) := by
      rw [exec_byte_of_receiving hdel hr h0, hu, State.cancelResp_eq, State.takeByte_eq]
      push_cast
      rfl
    refine ⟨fun hc => ?_, fun k e hc => ?_, fun f hc => ?_⟩ <;> rw [hexec, settleByte, hc] <;> rfl
  · refine ⟨fun u hu => ?_, fun f hf => ?_, fun hi => hi.exec_event_completes rfl⟩
    · have hd := outcomeOf_next ((execRxData_of_lineOn [b] hon).symm.trans hu)
      rw [exec, exec, execRxData_of_lineOn _ hon, drain_cons p hd,
        execRxData_of_lineOn _ ((drain_lineOn hd _).trans hon)]
    · have hd := outcomeOf_fault ((execRxData_of_lineOn [b] hon).symm.trans hf)
      rw [exec, execRxData_of_lineOn _ hon, drain_cons_error p hd]
      rfl
  · refine ⟨fun u hu => ?_, fun f hf => ?_, fun hi => hi.exec_event_completes rfl⟩
    · have hd := outcomeOf_next ((execRxTimeout_of_lineOn [b] hon).symm.trans hu)
      rw [exec, exec, execRxTimeout_of_lineOn _ hon, drain_cons p hd,
        execRxTimeout_of_lineOn _ ((drain_lineOn hd _).trans hon)]
    · have hd := outcomeOf_fault ((execRxTimeout_of_lineOn [b] hon).symm.trans hf)
      rw [exec, execRxTimeout_of_lineOn _ hon, drain_cons_error p hd]
      rfl
  · intro hd ht
    exact (execRxTimeout_of_lineOn p ht).trans (execRxData_of_lineOn p hd).symm

/-! ### The byte that completes a plain frame (44_classifier.md R120, 40_receive.md R76) -/

/-- While a reply is awaited only its timeout can be armed. -/
theorem Inv.timer_of_awaiting {s : State} (hi : Inv s) (ha : s.awaiting = true) :
    s.timerMode = .off ∨ s.timerMode = .resp := by
  obtain ⟨-, -, hr⟩ := s.awaiting_iff.mp ha
  cases hm : s.timerMode with
  | off => exact .inl rfl
  | resp => exact .inr rfl
  | brk => have := hi.item2 (.inl hm); simp [hr] at this
  | mab => have := hi.item2 (.inr hm); simp [hr] at this

/-- The four ways in which the bytes below `n` make a frame plain, the last of them being `b`. -/
abbrev PlainWith (s : State) (b : Byte) : Prop :=
  (s.head = 0 ∧ b ≠ 0xCC ∧ b ≠ 0xFE ∧ b ≠ 0xAA) ∨
  (1 ≤ s.head ∧ ∃ b0, cellAt s.buf 0 = some b0 ∧ b0 ≠ 0xCC ∧ b0 ≠ 0xFE ∧ b0 ≠ 0xAA) ∨
  (s.head = 1 ∧ cellAt s.buf 0 = some 0xCC ∧ b ≠ 0x01) ∨
  (2 ≤ s.head ∧ cellAt s.buf 0 = some 0xCC ∧ ∃ b1, cellAt s.buf 1 = some b1 ∧ b1 ≠ 0x01)

/-- With the byte stored at HEAD and counted, such a frame is classified by its size alone. -/
theorem classify_of_plainWith {s u : State} {b : Byte} (h0 : 0 ≤ s.head)
    (hcap : s.headNat < u.cfg.bufCap) (hbuf : u.buf = putCell s.buf s.headNat b)
    (hhead : u.head = s.head + 1) (hplain : PlainWith s b) :
    classify u = .ok (classifyDmx u u.headNat) := by
  have hcast := State.headNat_cast h0
  have hnew : memRead u s.headNat = .ok b :=
    memRead_ok_iff.mpr ⟨hcap, by rw [hbuf, cellAt_putCell_same]⟩
  have hold : ∀ {a : Nat} {c : Byte}, a < s.headNat → cellAt s.buf a = some c →
      memRead u a = .ok c := fun ha hc =>
    memRead_ok_iff.mpr ⟨by omega, by rw [hbuf, cellAt_putCell_ne _ _ (by omega), hc]⟩
  have htwo : 1 ≤ s.headNat → 2 ≤ u.headNat := by unfold State.headNat; omega
  obtain ⟨hz, hsc, hpre, hdel⟩ | ⟨h1, b0, hb0, hsc, hpre, hdel⟩ | ⟨h1, hb0, hsub⟩ |
    ⟨h2, hb0, b1, hb1, hsub⟩ := hplain
  · obtain hn : s.headNat = 0 := by omega
    exact classify_of_plain_start (hn ▸ hnew) hsc hpre hdel
  · exact classify_of_plain_start (hold (by omega) hb0) hsc hpre hdel
  · obtain hn : s.headNat = 1 := by omega
    exact classify_of_plain_second (hold (by omega) hb0) rfl (htwo (by omega)) (hn ▸ hnew) hsub
  · exact classify_of_plain_second (hold (by omega) hb0) rfl (htwo (by omega))
      (hold (by omega) hb1) hsub

/-- A HEAD within the buffer is the size a finished packet is recorded with. -/
theorem State.clampedHead_of_head_eq {s : State} {n : BitVec 16} (hhead : s.head = n.toNat)
    (hcap : n.toNat ≤ s.cfg.bufCap) : s.clampedHead = n := by
  have hn : s.headNat = n.toNat := by rw [State.headNat, hhead]; rfl
  rw [State.clampedHead, hn, Nat.min_eq_left hcap, BitVec.ofNat_toNat, BitVec.setWidth_eq]

/-- Finishing an awaited packet whose timer is already off ends the transaction. -/
theorem State.finish_of_awaiting {s : State} (ha : s.awaiting = true) (ht : s.timerMode = .off)
    (k : PktKind) (e : ErrCode) : (s.finish k e).flags.sending = false ∧
      (s.finish k e).flags.idle = true ∧ (s.finish k e).timerMode = .off := by
  rw [State.finish_flags, if_pos ha, State.finish_timerMode, ht]
  exact ⟨rfl, rfl, by simp⟩

/-- Settles O36: the byte is stored and counted, and R120 makes the frame complete. -/
theorem dmxFrameIsReportedAtRxSize : Obligations.DmxFrameIsReportedAtRxSize := by
  intro s b i hi hr hdel hsize hplain
  have h0 : 0 ≤ s.head := hi.item7 (.inl hr)
  have hcast := State.headNat_cast h0
  have hcap := hi.item9.2.1
  have hroom : s.headNat < s.cfg.bufCap := by omega
  have hmax : s.headNat + 1 ≤ s.cfg.headMax := by
    obtain ⟨⟨-, -, hcapmax⟩, -⟩ := hi.cfgValid
    omega
  obtain ⟨u, hu⟩ : ∃ u, u = (s.stamped.takeByte b).cancelResp := ⟨_, rfl⟩
  have hbuf : u.buf = putCell s.buf s.headNat b := by
    rw [hu, State.cancelResp_buf, State.takeByte_buf]
    exact if_pos hroom
  have hhead : u.head = s.rxSize.toNat := by
    have hstamped : Inv s.stamped := hi.stamped
    rw [hu, State.cancelResp_head, State.takeByte_head_of_valid b hstamped.cfgValid]
    change ((min (s.headNat + 1) s.cfg.headMax : Nat) : Int) = _
    omega
  have hcfg : u.cfg = s.cfg := by simp [hu, State.stamped]
  have hrx : u.rxSize = s.rxSize := by simp [hu, State.stamped]
  have htok : u.taskWaiting = s.taskWaiting := by simp [hu, State.stamped]
  have haw : u.awaiting = s.awaiting := by
    simp [hu, State.stamped, State.awaiting, Flags.setBreakMab]
  have htimer : u.timerMode = if s.timerMode = .resp then .off else s.timerMode := by
    simp [hu, State.cancelResp_timerMode, State.stamped]
  have hout : u.outputs = s.outputs ++ (if s.timerMode = .resp then [.timerPause] else []) := by
    simp [hu, State.cancelResp_outputs, State.stamped]
  have hsz : u.clampedHead = s.rxSize := State.clampedHead_of_head_eq hhead (hcfg ▸ hcap)
  have hnoResp : u.timerMode ≠ .resp := by
    rw [htimer]
    split <;> simp_all
  have hcomplete : classify u = .ok (.complete .dmx .ok) := by
    have hn : u.headNat = u.rxSize.toNat := by rw [State.headNat, hhead, hrx]; rfl
    rw [classify_of_plainWith h0 (hcfg ▸ hroom) hbuf (hhead.trans hsize.symm) hplain, classifyDmx,
      if_pos hn]
  have hexec : exec i s = .next (u.finish .dmx .ok) := by
    rw [exec_byte_of_receiving hdel hr h0, ← hu, settleByte, hcomplete]
    rfl
  refine ⟨_, hexec, by simpa using hhead, by simpa using hsz, by simp, by simp,
    u.finish_hasData _ _, by simp, by simp, by simpa using hbuf, fun ha => ?_, ?_⟩
  · refine State.finish_of_awaiting (haw.trans ha) ?_ _ _
    obtain h | h := hi.timer_of_awaiting ha <;> simp [htimer, h]
  · rw [State.finish_outputs, if_neg (fun h => hnoResp h.2), hout, htok, hsz, List.append_nil]

end Sys2Proof.Machine
end

section
/-! PROOFS. What the transmitter pushes in all (42_transmit.md R97, R99), and the rules about one step,
masked events and reset. -/

namespace Sys2Proof.Machine

/-! ### Pushing the packet in several operations (42_transmit.md R97, R99) -/

theorem fifoBytes_append (as bs : List Action) :
    fifoBytes (as ++ bs) = fifoBytes as ++ fifoBytes bs := by
  induction as with
  | nil => rfl
  | cons a as ih => cases a <;> simp [fifoBytes, ih]

/-- What TX_DATA puts out pushes just the bytes, whether or not it masks itself then. -/
theorem fifoBytes_push (bs : List Byte) (done : Prop) [Decidable done] (m : BitVec 8) :
    fifoBytes ((if bs = [] then [] else [.txFifoWrite bs]) ++ (if done then [.irqMask m] else [])) =
      bs := by
  rw [fifoBytes_append]
  by_cases hnil : bs = [] <;> by_cases hdone : done <;> simp [hnil, hdone, fifoBytes]

/-- From `s` to `t` the actions `acts` are put out, and the bytes they push are those from HEAD on. -/
structure Pushes (s t : State) (acts : List Action) : Prop where
  outputs : t.outputs = s.outputs ++ acts
  bytes : BytesAt s s.headNat (fifoBytes acts)
  head : t.head = s.head + (fifoBytes acts).length
  buf : t.buf = s.buf
  txSize : t.txSize = s.txSize

/-- TX_DATA has work to do, or none is left. -/
def State.txReady (s : State) : Prop := s.lineOn .txData = true ∨ s.head = s.txSize.toNat

section
variable {s t u : State} {as bs : List Action}

theorem Pushes.refl (s : State) : Pushes s s [] :=
  ⟨(List.append_nil _).symm, nofun, (Int.add_zero _).symm, rfl, rfl⟩

theorem Pushes.headNat (h : Pushes s t as) (h0 : 0 ≤ s.head) :
    t.headNat = s.headNat + (fifoBytes as).length := by
  have := h.head
  unfold State.headNat
  omega

/-- What is pushed first and what is pushed next stand one after the other. -/
theorem Pushes.trans (h₁ : Pushes s t as) (h₂ : Pushes t u bs) (h0 : 0 ≤ s.head) :
    Pushes s u (as ++ bs) := by
  refine ⟨?_, ?_, ?_, h₂.buf.trans h₁.buf, h₂.txSize.trans h₁.txSize⟩
  · rw [h₂.outputs, h₁.outputs, List.append_assoc]
  · rw [fifoBytes_append]
    intro j hj
    rw [List.length_append] at hj
    by_cases hlt : j < (fifoBytes as).length
    · rw [h₁.bytes j hlt, List.getElem_append_left hlt]
    · have hb := h₂.bytes (j - (fifoBytes as).length) (by omega)
      rw [h₁.headNat h0, h₁.buf] at hb
      rw [List.getElem_append_right (by omega), ← hb]
      congr 1
      omega
  · rw [h₂.head, h₁.head, fifoBytes_append, List.length_append]
    push_cast
    omega

/-- While bytes are being pushed HEAD is within the packet. -/
theorem Inv.head_of_txReady (hi : Inv s) (hr : s.txReady) :
    0 ≤ s.head ∧ s.head ≤ s.txSize.toNat := by
  obtain hon | hdone := hr
  · obtain ⟨-, h0, hle, -⟩ := hi.sendingPacket (hi.driving_of_txLine (.inl hon))
    exact ⟨h0, hle⟩
  · omega

end

/-- R103: TX_DATA pushes what there is room for and is left, and stays ready. -/
theorem Inv.txData_pushes {s : State} (hi : Inv s) (hr : s.txReady) (space : BitVec 16) :
    ∃ t acts, exec (.txData space) s = .next t ∧ Pushes s t acts ∧ t.txReady ∧
      (fifoBytes acts).length = min space.toNat (s.txSize.toNat - s.headNat) := by
  obtain ⟨h0, hle⟩ := hi.head_of_txReady hr
  have hn := State.headNat_cast h0
  cases hon : s.lineOn .txData with
  | false =>
    have hdone : s.head = s.txSize.toNat := hr.resolve_left (by simp [hon])
    refine ⟨s, [], (txDataPushesUntilNoneAreLeft s space).1 hon, .refl s, hr, ?_⟩
    simp only [fifoBytes, List.length_nil]
    omega
  | true =>
    obtain ⟨bs, hl, hbs, hexec⟩ := (txDataPushesUntilNoneAreLeft s space).2 hi hon
    have hpushed := fifoBytes_push bs (s.headNat + bs.length = s.txSize.toNat) (s.irqEn &&& 0xBF)
    refine ⟨_, _, hexec, ⟨List.append_assoc .., ?_, ?_, rfl, rfl⟩, ?_, ?_⟩
    · rwa [hpushed]
    · rw [hpushed]
    · by_cases hdone : s.headNat + bs.length = s.txSize.toNat
      · have hhead : s.head + bs.length = s.txSize.toNat := by omega
        exact .inr hhead
      · refine .inl ?_
        simpa [State.lineOn, hdone] using hon
    · rwa [hpushed]

theorem Inv.txDatas_push : ∀ (spaces : List (BitVec 16)) {s : State}, Inv s → s.txReady →
    ∃ t acts, execAll (spaces.map .txData) s = .next t ∧ Pushes s t acts ∧
      (fifoBytes acts).length = min (spaces.map (·.toNat)).sum (s.txSize.toNat - s.headNat)
  | [], s, hi, hr => ⟨s, [], rfl, .refl s, by simp [fifoBytes]⟩
  | space :: spaces, s, hi, hr => by
    obtain ⟨u, as, hu, hpush, hready, hlen⟩ := hi.txData_pushes hr space
    obtain ⟨t, bs, ht, hpush', hlen'⟩ := Inv.txDatas_push spaces ((exec_effect hu).inv hi) hready
    obtain ⟨h0, hle⟩ := hi.head_of_txReady hr
    refine ⟨t, as ++ bs, by simpa only [List.map_cons, execAll, hu] using ht,
      hpush.trans hpush' h0, ?_⟩
    rw [hpush.txSize, hpush.headNat h0] at hlen'
    rw [fifoBytes_append, List.length_append, List.map_cons, List.sum_cons]
    omega

/-- R102: at the end of the MAB what fits the FIFO is pushed, and TX_DATA is ready for the rest. -/
theorem Inv.mabAlarm_pushes {s : State} (hi : Inv s) (hm : s.timerMode = .mab) :
    ∃ t acts, exec .timerAlarm s = .next t ∧ Pushes s t acts ∧ t.txReady ∧
      (fifoBytes acts).length = min s.cfg.txFifoCap (s.txSize.toNat - s.headNat) := by
  obtain ⟨-, -, hmab, -⟩ := timerAlarmEndsWhatItTimed s
  obtain ⟨bs, hl, hbs, hexec⟩ := hmab hm hi
  have hpushed : fifoBytes [.txFifoWrite bs, .timerPause, .irqClear 0xC0,
      .irqMask (s.irqEn ||| 0xC0)] = bs := by simp [fifoBytes]
  refine ⟨_, _, hexec, ⟨rfl, ?_, ?_, rfl, rfl⟩, .inl ?_, ?_⟩
  · rwa [hpushed]
  · rw [hpushed]
  · simp [State.lineOn, UartLine.bit]
  · rwa [hpushed]

/-- Settles O47: the alarm pushes the first bytes, and each TX_DATA goes on where HEAD stands. -/
theorem packetGoesOutWholeAndInOrder : Obligations.PacketGoesOutWholeAndInOrder := by
  intro s spaces hi hm h0
  obtain ⟨u, as, hu, hpush, hready, hlen⟩ := hi.mabAlarm_pushes hm
  obtain ⟨t, bs, ht, hpush', hlen'⟩ := Inv.txDatas_push spaces ((exec_effect hu).inv hi) hready
  have hn : s.headNat = 0 := by rw [State.headNat, h0]; rfl
  obtain ⟨houtputs, hbytes, hhead, -, -⟩ := hpush.trans hpush' h0.ge
  rw [hpush.txSize, hpush.headNat h0.ge] at hlen'
  refine ⟨t, as ++ bs, by simpa only [execAll, hu] using ht, houtputs, hn ▸ hbytes, ?_, by omega⟩
  rw [fifoBytes_append, List.length_append]
  omega

/-! ### One step (30_encoding.md R58, R64, R65) -/

/-- Settles O7. -/
theorem stepRunsDecodedOperation : Obligations.StepRunsDecodedOperation := by
  intro s a rest i hin hnow hdec
  simp only [step, hin, if_neg (BitVec.not_lt.mpr hnow), hdec]
  rfl

/-- Settles O8. -/
theorem stepRefusesWhatSpellsNothing : Obligations.StepRefusesWhatSpellsNothing := by
  refine fun s a rest hin => ⟨step_of_stale hin, fun e hnow hdec => ?_⟩
  simp only [step, hin, if_neg (BitVec.not_lt.mpr hnow), hdec]

/-- Settles O10. -/
theorem waitingStepChangesNoRegister : Obligations.WaitingStepChangesNoRegister := by
  intro s hin
  calc step s = .next s.waitForInput := by simp only [step, hin]
    _ = _ := rfl

/-! ### Masked events, ignored edges and stray alarms (60_exceptions.md R143) -/

theorem execRxData_of_masked {s : State} (p : List Byte) (h : s.lineOn .rxData = false) :
    execRxData p s = .next s := if_neg (by simp [h])

theorem execRxTimeout_of_masked {s : State} (p : List Byte) (h : s.lineOn .rxTimeout = false) :
    execRxTimeout p s = .next s := if_neg (by simp [h])

/-- Settles O40. -/
theorem maskedEventsChangeNothing : Obligations.MaskedEventsChangeNothing := by
  intro s
  obtain ⟨hoverflow, hclash, -⟩ := overflowAndClashFinishThePacket s
  refine ⟨fun p => execRxData_of_masked p, fun p => execRxTimeout_of_masked p,
    execRxBreak_of_masked, fun p => execRxFramingErr_of_masked, hoverflow, hclash,
    fun n => execTxData_of_masked n, execTxDone_of_masked, execTimerAlarm_of_off,
    fun m hm => execTimerAlarm_of_brk (s := { s with irqEn := m }) hm, fun h => ?_⟩
  have hignored := s.edgeIgnored_iff.mpr h
  exact ⟨execGpioPosedge_of_ignored hignored, execGpioNegedge_of_ignored hignored⟩

/-! ### Reset (70_reset_and_hazards.md R155) -/

/-- Settles O60: reset under the default parameters evaluates to the table; no cell is written. -/
theorem resetLeavesTheStatedValues : Obligations.ResetLeavesTheStatedValues := by
  refine ⟨by decide, rfl, rfl, rfl, rfl, rfl, rfl, rfl, rfl, rfl, rfl, rfl, rfl, rfl, rfl,
    by decide, rfl, rfl, rfl, rfl, rfl, rfl, fun _ => rfl, rfl, rfl⟩

end Sys2Proof.Machine
end
